-- ==== Sys2Proof/Word.lean ====
section
/-! DEFINITION. The bit-vector types of the spec's values: bytes of a report, 16-bit containers and addresses. -/

namespace Sys2Proof

/-- A byte of a report (10_state.md R25). -/
abbrev Byte := BitVec 8

/-- The 16-bit container that carries a word of `WORD_BITS` bits (20_memory.md R33), and the CRC accumulator (R12). -/
abbrev Word := BitVec 16

/-- A 16-bit word address; addition on it is modulo `2^16` (20_memory.md R36). -/
abbrev Addr := BitVec 16

end Sys2Proof
end

