-- ==== Sys2Proof/Config.lean ====
section
/-! DEFINITION. The parameter record `P` of 00_scope.md R6, when it is well formed (R7), the reference instance
`P_ref`, and the free values (`draw`). -/

namespace Sys2Proof

/-- The two flash arrays (20_memory.md R32). -/
inductive Space where
  | pm
  | cm
  deriving DecidableEq, Repr

/-- A run of locations of one space that do not exist on the platform, first to last address
(20_memory.md R43: the locations for which `IMPL(sp, a)` is false; log entry 4). -/
structure Hole where
  space : Space
  first : Nat
  last  : Nat
  deriving DecidableEq, Repr

/-- The parameter record of 00_scope.md R6. `CRC_BITS` and `ADDR_BITS` are 16 in the source and stand in the
types; `HALF_WORDS` is derived. -/
structure Params where
  /-- `WORD_BITS`, significant bits of a flash word. -/
  wordBits        : Nat
  /-- `CRC_POLY`, OPEN (D1). -/
  crcPoly         : Word
  /-- `ROW_WORDS`, the erase unit and the size of the latch bank. -/
  rowWords        : Nat
  /-- `XFER_WORDS`, words moved by one Read or Program. -/
  xferWords       : Nat
  /-- `REPORT_BYTES`, size of a request and of a response. -/
  reportBytes     : Nat
  /-- `CHECK_STRIDE`, distance in words between comparisons. -/
  checkStride     : Nat
  /-- `SCAN_START`, first word of the user-programmable region. -/
  scanStart       : Nat
  /-- `SCAN_END`, one past its last word. -/
  scanEnd         : Nat
  /-- `CFG_START`: carried for completeness, no rule reads it. -/
  cfgStart        : Nat
  /-- `CFG_END`: carried for completeness, no rule reads it. -/
  cfgEnd          : Nat
  /-- `CSUM_ADDR`, the Stored Checksum Word in `PM`. -/
  csumAddr        : Addr
  /-- `HYBRID_SUPPORTED`. -/
  hybridSupported : Bool
  /-- `CSUM_ALT_ADDR`, the transformed checksum in `PM`. -/
  csumAltAddr     : Addr
  /-- `HYBRID_XOR`. -/
  hybridXor       : Word
  /-- `ERASED_WORD`. -/
  erasedWord      : Word
  /-- `UNLOCK1`. -/
  unlock1         : Byte
  /-- `UNLOCK2`. -/
  unlock2         : Byte
  /-- `RESIDENT_VECTOR`, a code address (16 bits wide here, log entry 18). -/
  residentVector  : Addr
  /-- `IMPL(sp, a)`, as the list of locations for which it is false. -/
  unimplemented   : List Hole
  /-- `WDT_ENABLED`: says only what resets the environment may give (D23); no step reads it. -/
  wdtEnabled      : Bool
  deriving DecidableEq, Repr

/-- The powers of two `2^lo .. 2^hi`. -/
def powersOfTwo (lo hi : Nat) : List Nat := (List.range' lo (hi + 1 - lo)).map (2 ^ ·)

/-- 00_scope.md R7. That `ROW_WORDS` is at most `2^16` is read from 41_flash_primitives.md R73 corner case (b),
"`ROW_WORDS` divides `2^16`" (DEDUCED, log entry 3). That every stored word fits in `WORD_BITS` bits is said of the
flash arrays by `Machine.Memory.wf`. -/
abbrev Params.WellFormed (P : Params) : Prop :=
  (1 ≤ P.wordBits ∧ P.wordBits ≤ 16) ∧
  P.rowWords ∈ powersOfTwo 1 16 ∧
  (P.xferWords = P.rowWords ∨ 2 * P.xferWords = P.rowWords) ∧
  3 + 2 * P.xferWords ≤ P.reportBytes ∧
  (P.scanStart < P.scanEnd ∧ P.scanEnd ≤ 2 ^ 16) ∧
  P.checkStride ∈ powersOfTwo 0 16 ∧
  P.erasedWord.toNat < 2 ^ P.wordBits

/-- `P_ref` of 00_scope.md R6. Its OPEN rows carry values only so that `State.reset` can be written out
(DESIGN CHOICE, log entry 2): `CRC_POLY` is the second constant of the vectors (D1), the bounds, `CSUM_ADDR` and
`CSUM_ALT_ADDR` are those of the spec's programs, the rest is the model's. -/
def Config.pRef : Params where
  wordBits        := 14
  crcPoly         := 0x23B1#16
  rowWords        := 32
  xferWords       := 16
  reportBytes     := 64
  checkStride     := 256
  scanStart       := 0x0400
  scanEnd         := 0x0800
  cfgStart        := 0x8000
  cfgEnd          := 0x8020
  csumAddr        := 0x07FF#16
  hybridSupported := false
  csumAltAddr     := 0x07FF#16
  hybridXor       := 0x3FFF#16
  erasedWord      := 0x3FFF#16
  unlock1         := 0x55#8
  unlock2         := 0xAA#8
  residentVector  := 0x0400#16
  unimplemented   := []
  wdtEnabled      := false

/-- `draw(W)` (00_scope.md section 6): the `n`-th value that no rule fixes. It has no body: no proof can know a
value of it (log entry 9). A user cuts it to the width drawn. -/
opaque Config.freeValue : Nat → Nat

end Sys2Proof
end

