-- ==== Sys2Proof/Syntax.lean ====
section
/-! DEFINITION. The commands a request report can carry: one constructor per row of spec/opcode_table.json. -/

namespace Sys2Proof

/-- The six recognised commands (30_encoding.md R58). `addr` is the word address of bytes 1 and 2 (R55); `words`
are the payload containers of a Program, all 16 bits of each as they stand on the wire (R56 drops the top bits
when the word goes into the flash controller). -/
inductive Instr where
  /-- `READ_MEM addr`, code 0x80. -/
  | readMem (addr : Addr)
  /-- `ERASE_MEM addr`, code 0x81. -/
  | eraseMem (addr : Addr)
  /-- `PROGRAM_MEM addr, w0 ..`, code 0x82. -/
  | programMem (addr : Addr) (words : List Word)
  /-- `READ_CFG addr`, code 0x84. -/
  | readCfg (addr : Addr)
  /-- `ERASE_CFG addr`, code 0x85. -/
  | eraseCfg (addr : Addr)
  /-- `PROGRAM_CFG addr, w0 ..`, code 0x86. -/
  | programCfg (addr : Addr) (words : List Word)
  deriving DecidableEq, Repr

end Sys2Proof
end

