-- ==== Sys2Proof/WellFormed.lean ====
section
/-! DEFINITION. When a command is one that a request report of `REPORT_BYTES` bytes can carry. -/

namespace Sys2Proof

/-- A Program command carries exactly `XFER_WORDS` payload words (30_encoding.md R51, 43_commands.md R105); the
other four carry none. -/
def Instr.wf (P : Params) : Instr → Bool
  | .readMem _ => true
  | .eraseMem _ => true
  | .programMem _ words => words.length == P.xferWords
  | .readCfg _ => true
  | .eraseCfg _ => true
  | .programCfg _ words => words.length == P.xferWords

end Sys2Proof
end

