-- ==== Sys2Proof/Decode.lean ====
section
/-! DEFINITION. Request reports to commands, total on any bytes and rejecting by name, and commands to request
reports; the byte orders of the wire. -/

namespace Sys2Proof

/-- The address of a report is big-endian: byte 1 high, byte 2 low (20_memory.md R34). -/
def addrOfBytes (hi lo : Byte) : Addr := hi ++ lo

/-- A data word of a report is little-endian: low byte first (20_memory.md R35). -/
def wordOfBytes (lo hi : Byte) : Word := hi ++ lo

/-- Bits `[7:0]` of a container or address. -/
def loByte (w : Word) : Byte := w.setWidth 8

/-- Bits `[15:8]` of a container or address. -/
def hiByte (w : Word) : Byte := (w >>> 8).setWidth 8

/-- `n` payload words from the bytes after the header (30_encoding.md R56). Bytes that are missing end the list
early; `decode` hands over enough of them. -/
def payloadWords : Nat → List Byte → List Word
  | 0, _ => []
  | n + 1, lo :: hi :: rest => wordOfBytes lo hi :: payloadWords n rest
  | _ + 1, _ => []

/-- The bytes of payload words, low byte first (30_encoding.md R61). -/
def payloadBytes : List Word → List Byte
  | [] => []
  | w :: ws => loByte w :: hiByte w :: payloadBytes ws

/-- What a request report decodes to. -/
inductive Decoded where
  /-- One of the six commands. -/
  | command (i : Instr)
  /-- A code that is not one of the six (30_encoding.md R59): it is answered by the echo, not refused. -/
  | unrecognised (code : Byte)
  /-- Not `REPORT_BYTES` bytes long: not a report (30_encoding.md R60). -/
  | notAReport (length : Nat)
  deriving DecidableEq, Repr

/-- The opcode map of 30_encoding.md R58: all eight bits of the code are compared (D15). -/
def decodeCommand (P : Params) (code : Byte) (addr : Addr) (payload : List Byte) : Decoded :=
  if code = 0x80#8 then .command (.readMem addr)
  else if code = 0x81#8 then .command (.eraseMem addr)
  else if code = 0x82#8 then .command (.programMem addr (payloadWords P.xferWords payload))
  else if code = 0x84#8 then .command (.readCfg addr)
  else if code = 0x85#8 then .command (.eraseCfg addr)
  else if code = 0x86#8 then .command (.programCfg addr (payloadWords P.xferWords payload))
  else .unrecognised code

/-- Decoding of a request report (30_encoding.md R51, R55, R58, R59). -/
def decode (P : Params) (report : List Byte) : Decoded :=
  if report.length = P.reportBytes then
    match report with
    | code :: hi :: lo :: payload => decodeCommand P code (addrOfBytes hi lo) payload
    | _ => .notAReport report.length
  else .notAReport report.length

/-- The command code of each command (30_encoding.md R58). -/
def opcode : Instr → Byte
  | .readMem _ => 0x80#8
  | .eraseMem _ => 0x81#8
  | .programMem _ _ => 0x82#8
  | .readCfg _ => 0x84#8
  | .eraseCfg _ => 0x85#8
  | .programCfg _ _ => 0x86#8

/-- The address operand of each command (30_encoding.md R55). -/
def operandAddr : Instr → Addr
  | .readMem a => a
  | .eraseMem a => a
  | .programMem a _ => a
  | .readCfg a => a
  | .eraseCfg a => a
  | .programCfg a _ => a

/-- The payload operand of each command; empty where there is none (30_encoding.md R51). -/
def operandWords : Instr → List Word
  | .readMem _ => []
  | .eraseMem _ => []
  | .programMem _ ws => ws
  | .readCfg _ => []
  | .eraseCfg _ => []
  | .programCfg _ ws => ws

/-- The bytes of a command that the engine reads: header, then payload (30_encoding.md R61). -/
def meaningfulBytes (i : Instr) : List Byte :=
  opcode i :: hiByte (operandAddr i) :: loByte (operandAddr i) :: payloadBytes (operandWords i)

/-- The request report of a command; the pad bytes, which the engine never reads, are written 0 as in the spec's
examples (30_encoding.md R61; log entry 30). -/
def encode (P : Params) (i : Instr) : List Byte :=
  meaningfulBytes i ++ List.replicate (P.reportBytes - (meaningfulBytes i).length) 0#8

/-- `n` bytes of a report whose first `nbits` bits are those of `w`, byte `k` being bits `8k+7 .. 8k`, and whose
other bits are 0. -/
def tableWordBytes (n nbits w : Nat) : List Byte :=
  (List.range n).map fun k => if 8 * k < nbits then BitVec.ofNat 8 (w >>> (8 * k)) else 0#8

/-- The command that the decoder reads, under `P_ref`, from a report numbered as spec/opcode_table.json numbers
it (byte 0 is bits 7 to 0). -/
def decodeTableWord (nbits w : Nat) : Option Instr :=
  match decode Config.pRef (tableWordBytes Config.pRef.reportBytes nbits w) with
  | .command i => some i
  | .unrecognised _ => none
  | .notAReport _ => none

end Sys2Proof
end

