-- ==== Sys2Proof/Machine/State.lean ====
section
/-! DEFINITION. Everything the spec gives the machine, as plain data (10_state.md), the machine after reset, and
the named reasons a step can stop. -/

namespace Sys2Proof.Machine

/-- One flash array: bytes at addresses, word `a` in bytes `2a` (low) and `2a+1` (high), strictly rising
addresses, no entry equal to what an unlisted address reads as (`Memory.wf` in Machine/Ops.lean; log entry 5). -/
abbrev Memory := List Host.Cell

/-- `unlock_state` (10_state.md R17). -/
inductive UnlockState where
  | idle
  | got1
  | armed
  deriving DecidableEq, Repr

/-- `st_state` (10_state.md R20). -/
inductive SelfTestState where
  | reset
  | scan
  | decide
  | done
  deriving DecidableEq, Repr

/-- `boot_mode` (10_state.md R22). -/
inductive BootMode where
  | bootloader
  | residentApplication
  | hybrid
  deriving DecidableEq, Repr

/-- `boot_kind` (10_state.md R23). -/
inductive BootKind where
  | jump
  | call
  deriving DecidableEq, Repr

/-- `ce_state` (10_state.md R24). -/
inductive EngineState where
  | idle
  | dispatch
  | respond
  | rearm
  deriving DecidableEq, Repr

/-- The kinds of reset that 70_reset_and_hazards.md R122 takes alike; they differ only in `nTO`. -/
inductive ResetKind where
  | powerOn
  | external
  | watchdog
  deriving DecidableEq, Repr

/-- The flash controller and its two arrays (10_state.md R13 to R19). -/
structure Flash where
  /-- `FADDR`, R13. -/
  faddr      : Addr
  /-- `FDATA`, R14. -/
  fdata      : Word
  /-- `FCON.CFG`, R15. -/
  fconCfg    : Bool
  /-- `FCON.ERASE`, R15. -/
  fconErase  : Bool
  /-- `FCON.COMMIT`, R15. -/
  fconCommit : Bool
  /-- `latch[0 .. ROW_WORDS-1]`, R16. -/
  latches    : List Word
  /-- `unlock_state`, R17. -/
  unlock     : UnlockState
  /-- `int_inhibit`, R18. -/
  intInhibit : Bool
  /-- `PM`, R19. -/
  pm         : Memory
  /-- `CM`, R19. -/
  cm         : Memory
  /-- The model's own: an erase or commit never completed (93_implementation_defined.md U6; log entry 12). -/
  hung       : Bool
  /-- The model's own: how many free values have been drawn (log entry 9). -/
  freeCount  : Nat
  deriving DecidableEq, Repr

/-- The self-test sequencer (10_state.md R20 to R23). -/
structure SelfTest where
  /-- `st_state`, R20. -/
  state     : SelfTestState
  /-- `scan_addr`, R20. -/
  scanAddr  : Addr
  /-- `scan_left`, R20, 17 bits. -/
  scanLeft  : BitVec 17
  /-- `passed`, R21. -/
  passed    : Bool
  /-- `passed_alt`, R21. -/
  passedAlt : Bool
  /-- `boot_mode`, R22. -/
  bootMode  : BootMode
  /-- `pullup_en`, R23. -/
  pullupEn  : Bool
  /-- `boot_kind`, R23, valid with `boot_go`. -/
  bootKind  : BootKind
  deriving DecidableEq, Repr

/-- The command engine (10_state.md R24, R25). -/
structure Engine where
  /-- `ce_state`, R24. -/
  state   : EngineState
  /-- `cmd`, R24. -/
  cmd     : Byte
  /-- `cfg_mode`, R24. -/
  cfgMode : Bool
  /-- `req_addr`, R24. -/
  reqAddr : Addr
  /-- `tx_len`, R24 and 30_encoding.md R53; a count, "8 or more" bits wide (log entry 33). -/
  txLen   : Nat
  /-- `tx_buf`, R25. -/
  txBuf   : List Byte
  deriving DecidableEq, Repr

/-- The ports that the outside drives (10_state.md R23, R26); no rule of the block writes them. -/
structure Ports where
  /-- `pin_in`, R23. -/
  pinIn      : Bool
  /-- `nTO`, R23: 1 when the last reset was not a watchdog time-out. -/
  nTO        : Bool
  /-- `configured`, R26. -/
  configured : Bool
  /-- `rx_full`, R26. -/
  rxFull     : Bool
  /-- `tx_free`, R26. -/
  txFree     : Bool
  /-- `rx_buf`, R25, the transport's. -/
  rxBuf      : List Byte
  deriving DecidableEq, Repr

/-- The events of 00_scope.md R5: `tx_submit` with the report of `REPORT_BYTES` bytes and `tx_len` (10_state.md R26,
30_encoding.md R53), `rx_rearm` (R26), `boot_go` with `boot_kind` (R23). -/
inductive Output where
  | txSubmit (report : List Byte) (len : Nat)
  | rxRearm
  | bootGo (kind : BootKind)
  deriving DecidableEq, Repr

/-- What the outside world can do next (70_reset_and_hazards.md R122, 20_memory.md R46, 10_state.md R23; log
entries 11 to 16). -/
inductive Input where
  /-- Nothing: the block takes a step of its own. -/
  | proceed
  /-- `pin_in` takes this level. -/
  | pin (level : Bool)
  /-- `configured` takes this level. -/
  | configure (level : Bool)
  /-- A complete new request arrives: `rx_buf` takes it and `rx_full` rises. -/
  | receive (report : List Byte)
  /-- The transport changes `rx_buf` outside the window in which it must keep it. -/
  | changeRxBuf (bytes : List Byte)
  /-- The previous response has left: `tx_free` rises. -/
  | responseGone
  /-- A reset; `during = some k`: it falls while the pending command's flash micro-operation `k` (from 0) is
  carried out. `after` is what the outside drives from then on, but for `nTO`, which the kind decides. -/
  | reset (kind : ResetKind) (during : Option Nat) (after : Ports)
  /-- The pending command's flash micro-operation `k` never completes (93_implementation_defined.md U6). -/
  | flashHangs (k : Nat)
  /-- The pending command's flash micro-operation `k` fails unseen (93_implementation_defined.md U8). -/
  | flashFails (k : Nat)
  deriving DecidableEq, Repr

/-- The whole machine. -/
structure State where
  /-- The parameter record `P` (00_scope.md R6); no step changes it. -/
  params  : Params
  /-- `crc` (10_state.md R12). -/
  crc     : Word
  flash   : Flash
  st      : SelfTest
  ce      : Engine
  /-- The microcontroller's program counter as the block writes it (42_selftest.md R89): none until the hand-off of
  RESIDENT_APPLICATION (log entry 18). -/
  mcuPc   : Option Addr
  ports   : Ports
  /-- The events that the latest step gave (log entry 20). -/
  outputs : List Output
  /-- What the outside world does next, first first; when it is empty the block steps (log entry 13). -/
  inputs  : List Input
  deriving DecidableEq, Repr

/-- Why the machine stops. -/
inductive Fault where
  /-- Raised by a step of the block while a flash operation of it never completes
  (93_implementation_defined.md U6: stuck, with `int_inhibit = 1`; only a reset ends it). Safe. -/
  | flashNeverCompletes
  deriving DecidableEq, Repr

/-- Why the model has no next state. -/
inductive Refusal where
  /-- Raised by `exec` for a command without a meaning; no arm uses it. Safe. -/
  | notModelled (mnemonic : String)
  /-- Raised by `step` on a parameter record that is not well formed (00_scope.md R7). Safe. -/
  | illFormedParameters
  /-- Raised by the inputs that break a duty of 20_memory.md R46 (93_implementation_defined.md U12). Safe. -/
  | transportBreaksDuty
  /-- Raised by CE_DISPATCH when `rx_buf` does not hold `REPORT_BYTES` bytes, which a transport that keeps its
  duties never shows (30_encoding.md R60, U12). Safe. -/
  | malformedReport
  deriving DecidableEq, Repr

/-- The machine right after reset under `P_ref`: the table of 10_state.md R29. Where the table says unspecified the
value 0 is the model's (DESIGN CHOICE, log entry 7); the flash arrays list nothing (log entry 6); the ports are the
outside's (log entry 28). -/
def State.reset : State where
  params := Config.pRef
  crc := 0#16
  flash :=
    { faddr := 0#16, fdata := 0#16, fconCfg := false, fconErase := false, fconCommit := false,
      latches := List.replicate Config.pRef.rowWords (BitVec.ofNat 16 (2 ^ Config.pRef.wordBits - 1)),
      unlock := .idle, intInhibit := false, pm := [], cm := [], hung := false, freeCount := 0 }
  st :=
    { state := .reset, scanAddr := 0#16, scanLeft := 0#17, passed := false, passedAlt := false,
      bootMode := .bootloader, pullupEn := false, bootKind := .jump }
  ce :=
    { state := .idle, cmd := 0#8, cfgMode := false, reqAddr := 0#16, txLen := 0,
      txBuf := List.replicate Config.pRef.reportBytes 0#8 }
  mcuPc := none
  ports :=
    { pinIn := false, nTO := true, configured := false, rxFull := false, txFree := true,
      rxBuf := List.replicate Config.pRef.reportBytes 0#8 }
  outputs := []
  inputs := []

end Sys2Proof.Machine
end

