-- ==== Sys2Proof/Machine/Ops.lean ====
section
/-! DEFINITION. The named operations over flash memory, rows and locations (20_memory.md). The block takes no
exception (60_exceptions.md R108, R116), so there is no exception entry here; the reset is in Machine/Reset.lean. -/

namespace Sys2Proof.Machine

/-- The word with every one of its `WORD_BITS` bits 1: `2^WORD_BITS - 1`. -/
def wordMask (P : Params) : Word := BitVec.ofNat 16 (2 ^ P.wordBits - 1)

/-- `zext_16(w[WORD_BITS-1:0])`: the container's top bits dropped (20_memory.md R33). -/
def clip (P : Params) (w : Word) : Word := w &&& wordMask P

/-- `draw(WORD_BITS)` in a container: free value number `n`. -/
def freeWord (P : Params) (n : Nat) : Word := clip P (BitVec.ofNat 16 (Config.freeValue n))

/-! ### One flash array -/

/-- What byte `n` of a flash array reads as while nothing lists it: its half of `ERASED_WORD`
(DESIGN CHOICE, log entry 6). -/
def blankByte (P : Params) (n : Nat) : Byte :=
  if n % 2 = 0 then loByte P.erasedWord else hiByte P.erasedWord

/-- The bits of byte `n` of a flash array that belong to a word. -/
def maskByte (P : Params) (n : Nat) : Byte :=
  if n % 2 = 0 then loByte (wordMask P) else hiByte (wordMask P)

/-- The addresses of a list rise strictly. -/
def Memory.rising : Memory → Bool
  | [] => true
  | [_] => true
  | c :: d :: rest => decide (c.1 < d.1) && Memory.rising (d :: rest)

/-- An entry of an array in canonical form: inside the array, not what an unlisted byte reads as, and within
`WORD_BITS` bits (00_scope.md R7: every stored word fits). -/
def Memory.entryOk (P : Params) (c : Host.Cell) : Bool :=
  decide (c.1 < 2 * 2 ^ 16) && !(c.2 == blankByte P c.1) && (c.2 &&& maskByte P c.1) == c.2

/-- The canonical form of an array: equal contents are equal lists. -/
def Memory.wf (P : Params) (m : Memory) : Bool := Memory.rising m && m.all (Memory.entryOk P)

/-- Byte `n` of an array. -/
def readByte (P : Params) : Memory → Nat → Byte
  | [], n => blankByte P n
  | (b, v) :: rest, n => if b = n then v else readByte P rest n

/-- Byte `n` of an array becomes `v`; the canonical form is kept. -/
def writeByte (P : Params) : Memory → Nat → Byte → Memory
  | [], n, v => if v = blankByte P n then [] else [(n, v)]
  | (b, u) :: rest, n, v =>
    if n < b then
      if v = blankByte P n then (b, u) :: rest else (n, v) :: (b, u) :: rest
    else if n = b then
      if v = blankByte P n then rest else (n, v) :: rest
    else (b, u) :: writeByte P rest n v

/-- `MemRead(sp:a, 1)` on one array (00_scope.md section 6): the `WORD_BITS`-bit word in its container. -/
def memRead (P : Params) (m : Memory) (a : Addr) : Word :=
  clip P (wordOfBytes (readByte P m (2 * a.toNat)) (readByte P m (2 * a.toNat + 1)))

/-- `MemWrite(sp:a, 1, v)` on one array (00_scope.md section 6). -/
def memWrite (P : Params) (m : Memory) (a : Addr) (v : Word) : Memory :=
  writeByte P (writeByte P m (2 * a.toNat) (loByte (clip P v))) (2 * a.toNat + 1) (hiByte (clip P v))

/-! ### Locations and rows -/

/-- `IMPL(sp, a)` (20_memory.md R43). -/
def implemented (P : Params) (sp : Space) (a : Addr) : Bool :=
  !P.unimplemented.any fun h => decide (h.space = sp ∧ h.first ≤ a.toNat ∧ a.toNat ≤ h.last)

/-- `FADDR AND NOT (ROW_WORDS - 1)`: the base of the row that contains an address (41_flash_primitives.md R73). -/
def rowBase (P : Params) (a : Addr) : Addr := a &&& ~~~(BitVec.ofNat 16 (P.rowWords - 1))

/-- The place of an address in its row, and the number of its latch: `FADDR mod ROW_WORDS` (10_state.md R16). -/
def rowIndex (P : Params) (a : Addr) : Nat := a.toNat % P.rowWords

/-- For `i` in `0 .. ROW_WORDS-1`: word `base + i` of the array, where it exists, becomes `new i old`
(the loops of 41_flash_primitives.md R73 and R76). -/
def updateRow (P : Params) (sp : Space) (base : Addr) (new : Nat → Word → Word) (m : Memory) : Memory :=
  (List.range P.rowWords).foldl
    (fun m i =>
      if implemented P sp (base + BitVec.ofNat 16 i) then
        memWrite P m (base + BitVec.ofNat 16 i) (new i (memRead P m (base + BitVec.ofNat 16 i)))
      else m)
    m

/-- The array of a space. -/
def Flash.array (f : Flash) : Space → Memory
  | .pm => f.pm
  | .cm => f.cm

/-- The array of a space replaced; the other space keeps its words (20_memory.md R32). -/
def Flash.setArray (f : Flash) (sp : Space) (m : Memory) : Flash :=
  match sp with
  | .pm => { f with pm := m }
  | .cm => { f with cm := m }

/-- The space an access goes to, by `FCON.CFG` alone (10_state.md R15, 41_flash_primitives.md R69). -/
def spaceOf (cfg : Bool) : Space := if cfg then .cm else .pm

end Sys2Proof.Machine
end

