-- ==== Sys2Proof/Machine/Flags.lean ====
section
/-! DEFINITION. Every computation of a one-bit element (10_state.md R27: the block has no condition codes; these
are all its flags), and the conditions that the sequencers test. -/

namespace Sys2Proof.Machine

/-- `cfg_mode <- CMD[2]`, mask 0x04 (30_encoding.md R54, 43_commands.md R94). -/
def cfgModeFlag (code : Byte) : Bool := code.getLsbD 2

/-- `passed` after a comparison: set on a match of all 16 bits, never cleared (42_selftest.md R85). -/
def passedFlag (old : Bool) (crc stored : Word) : Bool := old || crc == stored

/-- `passed_alt` after a comparison of the transformed checksum (42_selftest.md R85). -/
def passedAltFlag (P : Params) (old : Bool) (crc stored : Word) : Bool := old || (crc ^^^ P.hybridXor) == stored

/-- `is_slot(a)` (42_selftest.md R83). -/
def isSlot (P : Params) (a : Addr) : Bool := a == P.csumAddr || (P.hybridSupported && a == P.csumAltAddr)

/-- A boundary has been crossed when the incremented address is a multiple of `CHECK_STRIDE` (42_selftest.md R84). -/
def atBoundary (P : Params) (a : Addr) : Bool := a.toNat % P.checkStride == 0

/-- The boot mode that the decision selects (42_selftest.md R87). -/
def decideMode (P : Params) (pin passed passedAlt nTO : Bool) : BootMode :=
  if pin && passed && nTO then .residentApplication
  else if P.hybridSupported && pin && passedAlt && nTO then .hybrid
  else .bootloader

/-- `ce_enabled` (43_commands.md R92). -/
def ceEnabled (s : State) : Bool :=
  s.st.state == .done && (s.st.bootMode == .bootloader || s.st.bootMode == .hybrid)

/-- The condition under which the engine leaves CE_IDLE (43_commands.md R93), but for `ce_enabled`. -/
def requestReady (p : Ports) : Bool := p.configured && p.rxFull && p.txFree

/-- Level of `nTO` after a reset of each kind: 0 after a watchdog time-out, 1 otherwise
(70_reset_and_hazards.md R122). -/
def nTOAfter : ResetKind → Bool
  | .powerOn => true
  | .external => true
  | .watchdog => false

end Sys2Proof.Machine
end

