-- ==== Sys2Proof/Machine/Operands.lean ====
section
/-! DEFINITION. Every operand form: the header of a request (30_encoding.md R51, R55), the words of a transfer
(R56, R57), byte buffers. The byte orders themselves are in Decode.lean. -/

namespace Sys2Proof.Machine

/-- Byte `i` of a report buffer. -/
def bufByte (buf : List Byte) (i : Nat) : Byte := buf.getD i 0#8

/-- The address of word `k` of a transfer: `req_addr + k`, modulo `2^16` (20_memory.md R36). -/
def wordAddr (a : Addr) (k : Nat) : Addr := a + BitVec.ofNat 16 k

/-- Payload word `k` of a Program command, a container (43_commands.md R100). -/
def payloadWord (words : List Word) (k : Nat) : Word := words.getD k 0#16

/-- `tx_buf[3+2k] <- w[7:0]; tx_buf[4+2k] <- w[15:8]` (30_encoding.md R57). -/
def putWord (buf : List Byte) (k : Nat) (w : Word) : List Byte :=
  (buf.set (3 + 2 * k) (loByte w)).set (4 + 2 * k) (hiByte w)

/-- The echo of the header: `tx_buf[0 .. 2]` (43_commands.md R94). -/
def putHeader (buf : List Byte) (b0 b1 b2 : Byte) : List Byte :=
  ((buf.set 0 b0).set 1 b1).set 2 b2

end Sys2Proof.Machine
end

