-- ==== Sys2Proof/Machine/FlashController.lean ====
section
/-! DEFINITION. The flash controller: micro-operations, unlock sequence, critical section and composites
(41_flash_primitives.md). None of them has an encoding, raises anything or reports a status. -/

namespace Sys2Proof.Machine

/-- `FL_SELECT(cfg, a)` (R69). -/
def flSelect (cfg : Bool) (a : Addr) (f : Flash) : Flash := { f with fconCfg := cfg, faddr := a }

/-- `FL_READ(cfg, a)` (R70); the container it returns is `FDATA` of the result. A location that does not exist
reads as a fresh free value (20_memory.md R43). -/
def flRead (P : Params) (cfg : Bool) (a : Addr) (f : Flash) : Flash :=
  let f := flSelect cfg a f
  if implemented P (spaceOf f.fconCfg) f.faddr then
    { f with fdata := memRead P (f.array (spaceOf f.fconCfg)) f.faddr }
  else { f with fdata := freeWord P f.freeCount, freeCount := f.freeCount + 1 }

/-! ### Unlock sequence and critical section -/

/-- A write of byte `v` to the unlock register (R71). -/
def unlockWrite (P : Params) (v : Byte) : UnlockState → UnlockState
  | .idle => if v = P.unlock1 then .got1 else .idle
  | .got1 => if v = P.unlock2 then .armed else .idle
  | .armed => .idle

/-- `UNLOCK()` (R71). -/
def unlockSequence (P : Params) (f : Flash) : Flash :=
  { f with unlock := unlockWrite P P.unlock2 (unlockWrite P P.unlock1 f.unlock) }

/-- `CS_ENTER` (R72). -/
def csEnter (f : Flash) : Flash := { f with intInhibit := true }

/-- `CS_EXIT` (R72). -/
def csExit (f : Flash) : Flash := { f with intInhibit := false }

/-! ### What an armed write strobe does (R71: the operation `FCON` selects, 10_state.md R15) -/

/-- Every implemented word of the row containing `FADDR` becomes `ERASED_WORD` (R73). -/
def eraseRow (P : Params) (f : Flash) : Flash :=
  f.setArray (spaceOf f.fconCfg)
    (updateRow P (spaceOf f.fconCfg) (rowBase P f.faddr) (fun _ _ => P.erasedWord) (f.array (spaceOf f.fconCfg)))

/-- `latch[FADDR mod ROW_WORDS] <- FDATA[WORD_BITS-1:0]` (R75, R76). -/
def loadLatch (P : Params) (f : Flash) : Flash :=
  { f with latches := f.latches.set (rowIndex P f.faddr) (clip P f.fdata) }

/-- Latch `i` of the bank. -/
def latchWord (P : Params) (latches : List Word) (i : Nat) : Word := latches.getD i (wordMask P)

/-- Every implemented word of the row containing `FADDR` is ANDed with its latch; then every latch is all ones
(R76). -/
def commitLatches (P : Params) (f : Flash) : Flash :=
  let f := f.setArray (spaceOf f.fconCfg)
    (updateRow P (spaceOf f.fconCfg) (rowBase P f.faddr) (fun i old => old &&& latchWord P f.latches i)
      (f.array (spaceOf f.fconCfg)))
  { f with latches := List.replicate P.rowWords (wordMask P) }

/-- The operation that `FCON` selects: erase; load and commit; load only (10_state.md R15). -/
def selectedOperation (P : Params) (f : Flash) : Flash :=
  if f.fconErase then eraseRow P f
  else if f.fconCommit then commitLatches P (loadLatch P f)
  else loadLatch P f

/-- Write strobe `FCON.WR` (R71): without the unlock nothing is performed. -/
def writeStrobe (P : Params) (f : Flash) : Flash :=
  match f.unlock with
  | .armed => { selectedOperation P f with unlock := .idle }
  | .got1 => { f with unlock := .idle }
  | .idle => { f with unlock := .idle }

/-! ### The micro-operations that strobe -/

/-- `FL_ERASE(cfg, a)` (R73). -/
def flErase (P : Params) (cfg : Bool) (a : Addr) (f : Flash) : Flash :=
  let f := flSelect cfg a f
  let f := writeStrobe P (unlockSequence P { f with fconErase := true })
  { f with fconErase := false }

/-- `FL_LOAD(cfg, a, w)` (R75). -/
def flLoad (P : Params) (cfg : Bool) (a : Addr) (w : Word) (f : Flash) : Flash :=
  let f := flSelect cfg a f
  writeStrobe P (unlockSequence P { f with fdata := clip P w, fconCommit := false })

/-- `FL_WRITE(cfg, a, w)` (R76). -/
def flWrite (P : Params) (cfg : Bool) (a : Addr) (w : Word) (f : Flash) : Flash :=
  let f := flSelect cfg a f
  writeStrobe P (unlockSequence P { f with fdata := clip P w, fconCommit := true })

/-- A strobing micro-operation with its operands. -/
inductive FlashOp where
  | erase (cfg : Bool) (a : Addr)
  | load (cfg : Bool) (a : Addr) (w : Word)
  | write (cfg : Bool) (a : Addr) (w : Word)
  deriving DecidableEq, Repr

/-- One strobing micro-operation. -/
def runOp (P : Params) (op : FlashOp) (f : Flash) : Flash :=
  match op with
  | .erase cfg a => flErase P cfg a f
  | .load cfg a w => flLoad P cfg a w f
  | .write cfg a w => flWrite P cfg a w f

/-- Micro-operations one after the other. -/
def runOps (P : Params) (ops : List FlashOp) (f : Flash) : Flash := ops.foldl (fun f op => runOp P op f) f

/-! ### The composites (R74, R77, R78) -/

/-- The body of `erase_row(cfg, a)` (R74). -/
def eraseRowOps (cfg : Bool) (a : Addr) : List FlashOp := [.erase cfg a]

/-- Micro-operation `k` of `program_row`: a commit for every word of configuration memory and for the last word of
the count, a latch load otherwise (R77). -/
def programOp (P : Params) (cfg : Bool) (a : Addr) (words : List Word) (k : Nat) : FlashOp :=
  if cfg || k == P.xferWords - 1 then .write cfg (wordAddr a k) (payloadWord words k)
  else .load cfg (wordAddr a k) (payloadWord words k)

/-- The body of `program_row(cfg, a, W)` (R77). -/
def programRowOps (P : Params) (cfg : Bool) (a : Addr) (words : List Word) : List FlashOp :=
  (List.range P.xferWords).map (programOp P cfg a words)

/-- Micro-operations inside one critical section (R72: `int_inhibit` rises once and falls once). -/
def criticalSection (P : Params) (ops : List FlashOp) (f : Flash) : Flash :=
  csExit (runOps P ops (csEnter f))

/-- One word of `read_row` and its place in the response (R78, 43_commands.md R98). -/
def readWordInto (P : Params) (cfg : Bool) (a : Addr) (ft : Flash × List Byte) (k : Nat) : Flash × List Byte :=
  let f := flRead P cfg (wordAddr a k) ft.1
  (f, putWord ft.2 k f.fdata)

/-- `read_row(cfg, a)` with its words put into the response, one `FL_READ` a word (R78, 43_commands.md R98). -/
def readRowInto (P : Params) (cfg : Bool) (a : Addr) (f : Flash) (tx : List Byte) : Flash × List Byte :=
  (List.range P.xferWords).foldl (readWordInto P cfg a) (f, tx)

/-! ### A row caught by a reset, a hang or a failure (93_implementation_defined.md U5, U6, U8) -/

/-- An operation that writes a row of the array. -/
def FlashOp.writesRow : FlashOp → Bool
  | .erase _ _ => true
  | .load _ _ _ => false
  | .write _ _ _ => true

/-- The space of a micro-operation. -/
def FlashOp.space : FlashOp → Space
  | .erase cfg _ => spaceOf cfg
  | .load cfg _ _ => spaceOf cfg
  | .write cfg _ _ => spaceOf cfg

/-- The address of a micro-operation. -/
def FlashOp.addr : FlashOp → Addr
  | .erase _ a => a
  | .load _ a _ => a
  | .write _ a _ => a

/-- Every word of the row of `op` becomes a free value of its own (U5). -/
def scrambleRow (P : Params) (op : FlashOp) (f : Flash) : Flash :=
  { f.setArray op.space
      (updateRow P op.space (rowBase P op.addr) (fun i _ => freeWord P (f.freeCount + i)) (f.array op.space))
    with freeCount := f.freeCount + P.rowWords }

/-- The flash while micro-operation `k` of a critical section is carried out: the ones before it are complete, and
the row that is being written, which is the row of the first operation from `k` on that writes one, holds
unspecified words (U5; log entry 11). None when there is no such operation. What `FADDR`, `FDATA`, `FCON.CFG`,
`FCON.ERASE`, `FCON.COMMIT`, `unlock_state` and the latches hold at that moment no rule says; here they are as
operation `k - 1` left them, so nothing of operation `k` or of a later load is in them (DESIGN CHOICE, log entry 12;
unsafe). A reset does away with all of them (10_state.md R29), so only a hang shows it. -/
def caughtAt (P : Params) (ops : List FlashOp) (k : Nat) (f : Flash) : Option Flash :=
  match (ops.drop k).find? FlashOp.writesRow with
  | some op => some (scrambleRow P op (runOps P (ops.take k) (csEnter f)))
  | none => none

/-- A critical section in which micro-operation `k`, if it writes a row, leaves unspecified words in it (U8). -/
def failedAt (P : Params) (ops : List FlashOp) (k : Nat) (f : Flash) : Flash :=
  let f := runOps P (ops.take (k + 1)) (csEnter f)
  let f := match ops[k]? with
    | some op => if op.writesRow then scrambleRow P op f else f
    | none => f
  csExit (runOps P (ops.drop (k + 1)) f)

end Sys2Proof.Machine
end

