-- ==== Sys2Proof/Machine/Commands.lean ====
section
/-! DEFINITION. Step CE_DISPATCH of the command engine: header decode (43_commands.md R94) and the six commands
(R98 to R103). None of them can stop: the block has no exception and reports no failure (R97, R107). -/

namespace Sys2Proof.Machine

/-- First part of CE_DISPATCH, for every request: decode and echo of the header (R94). -/
def beginDispatch (b0 b1 b2 : Byte) (s : State) : State :=
  { s with ce :=
      { s.ce with
        cmd := b0
        cfgMode := cfgModeFlag b0
        reqAddr := addrOfBytes b1 b2
        txBuf := putHeader s.ce.txBuf b0 b1 b2
        txLen := 3 } }

/-- `ce_state <- CE_RESPOND` (R95). -/
def endDispatch (s : State) : State := { s with ce := { s.ce with state := .respond } }

/-- The header decode of a command, its address bytes taken apart again (20_memory.md R34). -/
def beginCommand (code : Byte) (a : Addr) (s : State) : State :=
  beginDispatch code (hiByte a) (loByte a) s

/-- The Read commands (R98). -/
def readCommand (code : Byte) (a : Addr) (s : State) : State :=
  let s := beginCommand code a s
  let ft := readRowInto s.params s.ce.cfgMode s.ce.reqAddr s.flash s.ce.txBuf
  endDispatch { s with flash := ft.1, ce := { s.ce with txBuf := ft.2, txLen := 3 + 2 * s.params.xferWords } }

/-- The Erase commands (R99). -/
def eraseCommand (code : Byte) (a : Addr) (s : State) : State :=
  let s := beginCommand code a s
  endDispatch { s with flash := criticalSection s.params (eraseRowOps s.ce.cfgMode s.ce.reqAddr) s.flash }

/-- The Program commands (R100). -/
def programCommand (code : Byte) (a : Addr) (words : List Word) (s : State) : State :=
  let s := beginCommand code a s
  endDispatch
    { s with flash := criticalSection s.params (programRowOps s.params s.ce.cfgMode s.ce.reqAddr words) s.flash }

/-- `READ_MEM` (R98). -/
def execReadMem (a : Addr) (s : State) : Host.Outcome State Fault Refusal := .next (readCommand 0x80#8 a s)

/-- `ERASE_MEM` (R99). -/
def execEraseMem (a : Addr) (s : State) : Host.Outcome State Fault Refusal := .next (eraseCommand 0x81#8 a s)

/-- `PROGRAM_MEM` (R100). -/
def execProgramMem (a : Addr) (words : List Word) (s : State) : Host.Outcome State Fault Refusal :=
  .next (programCommand 0x82#8 a words s)

/-- `READ_CFG` (R101): as READ_MEM with `cfg_mode = 1`. -/
def execReadCfg (a : Addr) (s : State) : Host.Outcome State Fault Refusal := .next (readCommand 0x84#8 a s)

/-- `ERASE_CFG` (R102): as ERASE_MEM with `cfg_mode = 1`. -/
def execEraseCfg (a : Addr) (s : State) : Host.Outcome State Fault Refusal := .next (eraseCommand 0x85#8 a s)

/-- `PROGRAM_CFG` (R103): as PROGRAM_MEM with `cfg_mode = 1`. -/
def execProgramCfg (a : Addr) (words : List Word) (s : State) : Host.Outcome State Fault Refusal :=
  .next (programCommand 0x86#8 a words s)

/-- A request whose code is none of the six (R104): nothing beyond the decode. -/
def execUnrecognised (b0 b1 b2 : Byte) (s : State) : State := endDispatch (beginDispatch b0 b1 b2 s)

/-- The strobing micro-operations that a command performs in its critical section (R99, R100, R102, R103); the Read
commands perform none. -/
def strobesOf (P : Params) : Instr → List FlashOp
  | .readMem _ => []
  | .eraseMem a => eraseRowOps false a
  | .programMem a words => programRowOps P false a words
  | .readCfg _ => []
  | .eraseCfg a => eraseRowOps true a
  | .programCfg a words => programRowOps P true a words

end Sys2Proof.Machine
end

