-- ==== Sys2Proof/Machine/Dispatch.lean ====
section
/-! DEFINITION. One arm per command (43_commands.md R95). -/

namespace Sys2Proof.Machine

def exec (i : Instr) (s : State) : Host.Outcome State Fault Refusal :=
  match i with
  | .readMem a => Sys2Proof.Machine.execReadMem a s
  | .eraseMem a => Sys2Proof.Machine.execEraseMem a s
  | .programMem a words => Sys2Proof.Machine.execProgramMem a words s
  | .readCfg a => Sys2Proof.Machine.execReadCfg a s
  | .eraseCfg a => Sys2Proof.Machine.execEraseCfg a s
  | .programCfg a words => Sys2Proof.Machine.execProgramCfg a words s

end Sys2Proof.Machine
end

