-- ==== Sys2Proof/Machine/Crc.lean ====
section
/-! DEFINITION. The CRC unit (40_crc.md). -/

namespace Sys2Proof.Machine

/-- `CRC_CLEAR` (R63). -/
def crcClear (s : State) : State := { s with crc := 0#16 }

/-- `crc_bit(c, b)` (R64). -/
def crcBit (poly : Word) (c : Word) (b : Bool) : Word :=
  let fb := c.getLsbD 0 ^^ b
  (c >>> 1) ^^^ (if fb then poly else 0#16)

/-- The value of `crc` after `CRC_UPDATE(w)` started with `crc = c`: bits 0 to `WORD_BITS-1`, bit 0 first (R65). -/
def crcFold (P : Params) (c : Word) (w : Word) : Word :=
  (List.range P.wordBits).foldl (fun c i => crcBit P.crcPoly c (w.getLsbD i)) c

/-- `CRC_UPDATE(w)` (R65). -/
def crcUpdate (w : Word) (s : State) : State := { s with crc := crcFold s.params s.crc w }

/-- The checksum of a sequence of words (R67). -/
def checksum (P : Params) (ws : List Word) : Word := ws.foldl (crcFold P) 0#16

end Sys2Proof.Machine
end

