-- ==== Sys2Proof/Machine/SelfTestSteps.lean ====
section
/-! DEFINITION. The self-test and boot-decision sequencer (42_selftest.md). -/

namespace Sys2Proof.Machine

/-- Step `ST_RESET` (R81). -/
def startSelfTest (s : State) : State :=
  let s := { s with st := { s.st with pullupEn := true } }
  let s := crcClear s
  { s with st :=
      { s.st with
        passed := false
        passedAlt := false
        scanAddr := BitVec.ofNat 16 s.params.scanStart
        scanLeft := BitVec.ofNat 17 (s.params.scanEnd - s.params.scanStart)
        state := .scan } }

/-- `BOUNDARY_CHECK` (R85). -/
def boundaryCheck (s : State) : State :=
  let f := flRead s.params false s.params.csumAddr s.flash
  let s := { s with flash := f, st := { s.st with passed := passedFlag s.st.passed s.crc f.fdata } }
  if s.params.hybridSupported then
    let f := flRead s.params false s.params.csumAltAddr s.flash
    { s with
      flash := f
      st := { s.st with passedAlt := passedAltFlag s.params s.st.passedAlt s.crc f.fdata } }
  else s

/-- The word of a scan step: read, and folded unless its location is a slot (R82, R83). -/
def scanWord (s : State) : State :=
  let f := flRead s.params false s.st.scanAddr s.flash
  let s' := { s with flash := f }
  if isSlot s.params s.st.scanAddr then s' else crcUpdate f.fdata s'

/-- The address and the count of a scan step (R82). -/
def scanAdvance (s : State) : State :=
  { s with st := { s.st with scanAddr := s.st.scanAddr + 1#16, scanLeft := s.st.scanLeft - 1#17 } }

/-- Step `ST_SCAN`, one word (R82). -/
def scanStep (s : State) : State :=
  let s := scanAdvance (scanWord s)
  let s := if atBoundary s.params s.st.scanAddr then boundaryCheck s else s
  if s.st.scanLeft = 0#17 then { s with st := { s.st with state := .decide } } else s

/-- `HANDOFF` (R89). The address of the CALL is outside the spec (log entry 18). -/
def handoff (s : State) : State :=
  match s.st.bootMode with
  | .residentApplication =>
    { s with
      st := { s.st with bootKind := .jump }
      outputs := [.bootGo .jump]
      mcuPc := some s.params.residentVector }
  | .hybrid => { s with st := { s.st with bootKind := .call }, outputs := [.bootGo .call] }
  | .bootloader => s

/-- Step `ST_DECIDE` (R87). -/
def decideStep (s : State) : State :=
  let mode := decideMode s.params s.ports.pinIn s.st.passed s.st.passedAlt s.ports.nTO
  let s := handoff { s with st := { s.st with bootMode := mode, pullupEn := false } }
  { s with st := { s.st with state := .done } }

end Sys2Proof.Machine
end

