-- ==== Sys2Proof/Machine/EngineSteps.lean ====
section
/-! DEFINITION. The command engine's state machine (43_commands.md R92 to R96) and the block's own step: which of
the two sequencers takes it (10_state.md R11). -/

namespace Sys2Proof.Machine

/-- Step CE_DISPATCH (R94, R95): the request in `rx_buf` is decoded and executed. -/
def dispatchStep (s : State) : Host.Outcome State Fault Refusal :=
  match decode s.params s.ports.rxBuf with
  | .command i => exec i s
  | .unrecognised code =>
    .next (execUnrecognised code (bufByte s.ports.rxBuf 1) (bufByte s.ports.rxBuf 2) s)
  | .notAReport _ => .refused .malformedReport

/-- Step out of CE_IDLE (R93): while a condition fails nothing in the block changes. -/
def idleStep (s : State) : State :=
  if requestReady s.ports then { s with ce := { s.ce with state := .dispatch } } else s

/-- Step CE_RESPOND (R96). The transport drops `tx_free` on `tx_submit` (20_memory.md R46; log entry 14). -/
def respondStep (s : State) : State :=
  { s with
    ce := { s.ce with state := .rearm }
    ports := { s.ports with txFree := false }
    outputs := [.txSubmit s.ce.txBuf s.ce.txLen] }

/-- Step CE_REARM (R96). The transport drops `rx_full` on `rx_rearm` (20_memory.md R46; log entry 14). -/
def rearmStep (s : State) : State :=
  { s with
    ce := { s.ce with state := .idle }
    ports := { s.ports with rxFull := false }
    outputs := [.rxRearm] }

/-- A step of the engine, by `ce_state`. -/
def engineStep (s : State) : Host.Outcome State Fault Refusal :=
  match s.ce.state with
  | .idle => .next (idleStep s)
  | .dispatch => dispatchStep s
  | .respond => .next (respondStep s)
  | .rearm => .next (rearmStep s)

/-- The next step of the block: the self-test's while it is not done, then the engine's while it is enabled (R92);
after the hand-off to the resident application the block takes no step and its outputs keep their values
(42_selftest.md R89; log entry 17). -/
def sequencerStep (s : State) : Host.Outcome State Fault Refusal :=
  match s.st.state with
  | .reset => .next (startSelfTest s)
  | .scan => .next (scanStep s)
  | .decide => .next (decideStep s)
  | .done => if ceEnabled s then engineStep s else .next s

/-- A step of the block; it is stuck while a flash operation of it never completes (U6). -/
def blockStep (s : State) : Host.Outcome State Fault Refusal :=
  if s.flash.hung then .fault .flashNeverCompletes else sequencerStep s

end Sys2Proof.Machine
end

