-- ==== Sys2Proof/Machine/Reset.lean ====
section
/-! DEFINITION. The reset event (70_reset_and_hazards.md R122), the one thing that ends a power cycle. -/

namespace Sys2Proof.Machine

/-- `draw(1)`. -/
def freeBit (n : Nat) : Bool := (BitVec.ofNat 1 (Config.freeValue n)).getLsbD 0

/-- The state after a reset that leaves the flash arrays as in `f` and the outside driving `ports`: the table of
10_state.md R29. What the table calls unspecified is a free value of its own (log entry 8). -/
def resetWith (f : Flash) (ports : Ports) (s : State) : State :=
  let P := s.params
  let n := f.freeCount
  { params := P
    crc := BitVec.ofNat 16 (Config.freeValue n)
    flash :=
      { faddr := BitVec.ofNat 16 (Config.freeValue (n + 1))
        fdata := freeWord P (n + 2)
        fconCfg := freeBit (n + 3)
        fconErase := false
        fconCommit := false
        latches := List.replicate P.rowWords (wordMask P)
        unlock := .idle
        intInhibit := false
        pm := f.pm
        cm := f.cm
        hung := false
        freeCount := n + 11 + P.reportBytes }
    st :=
      { state := .reset
        scanAddr := BitVec.ofNat 16 (Config.freeValue (n + 4))
        scanLeft := BitVec.ofNat 17 (Config.freeValue (n + 5))
        passed := false
        passedAlt := false
        bootMode := .bootloader
        pullupEn := false
        bootKind := if freeBit (n + 6) then .call else .jump }
    ce :=
      { state := .idle
        cmd := BitVec.ofNat 8 (Config.freeValue (n + 7))
        cfgMode := freeBit (n + 8)
        reqAddr := BitVec.ofNat 16 (Config.freeValue (n + 9))
        txLen := Config.freeValue (n + 10)
        txBuf := (List.range P.reportBytes).map fun i => BitVec.ofNat 8 (Config.freeValue (n + 11 + i)) }
    mcuPc := none
    ports := ports
    outputs := []
    inputs := s.inputs }

/-- The strobing micro-operations of the request in `rx_buf`, when the block's next step is its CE_DISPATCH; none
otherwise. -/
def pendingStrobes (s : State) : List FlashOp :=
  if !s.flash.hung && ceEnabled s && s.ce.state == .dispatch then
    match decode s.params s.ports.rxBuf with
    | .command i => strobesOf s.params i
    | .unrecognised _ => []
    | .notAReport _ => []
  else []

/-- The flash that a reset finds: as it stands, or, for a reset during micro-operation `k` of a command, with the
row that was being written unspecified (R122, U5). -/
def flashAtReset (during : Option Nat) (s : State) : Flash :=
  match during with
  | none => s.flash
  | some k =>
    match caughtAt s.params (pendingStrobes s) k s.flash with
    | some f => f
    | none => s.flash

/-- A reset of some kind (R122): the kinds differ only in the `nTO` that follows. -/
def resetEvent (kind : ResetKind) (during : Option Nat) (after : Ports) (s : State) : State :=
  resetWith (flashAtReset during s) { after with nTO := nTOAfter kind } s

end Sys2Proof.Machine
end

