-- ==== Sys2Proof/Machine/Environment.lean ====
section
/-! DEFINITION. What the outside world does to the block between its steps (20_memory.md R46, 10_state.md R23,
70_reset_and_hazards.md R122). -/

namespace Sys2Proof.Machine

/-- What the transport does is not possible while `int_inhibit` is 1 (20_memory.md R46, last row), and between steps
that is only while a flash operation hangs. -/
def transportStep (s : State) (allowed : Bool) (t : State) : Host.Outcome State Fault Refusal :=
  if allowed && !s.flash.intInhibit then .next t else .refused .transportBreaksDuty

/-- The header part of the request in `rx_buf` is done (43_commands.md R94). -/
def beginPending (s : State) : State :=
  beginDispatch (bufByte s.ports.rxBuf 0) (bufByte s.ports.rxBuf 1) (bufByte s.ports.rxBuf 2) s

/-- The pending command's micro-operation `k` never completes (93_implementation_defined.md U6): the block stays in
CE_DISPATCH with `int_inhibit = 1`. Without such an operation nothing happens. U6 fixes no more than that: that the
header is decoded and echoed already, and that `FADDR`, `FDATA`, `FCON`, `unlock_state` and the latches are as the
operation before `k` left them (`FCON.ERASE` 0, `U_IDLE`), is the model's choice (DESIGN CHOICE, log entry 12;
unsafe). -/
def hangEvent (k : Nat) (s : State) : State :=
  match caughtAt s.params (pendingStrobes s) k s.flash with
  | some f => { beginPending s with flash := { f with hung := true } }
  | none => s

/-- The pending command is executed and its micro-operation `k` fails unseen (93_implementation_defined.md U8).
Without such an operation nothing happens. -/
def failEvent (k : Nat) (s : State) : State :=
  if k < (pendingStrobes s).length then
    endDispatch { beginPending s with flash := failedAt s.params (pendingStrobes s) k s.flash }
  else s

/-- One input; `proceed` lets the block step. A transport that breaks a duty of 20_memory.md R46 is refused (U12).
No input but a reset moves `nTO`: its level tells the kind of the last reset (10_state.md R23,
70_reset_and_hazards.md R122, 60_exceptions.md R114 (a)). -/
def inputStep (i : Input) (s : State) : Host.Outcome State Fault Refusal :=
  match i with
  | .proceed => blockStep s
  | .pin level => .next { s with ports := { s.ports with pinIn := level } }
  | .configure level => .next { s with ports := { s.ports with configured := level } }
  | .receive report =>
    transportStep s (!s.ports.rxFull && report.length == s.params.reportBytes)
      { s with ports := { s.ports with rxBuf := report, rxFull := true } }
  | .changeRxBuf bytes =>
    transportStep s (!s.ports.rxFull && bytes.length == s.params.reportBytes)
      { s with ports := { s.ports with rxBuf := bytes } }
  | .responseGone => transportStep s true { s with ports := { s.ports with txFree := true } }
  | .reset kind during after =>
    if after.rxBuf.length == s.params.reportBytes then .next (resetEvent kind during after s)
    else .refused .transportBreaksDuty
  | .flashHangs k => .next (hangEvent k s)
  | .flashFails k => .next (failEvent k s)

/-- The next thing that happens: the first input, or, when there is none, a step of the block. The events of the
step before are gone (log entries 13 and 20). -/
def worldStep (s : State) : Host.Outcome State Fault Refusal :=
  match s.inputs with
  | [] => blockStep { s with outputs := [] }
  | i :: rest => inputStep i { s with outputs := [], inputs := rest }

/-- `worldStep` under a well-formed parameter record; "the model refuses any other record" (00_scope.md R7). -/
def checkedStep (s : State) : Host.Outcome State Fault Refusal :=
  if s.params.WellFormed then worldStep s else .refused .illFormedParameters

end Sys2Proof.Machine
end

