-- ==== Sys2Proof/Machine/Step.lean ====
section
/-! DEFINITION. One step of the machine, and a request placed where the next step fetches it. -/

namespace Sys2Proof.Machine

/-- One step. -/
def step (s : State) : Host.Outcome State Fault Refusal := checkedStep s

/-- `s` with a request report in `rx_buf` whose first `nbits` bits are those of `w` (byte 0 is bits 7 to 0) and whose
other bits are 0, and everything set that makes the very next step its CE_DISPATCH: the self-test done with
BOOTLOADER selected, the engine in CE_DISPATCH, the transport's levels as they are then, no input pending (log
entry 27). -/
def State.withFetchWord (s : State) (nbits w : Nat) : State :=
  { s with
    flash := { s.flash with hung := false, intInhibit := false }
    st := { s.st with state := .done, bootMode := .bootloader }
    ce := { s.ce with state := .dispatch }
    ports :=
      { s.ports with
        configured := true
        rxFull := true
        txFree := true
        rxBuf := tableWordBytes s.params.reportBytes nbits w }
    inputs := [] }

end Sys2Proof.Machine
end

