-- ==== Sys2Proof/Safety.lean ====
section
/-! DEFINITION. What a sound state is, and the words the statements are written in. -/

namespace Sys2Proof.Machine

/-! ### The invariant of the machine between steps -/

/-- The flash controller and its arrays before and after any micro-operation, inside a critical section or out of it,
whatever `int_inhibit` is and whatever the latches hold. -/
structure Flash.BetweenOps (P : Params) (f : Flash) : Prop where
  /-- 10_state.md R17: `U_IDLE` between micro-operations. -/
  unlockIdle : f.unlock = .idle
  /-- R15: `FCON.ERASE` is 1 only inside `FL_ERASE`. -/
  eraseClear : f.fconErase = false
  /-- R14: the top bits of `FDATA` read as zero. -/
  dataFits   : clip P f.fdata = f.fdata
  /-- R16: one latch per word of a row. -/
  latchCount : f.latches.length = P.rowWords
  /-- R16: `WORD_BITS` bits each. -/
  latchesFit : ∀ w ∈ f.latches, clip P w = w
  /-- Each of the two arrays is in its canonical form. -/
  arrays     : ∀ sp, Memory.wf P (f.array sp) = true

/-- The flash controller and its arrays between steps. While an operation hangs this rests on what the model keeps
then (log entry 12). -/
structure Flash.Sound (P : Params) (f : Flash) : Prop extends f.BetweenOps P where
  /-- R18: `int_inhibit` is 0 outside an erase or program, so between steps it is 1 only while one hangs. -/
  inhibit     : f.intInhibit = f.hung
  /-- R16: every latch holds all ones whenever the engine is idle, and here at the end of every step. -/
  latchesOnes : f.hung = false → f.latches = List.replicate P.rowWords (wordMask P)

/-- The self-test sequencer between steps. -/
structure SelfTest.Sound (P : Params) (t : SelfTest) : Prop where
  /-- 10_state.md R22: before the decision `boot_mode` holds BOOTLOADER. -/
  modeBefore : t.state ≠ .done → t.bootMode = .bootloader
  /-- R22: HYBRID is there only if it is supported. -/
  hybrid     : t.bootMode = .hybrid → P.hybridSupported = true
  /-- R21: `passed_alt` is set only if HYBRID is supported. -/
  alt        : t.passedAlt = true → P.hybridSupported = true
  /-- 42_selftest.md R81, R87: the pull-up is on from the first step to the decision. -/
  pullup     : t.pullupEn = (t.state == .scan || t.state == .decide)
  /-- R82: `scan_left` words from `scan_addr` on reach the end of the region. -/
  scanLeft   : t.state = .scan → 1 ≤ t.scanLeft.toNat ∧ t.scanLeft.toNat ≤ P.scanEnd - P.scanStart
  /-- R82: the address of the next word. -/
  scanAddr   : t.state = .scan → t.scanAddr = BitVec.ofNat 16 (P.scanEnd - t.scanLeft.toNat)

/-- What holds of the machine between any two steps. -/
structure State.Inv (s : State) : Prop where
  /-- 00_scope.md R7. -/
  params   : s.params.WellFormed
  flash    : s.flash.Sound s.params
  selfTest : s.st.Sound s.params
  /-- 10_state.md R25. -/
  txBuf    : s.ce.txBuf.length = s.params.reportBytes
  /-- 10_state.md R25. -/
  rxBuf    : s.ports.rxBuf.length = s.params.reportBytes
  /-- 43_commands.md R92: while the engine is not enabled it stays in CE_IDLE. -/
  enabled  : s.ce.state ≠ .idle → ceEnabled s = true
  /-- 10_state.md R25, 20_memory.md R46: the request stays until `rx_rearm`. -/
  request  : s.ce.state ≠ .idle → s.ports.rxFull = true
  /-- 43_commands.md R93: the response is built while no earlier one is leaving. -/
  response : s.ce.state = .dispatch ∨ s.ce.state = .respond → s.ports.txFree = true
  /-- 30_encoding.md R52: a response echoes the first three bytes of its request. -/
  echo     : s.ce.state = .respond → s.ce.txBuf.take 3 = s.ports.rxBuf.take 3
  /-- 30_encoding.md R53: `tx_len` of a response. -/
  txLen    : s.ce.state = .respond ∨ s.ce.state = .rearm →
      s.ce.txLen = 3 ∨ s.ce.txLen = 3 + 2 * s.params.xferWords
  /-- 93_implementation_defined.md U6: only a command's flash operation can hang. -/
  hang     : s.flash.hung = true → s.ce.state = .dispatch
  /-- 42_selftest.md R89: control has been given to the resident application exactly in its mode. -/
  handoff  : s.mcuPc = if s.st.bootMode = .residentApplication then some s.params.residentVector else none
  /-- 60_exceptions.md R114 (a), 70_reset_and_hazards.md R122: after a watchdog time-out the block stays in
  BOOTLOADER. -/
  timeOut  : s.ports.nTO = false → s.st.bootMode = .bootloader

/-- With a constant below `2^WORD_BITS` the accumulator stays below it from the start of the self-test on
(40_crc.md R66, law 5). -/
def State.CrcFits (s : State) : Prop :=
  s.params.crcPoly.toNat < 2 ^ s.params.wordBits → s.st.state ≠ .reset → s.crc.toNat < 2 ^ s.params.wordBits

/-! ### Words for the statements -/

/-- Everything but the flash controller and the command engine is the same. -/
def SameOutside (s t : State) : Prop :=
  t.params = s.params ∧ t.crc = s.crc ∧ t.st = s.st ∧ t.mcuPc = s.mcuPc ∧ t.ports = s.ports ∧
    t.outputs = s.outputs ∧ t.inputs = s.inputs

/-- The header of a command is decoded and echoed and the engine is about to respond (43_commands.md R94, R95). -/
def HeaderServed (code : Byte) (a : Addr) (t : State) : Prop :=
  t.ce.cmd = code ∧ t.ce.cfgMode = code.getLsbD 2 ∧ t.ce.reqAddr = a ∧ t.ce.state = .respond ∧
    bufByte t.ce.txBuf 0 = code ∧ bufByte t.ce.txBuf 1 = hiByte a ∧ bufByte t.ce.txBuf 2 = loByte a

/-- The two arrays are the same. -/
def SameArrays (s t : State) : Prop := t.flash.pm = s.flash.pm ∧ t.flash.cm = s.flash.cm

/-- The flash after a command is what one critical section of these micro-operations makes of it, and `int_inhibit` is 1
before the first, between any two and after the last of them (41_flash_primitives.md R72). -/
def InhibitedThroughout (s t : State) (ops : List FlashOp) : Prop :=
  t.flash = criticalSection s.params ops s.flash ∧
    ∀ k, (runOps s.params (ops.take k) (csEnter s.flash)).intInhibit = true

/-- The next step is not a reset. -/
def State.noResetNext (s : State) : Prop := ∀ kind during after rest, s.inputs ≠ .reset kind during after :: rest

/-- What a step can do with the flash arrays, from what comes first: the block's own step, or a reset, a hang or a
failure within a command. Every other input, and a reset between two steps, leaves them alone. -/
def State.reachesFlash (s : State) : Bool :=
  match s.inputs with
  | [] => true
  | .proceed :: _ => true
  | .pin _ :: _ => false
  | .configure _ :: _ => false
  | .receive _ :: _ => false
  | .changeRxBuf _ :: _ => false
  | .responseGone :: _ => false
  | .reset _ during _ :: _ => during.isSome
  | .flashHangs _ :: _ => true
  | .flashFails _ :: _ => true

/-- The next step is the block's own: no input comes first. -/
def State.blockNext (s : State) : Prop := s.inputs = [] ∧ s.flash.hung = false

/-- Word `i` of the user-programmable region, from its start. -/
def regionAddr (P : Params) (i : Nat) : Addr := BitVec.ofNat 16 (P.scanStart + i)

/-- The checksum of the first `n` words of the user-programmable region of an array, slots left out
(42_selftest.md R82, R83, R91). -/
def regionChecksum (P : Params) (pm : Memory) (n : Nat) : Word :=
  checksum P ((((List.range n).map (regionAddr P)).filter (fun a => !isSlot P a)).map (memRead P pm))

/-- Some boundary of the region has the checksum `target` (42_selftest.md R84, R85). -/
def boundaryMatch (P : Params) (pm : Memory) (target : Word → Bool) : Bool :=
  (List.range (P.scanEnd - P.scanStart)).any fun i =>
    (P.scanStart + i + 1) % P.checkStride == 0 && target (regionChecksum P pm (i + 1))

/-- Every location that the self-test reads exists (20_memory.md R43). -/
def selfTestImplemented (P : Params) : Prop :=
  (∀ i < P.scanEnd - P.scanStart, implemented P .pm (regionAddr P i) = true) ∧
    implemented P .pm P.csumAddr = true ∧ (P.hybridSupported = true → implemented P .pm P.csumAltAddr = true)

/-- Commands executed one after the other. -/
def execAll : List Instr → State → Host.Outcome State Fault Refusal
  | [], s => .next s
  | i :: is, s =>
    match exec i s with
    | .next t => execAll is t
    | .fault r => .fault r
    | .refused r => .refused r

/-- The Read, Erase and Program commands of a space. -/
def readIn : Space → Addr → Instr
  | .pm, a => .readMem a
  | .cm, a => .readCfg a

/-- See `readIn`. -/
def eraseIn : Space → Addr → Instr
  | .pm, a => .eraseMem a
  | .cm, a => .eraseCfg a

/-- See `readIn`. -/
def programIn : Space → Addr → List Word → Instr
  | .pm, a, ws => .programMem a ws
  | .cm, a, ws => .programCfg a ws

end Sys2Proof.Machine
end

