-- ==== Sys2Proof/Certificates/Slice0/Obligations.lean ====
section
/-! DEFINITION. The statements for the provers, each from a numbered rule of spec/ or derived from named sections. -/

open Sys2Proof Sys2Proof.Machine

/-! ## Encoding -/

/-- Six requests written out from the codes of 30_encoding.md R58, address bytes high then low (R34), payload words
low byte first (R35), decode to what they stand for; 0x83 and 0xFF are none of the six (R59). -/
def Obligations.SampleReportsDecodeAsTheTableSays : Prop :=
  decodeTableWord 24 0x001080 = some (.readMem 0x1000#16) ∧
  decodeTableWord 24 0x151081 = some (.eraseMem 0x1015#16) ∧
  decodeTableWord 56 0x7FFEC000001082 =
    some (.programMem 0x1000#16 (0xC000#16 :: 0x7FFE#16 :: List.replicate 14 0x0000#16)) ∧
  decodeTableWord 24 0x008084 = some (.readCfg 0x8000#16) ∧
  decodeTableWord 24 0x1F8085 = some (.eraseCfg 0x801F#16) ∧
  decodeTableWord 40 0x1E84008086 = some (.programCfg 0x8000#16 (0x1E84#16 :: List.replicate 15 0x0000#16)) ∧
  decodeTableWord 24 0x000083 = none ∧ decodeTableWord 24 0x3412FF = none

/-- Decoding the report of a well-formed command gives it back, for every well-formed parameter record, with every
operand at every value (30_encoding.md R51, R55, R56, R58, R61). Pad bytes are encoded as 0, the model's choice (log
entry 30). -/
def Obligations.DecodeOfEncodeIsTheCommand : Prop :=
  ∀ (P : Params) (i : Instr), P.WellFormed → i.wf P = true → decode P (encode P i) = .command i

/-- Every byte that a decoded command stands for is the report's: nothing of a report is misread
(30_encoding.md R51, R61). -/
def Obligations.DecodedCommandHasTheReportsBytes : Prop :=
  ∀ (P : Params) (report : List Byte) (i : Instr), P.WellFormed → decode P report = .command i →
    i.wf P = true ∧ meaningfulBytes i = report.take (meaningfulBytes i).length

/-- 30_encoding.md R58: a report is a command exactly when all eight bits of its first byte are one of the six codes,
and then it is that command at the address of bytes 1 and 2. That all eight bits count is the spec's own decision D15.
-/
def Obligations.ExactlySixCodesAreRecognised : Prop :=
  ∀ (P : Params) (code hi lo : Byte) (payload : List Byte), P.WellFormed → 3 + payload.length = P.reportBytes →
    ((∃ i, decode P (code :: hi :: lo :: payload) = .command i) ↔
      code ∈ [0x80#8, 0x81#8, 0x82#8, 0x84#8, 0x85#8, 0x86#8]) ∧
    (∀ i, decode P (code :: hi :: lo :: payload) = .command i → opcode i = code ∧ operandAddr i = hi ++ lo) ∧
    (code ∉ [0x80#8, 0x81#8, 0x82#8, 0x84#8, 0x85#8, 0x86#8] →
      decode P (code :: hi :: lo :: payload) = .unrecognised code)

/-! ## The step and the engine -/

/-- When the engine is in CE_DISPATCH and `rx_buf` decodes to a command, the step is that command's `exec`, at the
state without the events of the step before (43_commands.md R95). The second part says the same when the outside
world's schedule says that the block steps (log entry 13). -/
def Obligations.StepRunsTheDecodedCommand : Prop :=
  (∀ (s : State) (i : Instr), s.params.WellFormed → s.blockNext → ceEnabled s = true → s.ce.state = .dispatch →
    decode s.params s.ports.rxBuf = .command i →
    step s = exec i { s with outputs := [] }) ∧
  (∀ (s : State) (i : Instr) (rest : List Input), s.params.WellFormed → s.inputs = .proceed :: rest →
    s.flash.hung = false → ceEnabled s = true → s.ce.state = .dispatch →
    decode s.params s.ports.rxBuf = .command i →
    step s = exec i { s with outputs := [], inputs := rest })

/-- 43_commands.md R94: for every request, whatever its first byte is, CE_DISPATCH decodes and echoes the header:
`cmd`, `cfg_mode` from bit 2, `req_addr` high byte first, three bytes of `tx_buf`; and `tx_len` is 3 but for the two
Read commands (30_encoding.md R53). That it is done for every request is the spec's own decision D28. -/
def Obligations.EveryDispatchDecodesAndEchoesTheHeader : Prop :=
  ∀ s : State, s.Inv → s.blockNext → s.ce.state = .dispatch →
    ∃ t, step s = .next t ∧ t.ce.state = .respond ∧ t.ce.cmd = bufByte s.ports.rxBuf 0 ∧
      t.ce.cfgMode = (bufByte s.ports.rxBuf 0).getLsbD 2 ∧
      t.ce.reqAddr = bufByte s.ports.rxBuf 1 ++ bufByte s.ports.rxBuf 2 ∧
      t.ce.txBuf.take 3 = s.ports.rxBuf.take 3 ∧
      t.ce.txLen = if bufByte s.ports.rxBuf 0 = 0x80#8 ∨ bufByte s.ports.rxBuf 0 = 0x84#8
        then 3 + 2 * s.params.xferWords else 3

/-- 43_commands.md R93: from CE_IDLE an enabled engine goes to CE_DISPATCH when `configured`, `rx_full` and `tx_free`
are all 1, and otherwise nothing in the block changes. -/
def Obligations.EngineLeavesIdleExactlyWhenReady : Prop :=
  ∀ s : State, s.params.WellFormed → s.blockNext → s.st.state = .done → s.ce.state = .idle →
    (ceEnabled s = true ∧ s.ports.configured = true ∧ s.ports.rxFull = true ∧ s.ports.txFree = true →
      step s = .next { s with outputs := [], ce := { s.ce with state := .dispatch } }) ∧
    (¬ (ceEnabled s = true ∧ s.ports.configured = true ∧ s.ports.rxFull = true ∧ s.ports.txFree = true) →
      step s = .next { s with outputs := [] })

/-- 43_commands.md R92: the engine is enabled exactly in ST_DONE with BOOTLOADER or HYBRID; while it is not,
`ce_state` stays CE_IDLE and the engine takes no step: nothing of it changes until a reset. That HYBRID enables it too
is the spec's own decision D24. -/
def Obligations.DisabledEngineStaysIdle : Prop :=
  ∀ s : State,
    (ceEnabled s = true ↔ s.st.state = .done ∧ (s.st.bootMode = .bootloader ∨ s.st.bootMode = .hybrid)) ∧
    ∀ t, s.Inv → s.noResetNext → ceEnabled s = false → step s = .next t → t.ce = s.ce ∧ t.ce.state = .idle

/-- 43_commands.md R96: CE_RESPOND submits `tx_buf` with `tx_len` beside it and goes to CE_REARM; CE_REARM re-arms
reception and goes to CE_IDLE; nothing else of the block changes, and no other step gives either event. That the
re-arm does not wait for the response to leave is the spec's own decision D29. -/
def Obligations.RespondSubmitsThenRearmReleases : Prop :=
  (∀ s : State, s.params.WellFormed → s.blockNext → ceEnabled s = true → s.ce.state = .respond →
    ∃ t, step s = .next t ∧ t.outputs = [.txSubmit s.ce.txBuf s.ce.txLen] ∧ t.ce = { s.ce with state := .rearm } ∧
      t.flash = s.flash ∧ t.st = s.st ∧ t.crc = s.crc ∧ t.mcuPc = s.mcuPc ∧ t.params = s.params) ∧
  (∀ s : State, s.params.WellFormed → s.blockNext → ceEnabled s = true → s.ce.state = .rearm →
    ∃ t, step s = .next t ∧ t.outputs = [.rxRearm] ∧ t.ce = { s.ce with state := .idle } ∧
      t.flash = s.flash ∧ t.st = s.st ∧ t.crc = s.crc ∧ t.mcuPc = s.mcuPc ∧ t.params = s.params) ∧
  (∀ s t : State, step s = .next t →
    (∀ report len, .txSubmit report len ∈ t.outputs → s.ce.state = .respond ∧ t.ce.state = .rearm) ∧
    (.rxRearm ∈ t.outputs → s.ce.state = .rearm ∧ t.ce.state = .idle))

/-- The transport's duties of 20_memory.md R46 as the model gives them (log entry 14, the model's): `tx_free` falls
exactly with `tx_submit` and rises only when the outside says that the response has gone; `rx_full` falls exactly with
`rx_rearm` and rises only with a complete new report; while it is 1 `rx_buf` keeps its bytes but for a reset. -/
def Obligations.TransportLevelsFollowTheEvents : Prop :=
  ∀ s t : State, s.noResetNext → step s = .next t →
    ((∃ report len, .txSubmit report len ∈ t.outputs) → t.ports.txFree = false) ∧
    (s.ports.txFree = true → t.ports.txFree = false → ∃ report len, .txSubmit report len ∈ t.outputs) ∧
    (.rxRearm ∈ t.outputs → t.ports.rxFull = false) ∧
    (s.ports.rxFull = true → t.ports.rxFull = false → .rxRearm ∈ t.outputs) ∧
    (s.ports.txFree = false → t.ports.txFree = true → ∃ rest, s.inputs = .responseGone :: rest) ∧
    (s.ports.rxFull = false → t.ports.rxFull = true →
      ∃ report rest, s.inputs = .receive report :: rest ∧ report.length = s.params.reportBytes ∧
        t.ports.rxBuf = report) ∧
    (s.ports.rxFull = true → t.ports.rxBuf = s.ports.rxBuf)

/-- 43_commands.md R97: for every value of `rx_buf` a request is served in four steps of the block, answered by one
`tx_submit` of `REPORT_BYTES` bytes that echo the request's first three (R94, 30_encoding.md R52), re-armed once
(R96), and the engine is back in CE_IDLE with the flash controller at rest. That a command takes one step, and that
`rx_full` falls with `rx_rearm`, so that a request is not served again, is the model's (log entries 10 and 14). -/
def Obligations.EveryRequestIsServedOnceAndEngineReturnsToIdle : Prop :=
  ∀ s : State, s.Inv → s.blockNext → ceEnabled s = true → s.ce.state = .idle → requestReady s.ports = true →
    ∃ t1 t2 t3 t4 : State,
      step s = .next t1 ∧ step t1 = .next t2 ∧ step t2 = .next t3 ∧ step t3 = .next t4 ∧
      t1.outputs = [] ∧ t2.outputs = [] ∧
      (∃ report len, t3.outputs = [.txSubmit report len] ∧ report.length = s.params.reportBytes ∧
        report.take 3 = s.ports.rxBuf.take 3 ∧ (len = 3 ∨ len = 3 + 2 * s.params.xferWords)) ∧
      t4.outputs = [.rxRearm] ∧ t4.ce.state = .idle ∧ t4.flash.intInhibit = false ∧ t4.flash.unlock = .idle ∧
      t4.flash.fconErase = false ∧
      t4.flash.latches = List.replicate s.params.rowWords (wordMask s.params) ∧
      t4.params = s.params ∧ t4.st = s.st ∧ t4.crc = s.crc

/-- 43_commands.md R104, 30_encoding.md R59: a request whose code is none of the six is decoded and echoed and nothing
else happens: no flash operation, no latch change, `tx_len = 3`; the response is submitted, reception re-armed and the
engine back in CE_IDLE as for any command. -/
def Obligations.UnrecognisedRequestIsOnlyEchoed : Prop :=
  ∀ (s : State) (code hi lo : Byte) (payload : List Byte), s.Inv → s.blockNext → s.ce.state = .dispatch →
    s.ports.rxBuf = code :: hi :: lo :: payload →
    code ∉ [0x80#8, 0x81#8, 0x82#8, 0x84#8, 0x85#8, 0x86#8] →
    ∃ t u v, step s = .next t ∧ step t = .next u ∧ step u = .next v ∧
      t.flash = s.flash ∧ t.st = s.st ∧ t.crc = s.crc ∧ t.ports = s.ports ∧
      t.mcuPc = s.mcuPc ∧ t.params = s.params ∧ t.outputs = [] ∧
      t.ce.state = .respond ∧ t.ce.cmd = code ∧ t.ce.cfgMode = code.getLsbD 2 ∧ t.ce.reqAddr = hi ++ lo ∧
      t.ce.txLen = 3 ∧ t.ce.txBuf = code :: hi :: lo :: s.ce.txBuf.drop 3 ∧
      u.outputs = [.txSubmit t.ce.txBuf 3] ∧ v.outputs = [.rxRearm] ∧ v.ce.state = .idle ∧ v.flash = s.flash

/-- 20_memory.md R45, 43_commands.md R93: the engine starts on a request only when the transmit buffer of the prior
response is free and the receive buffer is full, in a mode that enables it. -/
def Obligations.RequestStartsOnlyWithFreeAndFullBuffers : Prop :=
  ∀ s t : State, step s = .next t → s.ce.state ≠ .dispatch → t.ce.state = .dispatch →
    ceEnabled s = true ∧ s.ce.state = .idle ∧ s.ports.configured = true ∧ s.ports.rxFull = true ∧
      s.ports.txFree = true

/-- 60_exceptions.md R108, 43_commands.md R97: a step of the block never stops; in every sound state in which no
flash operation hangs and no input comes first there is a next state. -/
def Obligations.BlockAlwaysHasANextState : Prop :=
  ∀ s : State, s.Inv → s.blockNext → ∃ t, step s = .next t

/-- 43_commands.md R106: response bytes from `tx_len` on keep their earlier values through every command, and through
every other step but a reset. -/
def Obligations.BytesBeyondTxLenAreStale : Prop :=
  ∀ (s t : State) (i : Nat), s.noResetNext → step s = .next t → t.ce.txLen ≤ i →
    bufByte t.ce.txBuf i = bufByte s.ce.txBuf i

/-- 30_encoding.md R51: for a command that is not a Program, and for an unrecognised code, bytes 3 onward of the
request are never read: two requests that agree on the first three bytes have the same effect. -/
def Obligations.OnlyHeaderOfReadAndEraseIsRead : Prop :=
  ∀ (s t : State) (other : List Byte), s.params.WellFormed → s.blockNext → s.ce.state = .dispatch →
    ceEnabled s = true → s.ports.rxBuf.length = s.params.reportBytes →
    other.length = s.params.reportBytes → other.take 3 = s.ports.rxBuf.take 3 →
    bufByte other 0 ≠ 0x82#8 → bufByte other 0 ≠ 0x86#8 →
    step s = .next t →
    step { s with ports := { s.ports with rxBuf := other } } =
      .next { t with ports := { t.ports with rxBuf := other } }

/-! ## The six commands -/

/-- 43_commands.md R98 and R101: READ_MEM and READ_CFG run to a next state at every address: the header is served,
`tx_len = 3 + 2*XFER_WORDS`, word `k` of the transfer stands low byte first in bytes `3+2k` and `4+2k`, is the flash
word where the location exists and some value of `WORD_BITS` bits where it does not (20_memory.md R43). Frame:
response bytes beyond, both arrays, the latches, the other controller fields and everything outside keep their values.
The zero top bits, the address that wraps and the value read where nothing exists are the spec's own decisions D11,
D12 and D14 (the value is a free one, log entry 9). -/
def Obligations.ReadCommandsReturnTheFlashWords : Prop :=
  ∀ (s : State) (sp : Space) (a : Addr), s.params.WellFormed → s.ce.txBuf.length = s.params.reportBytes →
    ∃ t, exec (readIn sp a) s = .next t ∧ SameOutside s t ∧ HeaderServed (opcode (readIn sp a)) a t ∧
      t.ce.cfgMode = decide (sp = .cm) ∧ t.ce.txLen = 3 + 2 * s.params.xferWords ∧
      t.ce.txBuf.length = s.params.reportBytes ∧
      (∀ k < s.params.xferWords, ∃ w, clip s.params w = w ∧
        bufByte t.ce.txBuf (3 + 2 * k) = loByte w ∧ bufByte t.ce.txBuf (4 + 2 * k) = hiByte w ∧
        (implemented s.params sp (wordAddr a k) = true →
          w = memRead s.params (s.flash.array sp) (wordAddr a k))) ∧
      (∀ i, 3 + 2 * s.params.xferWords ≤ i → bufByte t.ce.txBuf i = bufByte s.ce.txBuf i) ∧
      SameArrays s t ∧ t.flash.latches = s.flash.latches ∧ t.flash.unlock = s.flash.unlock ∧
      t.flash.fconErase = s.flash.fconErase ∧ t.flash.fconCommit = s.flash.fconCommit ∧
      t.flash.intInhibit = s.flash.intInhibit ∧ t.flash.hung = s.flash.hung ∧
      t.flash.fconCfg = decide (sp = .cm) ∧ t.flash.faddr = wordAddr a (s.params.xferWords - 1) ∧
      clip s.params t.flash.fdata = t.flash.fdata ∧
      (implemented s.params sp (wordAddr a (s.params.xferWords - 1)) = true →
        t.flash.fdata = memRead s.params (s.flash.array sp) (wordAddr a (s.params.xferWords - 1)))

/-- 43_commands.md R99 and R102: ERASE_MEM and ERASE_CFG run to a next state at every address: the header is served,
`tx_len = 3`, every existing word of the row containing the address reads `ERASED_WORD`. Frame: every other word of
that array, the whole other array, the response bytes after the header, `FDATA`, the latches and everything outside
keep their values; `int_inhibit` is 1 for the length of the erase and 0 again at its end. That a misaligned address
erases the row that contains it is the spec's own decision D10 (log entry 23), that the rows of configuration memory
have the same size is D35, and that the latches are kept is D9. -/
def Obligations.EraseCommandsEraseTheRowOfTheAddress : Prop :=
  ∀ (s : State) (sp : Space) (a : Addr), s.params.WellFormed → s.flash.Sound s.params →
    s.ce.txBuf.length = s.params.reportBytes →
    ∃ t, exec (eraseIn sp a) s = .next t ∧ SameOutside s t ∧ HeaderServed (opcode (eraseIn sp a)) a t ∧
      t.ce.cfgMode = decide (sp = .cm) ∧ t.ce.txLen = 3 ∧ t.ce.txBuf.length = s.params.reportBytes ∧
      (∀ i, 3 ≤ i → bufByte t.ce.txBuf i = bufByte s.ce.txBuf i) ∧
      (∀ x, rowBase s.params x = rowBase s.params a → implemented s.params sp x = true →
        memRead s.params (t.flash.array sp) x = s.params.erasedWord) ∧
      (∀ sp' x, sp' ≠ sp ∨ rowBase s.params x ≠ rowBase s.params a ∨ implemented s.params sp x = false →
        memRead s.params (t.flash.array sp') x = memRead s.params (s.flash.array sp') x) ∧
      t.flash.fdata = s.flash.fdata ∧ t.flash.latches = s.flash.latches ∧ t.flash.unlock = .idle ∧
      t.flash.fconErase = false ∧ t.flash.fconCommit = s.flash.fconCommit ∧ t.flash.intInhibit = false ∧
      t.flash.hung = s.flash.hung ∧ t.flash.freeCount = s.flash.freeCount ∧
      t.flash.fconCfg = decide (sp = .cm) ∧ t.flash.faddr = a ∧
      InhibitedThroughout s t [.erase (decide (sp = .cm)) a]

/-- 43_commands.md R100 with 20_memory.md R39: PROGRAM_MEM runs to a next state at every address and payload: in the
row of the transfer's LAST word, the existing word at the row place of word `k` is ANDed with payload word `k`. Frame:
every other word of program memory, configuration memory, the response bytes after the header and everything outside
keep their values; the latches are all ones again; `int_inhibit` is 1 for the whole of it and 0 again at its end. The
AND and the latch bank are the spec's own decisions D8 and D9 (log entries 21 and 22). -/
def Obligations.ProgramMemAndsTheLatchesIntoTheLastWordsRow : Prop :=
  ∀ (s : State) (a : Addr) (ws : List Word), s.params.WellFormed → s.flash.Sound s.params → s.flash.hung = false →
    s.ce.txBuf.length = s.params.reportBytes → ws.length = s.params.xferWords →
    ∃ t, exec (.programMem a ws) s = .next t ∧ SameOutside s t ∧ HeaderServed 0x82#8 a t ∧
      t.ce.txLen = 3 ∧ t.ce.txBuf.length = s.params.reportBytes ∧
      (∀ i, 3 ≤ i → bufByte t.ce.txBuf i = bufByte s.ce.txBuf i) ∧
      (∀ k < s.params.xferWords, ∀ x,
        rowBase s.params x = rowBase s.params (wordAddr a (s.params.xferWords - 1)) →
        rowIndex s.params x = rowIndex s.params (wordAddr a k) → implemented s.params .pm x = true →
        memRead s.params t.flash.pm x = memRead s.params s.flash.pm x &&& ws.getD k 0#16) ∧
      (∀ x, rowBase s.params x ≠ rowBase s.params (wordAddr a (s.params.xferWords - 1)) ∨
        (∀ k < s.params.xferWords, rowIndex s.params x ≠ rowIndex s.params (wordAddr a k)) ∨
        implemented s.params .pm x = false →
        memRead s.params t.flash.pm x = memRead s.params s.flash.pm x) ∧
      t.flash.cm = s.flash.cm ∧
      t.flash.latches = List.replicate s.params.rowWords (wordMask s.params) ∧ t.flash.unlock = .idle ∧
      t.flash.fconErase = false ∧ t.flash.fconCommit = true ∧ t.flash.intInhibit = false ∧
      t.flash.hung = false ∧ t.flash.freeCount = s.flash.freeCount ∧ t.flash.fconCfg = false ∧
      t.flash.faddr = wordAddr a (s.params.xferWords - 1) ∧
      t.flash.fdata = clip s.params (ws.getD (s.params.xferWords - 1) 0#16) ∧
      InhibitedThroughout s t (strobesOf s.params (.programMem a ws))

/-- 43_commands.md R100: at an address that is a multiple of `XFER_WORDS`, PROGRAM_MEM ANDs payload word `k` into
location `addr + k` for every `k`, and no other word of program memory changes. The AND and the latch bank are the
spec's own decisions D8 and D9 (log entries 21 and 22). -/
def Obligations.AlignedProgramMemWritesItsTransferUnit : Prop :=
  ∀ (s : State) (a : Addr) (ws : List Word), s.params.WellFormed → s.flash.Sound s.params → s.flash.hung = false →
    ws.length = s.params.xferWords → a.toNat % s.params.xferWords = 0 →
    ∃ t, exec (.programMem a ws) s = .next t ∧
      (∀ k < s.params.xferWords, implemented s.params .pm (wordAddr a k) = true →
        memRead s.params t.flash.pm (wordAddr a k) =
          memRead s.params s.flash.pm (wordAddr a k) &&& ws.getD k 0#16) ∧
      (∀ x, (∀ k < s.params.xferWords, x ≠ wordAddr a k) →
        memRead s.params t.flash.pm x = memRead s.params s.flash.pm x)

/-- 43_commands.md R103: PROGRAM_CFG runs to a next state at every address and payload: word `k` is ANDed into the
existing location `addr + k` of configuration memory, wherever the row boundaries fall, and no other word of it
changes. Frame as for PROGRAM_MEM. The AND and the latch bank are the spec's own decisions D8 and D9 (log entries 21
and 22). -/
def Obligations.ProgramCfgAndsWordByWord : Prop :=
  ∀ (s : State) (a : Addr) (ws : List Word), s.params.WellFormed → s.flash.Sound s.params → s.flash.hung = false →
    s.ce.txBuf.length = s.params.reportBytes → ws.length = s.params.xferWords →
    ∃ t, exec (.programCfg a ws) s = .next t ∧ SameOutside s t ∧ HeaderServed 0x86#8 a t ∧
      t.ce.txLen = 3 ∧ t.ce.txBuf.length = s.params.reportBytes ∧
      (∀ i, 3 ≤ i → bufByte t.ce.txBuf i = bufByte s.ce.txBuf i) ∧
      (∀ k < s.params.xferWords, implemented s.params .cm (wordAddr a k) = true →
        memRead s.params t.flash.cm (wordAddr a k) =
          memRead s.params s.flash.cm (wordAddr a k) &&& ws.getD k 0#16) ∧
      (∀ x, (∀ k < s.params.xferWords, x ≠ wordAddr a k) ∨ implemented s.params .cm x = false →
        memRead s.params t.flash.cm x = memRead s.params s.flash.cm x) ∧
      t.flash.pm = s.flash.pm ∧
      t.flash.latches = List.replicate s.params.rowWords (wordMask s.params) ∧ t.flash.unlock = .idle ∧
      t.flash.fconErase = false ∧ t.flash.fconCommit = true ∧ t.flash.intInhibit = false ∧
      t.flash.hung = false ∧ t.flash.freeCount = s.flash.freeCount ∧ t.flash.fconCfg = true ∧
      t.flash.faddr = wordAddr a (s.params.xferWords - 1) ∧
      t.flash.fdata = clip s.params (ws.getD (s.params.xferWords - 1) 0#16) ∧
      InhibitedThroughout s t (strobesOf s.params (.programCfg a ws))

/-- 70_reset_and_hazards.md R125, 41_flash_primitives.md R76: a Program command only turns 1 bits into 0 bits, in
either space, whatever was there. It rests on the spec's own decision D8 (log entry 21). -/
def Obligations.ProgrammingOnlyClearsBits : Prop :=
  ∀ (s t : State) (sp : Space) (a : Addr) (ws : List Word), s.params.WellFormed → s.flash.Sound s.params →
    s.flash.hung = false → exec (programIn sp a ws) s = .next t →
    ∀ sp' x, memRead s.params (t.flash.array sp') x &&& memRead s.params (s.flash.array sp') x =
      memRead s.params (t.flash.array sp') x

/-- 20_memory.md R40: repeating an erase, or a program of the same words at the same address, leaves the arrays as the
first one left them, as lists. It rests on the spec's own decision D8 (log entry 21). -/
def Obligations.RepeatedEraseOrProgramChangesNothing : Prop :=
  ∀ (s t u : State) (sp : Space) (a : Addr) (ws : List Word), s.params.WellFormed → s.flash.Sound s.params →
    s.flash.hung = false →
    (execAll [eraseIn sp a] s = .next t → execAll [eraseIn sp a, eraseIn sp a] s = .next u → SameArrays t u) ∧
    (execAll [programIn sp a ws] s = .next t → execAll [programIn sp a ws, programIn sp a ws] s = .next u →
      SameArrays t u)

/-- 41_flash_primitives.md R79 law (1): an erase of a row and then a Read of a transfer unit of it returns
`ERASED_WORD` in every position, in both spaces. -/
def Obligations.EraseThenReadReturnsErasedWords : Prop :=
  ∀ (s : State) (sp : Space) (r : Addr) (j : Nat), s.params.WellFormed → s.flash.Sound s.params →
    s.ce.txBuf.length = s.params.reportBytes → rowBase s.params r = r →
    (∀ i < s.params.rowWords, implemented s.params sp (wordAddr r i) = true) →
    (j + 1) * s.params.xferWords ≤ s.params.rowWords →
    ∃ t, execAll [eraseIn sp r, readIn sp (wordAddr r (j * s.params.xferWords))] s = .next t ∧
      ∀ k < s.params.xferWords,
        wordOfBytes (bufByte t.ce.txBuf (3 + 2 * k)) (bufByte t.ce.txBuf (4 + 2 * k)) = s.params.erasedWord

/-- 41_flash_primitives.md R79 law (2): an erase of a row, then a Program of each transfer unit of it in any order,
then a Read of any of its units returns exactly the words programmed, in both spaces. `ERASED_WORD` is all ones, as in
`P_ref` and as law (4) asks. It rests on the spec's own decisions D5, D8 and D9. -/
def Obligations.EraseProgramReadRoundTrip : Prop :=
  ∀ (s : State) (sp : Space) (r : Addr) (W : List Word) (order : List Nat) (j : Nat), s.params.WellFormed →
    s.flash.Sound s.params → s.flash.hung = false → s.ce.txBuf.length = s.params.reportBytes →
    s.params.erasedWord = wordMask s.params → rowBase s.params r = r →
    (∀ i < s.params.rowWords, implemented s.params sp (wordAddr r i) = true) →
    W.length = s.params.rowWords → (∀ w ∈ W, clip s.params w = w) →
    order.Perm (List.range (s.params.rowWords / s.params.xferWords)) → j ∈ order →
    ∃ t, execAll
        (eraseIn sp r ::
          (order.map fun n => programIn sp (wordAddr r (n * s.params.xferWords))
            ((W.drop (n * s.params.xferWords)).take s.params.xferWords)) ++
          [readIn sp (wordAddr r (j * s.params.xferWords))]) s = .next t ∧
      (∀ i < s.params.rowWords, memRead s.params (t.flash.array sp) (wordAddr r i) = W.getD i 0#16) ∧
      ∀ k < s.params.xferWords,
        wordOfBytes (bufByte t.ce.txBuf (3 + 2 * k)) (bufByte t.ce.txBuf (4 + 2 * k)) =
          W.getD (j * s.params.xferWords + k) 0#16

/-! ## The flash controller -/

/-- 41_flash_primitives.md R70: `FL_READ` of an existing location puts its word into `FDATA`, top bits zero, and
changes nothing but `FCON.CFG`, `FADDR` and `FDATA`; of a location that does not exist it puts some value of
`WORD_BITS` bits there (and the model's count of free values moves). The zero top bits and the value read where
nothing exists are the spec's own decisions D11 and D14; the count is the model's (log entry 9). -/
def Obligations.FlReadReturnsOneWordAndKeepsFlash : Prop :=
  ∀ (P : Params) (cfg : Bool) (a : Addr) (f : Flash),
    (implemented P (if cfg then .cm else .pm) a = true →
      flRead P cfg a f =
        { f with fconCfg := cfg, faddr := a, fdata := memRead P (if cfg then f.cm else f.pm) a }) ∧
    ∃ w n, flRead P cfg a f = { f with fconCfg := cfg, faddr := a, fdata := w, freeCount := n } ∧
      w &&& wordMask P = w

/-- 41_flash_primitives.md R71: the two unlock bytes in order, and nothing else, arm the strobe; an armed strobe
performs the operation that `FCON` selects, any other performs nothing; after a strobe the unlock state is idle. That
a wrong byte and a strobe without unlock do nothing is the spec's own decision D17 (log entry 26). -/
def Obligations.OnlyTheUnlockSequenceArmsTheStrobe : Prop :=
  ∀ (P : Params) (f : Flash) (u : UnlockState) (v : Byte),
    (unlockWrite P v u = .got1 ↔ u = .idle ∧ v = P.unlock1) ∧
    (unlockWrite P v u = .armed ↔ u = .got1 ∧ v = P.unlock2) ∧
    (f.unlock = .idle → (unlockSequence P f).unlock = .armed) ∧
    (f.unlock ≠ .armed → writeStrobe P f = { f with unlock := .idle }) ∧
    (f.unlock = .armed → f.fconErase = true → writeStrobe P f = { eraseRow P f with unlock := .idle }) ∧
    (f.unlock = .armed → f.fconErase = false → f.fconCommit = false →
      writeStrobe P f = { loadLatch P f with unlock := .idle }) ∧
    (f.unlock = .armed → f.fconErase = false → f.fconCommit = true →
      writeStrobe P f = { commitLatches P (loadLatch P f) with unlock := .idle })

/-- 41_flash_primitives.md R73: from any state of the controller between two micro-operations, inside the critical
section among them, `FL_ERASE` makes every existing word of the row containing the address `ERASED_WORD`, writes no
other word of either array, and leaves `FDATA` and every latch unchanged. That the row is the one that contains the
address and that latches are kept are the spec's own decisions D10 and D9. -/
def Obligations.FlEraseErasesExactlyOneRow : Prop :=
  ∀ (P : Params) (cfg : Bool) (a : Addr) (f : Flash), P.WellFormed → f.BetweenOps P →
    (∀ sp x, memRead P ((flErase P cfg a f).array sp) x =
      if sp = (if cfg then Space.cm else Space.pm) ∧ x.toNat / P.rowWords = a.toNat / P.rowWords ∧
          implemented P sp x = true
      then P.erasedWord else memRead P (f.array sp) x) ∧
    (flErase P cfg a f).faddr = a ∧ (flErase P cfg a f).fconCfg = cfg ∧ (flErase P cfg a f).fconErase = false ∧
    (flErase P cfg a f).unlock = .idle ∧ (flErase P cfg a f).fdata = f.fdata ∧
    (flErase P cfg a f).latches = f.latches ∧ (flErase P cfg a f).fconCommit = f.fconCommit ∧
    (flErase P cfg a f).intInhibit = f.intInhibit

/-- 41_flash_primitives.md R75: from any state of the controller between two micro-operations, whatever the latches
hold, `FL_LOAD` writes the word's `WORD_BITS` bits into latch `FADDR mod ROW_WORDS` and `FDATA`, and changes no flash
word and no other latch. The latch bank is the spec's own decision D9. -/
def Obligations.FlLoadWritesOneLatch : Prop :=
  ∀ (P : Params) (cfg : Bool) (a : Addr) (w : Word) (f : Flash), P.WellFormed → f.BetweenOps P →
    (flLoad P cfg a w f).pm = f.pm ∧ (flLoad P cfg a w f).cm = f.cm ∧
    (∀ i < P.rowWords, (flLoad P cfg a w f).latches[i]? =
      if i = a.toNat % P.rowWords then some (w &&& wordMask P) else f.latches[i]?) ∧
    (flLoad P cfg a w f).fdata = w &&& wordMask P ∧ (flLoad P cfg a w f).faddr = a ∧
    (flLoad P cfg a w f).fconCfg = cfg ∧ (flLoad P cfg a w f).fconCommit = false ∧
    (flLoad P cfg a w f).fconErase = false ∧ (flLoad P cfg a w f).unlock = .idle ∧
    (flLoad P cfg a w f).intInhibit = f.intInhibit

/-- 41_flash_primitives.md R76: from any state of the controller between two micro-operations, whatever the latches
hold, `FL_WRITE` ANDs every existing word of the row containing the address with its latch, the strobe's own word in
its latch first; every other word of either array keeps its value; then every latch is all ones. The AND and the latch
bank are the spec's own decisions D8 and D9. -/
def Obligations.FlWriteAndsTheLatchesIntoTheRow : Prop :=
  ∀ (P : Params) (cfg : Bool) (a : Addr) (w : Word) (f : Flash), P.WellFormed → f.BetweenOps P →
    (∀ sp x, memRead P ((flWrite P cfg a w f).array sp) x =
      if sp = (if cfg then Space.cm else Space.pm) ∧ x.toNat / P.rowWords = a.toNat / P.rowWords ∧
          implemented P sp x = true
      then memRead P (f.array sp) x &&&
        (if x = a then w else f.latches.getD (x.toNat % P.rowWords) 0#16)
      else memRead P (f.array sp) x) ∧
    (flWrite P cfg a w f).latches = List.replicate P.rowWords (wordMask P) ∧
    (flWrite P cfg a w f).fdata = w &&& wordMask P ∧ (flWrite P cfg a w f).faddr = a ∧
    (flWrite P cfg a w f).fconCfg = cfg ∧ (flWrite P cfg a w f).fconCommit = true ∧
    (flWrite P cfg a w f).fconErase = false ∧ (flWrite P cfg a w f).unlock = .idle ∧
    (flWrite P cfg a w f).intInhibit = f.intInhibit

/-- 41_flash_primitives.md R72: `int_inhibit` is 1 before and after each micro-operation inside a critical section,
whatever the operations, and 0 at its end; every Erase and Program command is one such section as a whole; the Read
commands do not enter one. -/
def Obligations.EveryMicroOperationRunsInTheCriticalSection : Prop :=
  (∀ (P : Params) (ops : List FlashOp) (k : Nat) (f : Flash), f.unlock = .idle → f.fconErase = false →
    (runOps P (ops.take k) (csEnter f)).intInhibit = true ∧ (criticalSection P ops f).intInhibit = false) ∧
  (∀ (s t : State) (sp : Space) (a : Addr), exec (eraseIn sp a) s = .next t →
    t.flash = criticalSection s.params (strobesOf s.params (eraseIn sp a)) s.flash) ∧
  (∀ (s t : State) (sp : Space) (a : Addr) (ws : List Word), exec (programIn sp a ws) s = .next t →
    t.flash = criticalSection s.params (strobesOf s.params (programIn sp a ws)) s.flash) ∧
  (∀ (s t : State) (sp : Space) (a : Addr), exec (readIn sp a) s = .next t →
    t.flash.intInhibit = s.flash.intInhibit)

/-- 41_flash_primitives.md R77, 70_reset_and_hazards.md R137: PROGRAM_MEM is `XFER_WORDS - 1` latch loads and then one
commit; PROGRAM_CFG is `XFER_WORDS` commits and no latch-only load; strobe `k` goes to the command's own space, at
`addr + k`, with payload word `k`. When the commit flag is asserted is the spec's own decision D5. -/
def Obligations.ProgramCommitCounts : Prop :=
  ∀ (P : Params) (a : Addr) (ws : List Word), P.WellFormed →
    strobesOf P (.programMem a ws) =
      ((List.range (P.xferWords - 1)).map fun k => FlashOp.load false (a + BitVec.ofNat 16 k) (ws.getD k 0#16)) ++
        [.write false (a + BitVec.ofNat 16 (P.xferWords - 1)) (ws.getD (P.xferWords - 1) 0#16)] ∧
    strobesOf P (.programCfg a ws) =
      (List.range P.xferWords).map fun k => FlashOp.write true (a + BitVec.ofNat 16 k) (ws.getD k 0#16)

/-! ## The CRC unit -/

/-- 40_crc.md R66 law (1): container bits above `WORD_BITS` are not looked at. -/
def Obligations.CrcIgnoresTopContainerBits : Prop :=
  ∀ (P : Params) (c w : Word), P.wordBits ≤ 16 → crcFold P c w = crcFold P c (w &&& wordMask P)

/-- 40_crc.md R66 law (2): the word may be XORed into the low bits first and then shifted with data bits 0. -/
def Obligations.CrcFoldsWordIntoLowBits : Prop :=
  ∀ (P : Params) (c w : Word), P.wordBits ≤ 16 → crcFold P c w = crcFold P (c ^^^ (w &&& wordMask P)) 0#16

/-- 40_crc.md R66 law (3): the update is linear over XOR. -/
def Obligations.CrcIsLinearOverXor : Prop :=
  ∀ (P : Params) (c1 c2 w1 w2 : Word),
    crcFold P (c1 ^^^ c2) (w1 ^^^ w2) = crcFold P c1 w1 ^^^ crcFold P c2 w2

/-- 40_crc.md R64 and R65: the update takes the word's bits from bit 0 on, one a time, and a bit shifts the accumulator
right and XORs the constant in exactly when its own bit 0 and the word's differ. Hence the last bit of a word alone, from
0, gives the constant (R65 corner case (b)), and when the low bits equal the word there is no feedback at all (R66 law
(4)). The direction is the spec's own decision D2 (log entry 24). -/
def Obligations.CrcFeedsBackItsConstantBitByBit : Prop :=
  ∀ (P : Params) (c w : Word),
    crcFold { P with wordBits := 0 } c w = c ∧
    (∀ n, crcFold { P with wordBits := n + 1 } c w =
      (crcFold { P with wordBits := n } c w >>> 1) ^^^
        (if (crcFold { P with wordBits := n } c w).getLsbD 0 = w.getLsbD n then 0#16 else P.crcPoly)) ∧
    (1 ≤ P.wordBits → P.wordBits ≤ 16 → crcFold P 0#16 (BitVec.ofNat 16 (2 ^ (P.wordBits - 1))) = P.crcPoly) ∧
    (P.wordBits ≤ 16 → c &&& wordMask P = w &&& wordMask P → crcFold P c w = c >>> P.wordBits)

/-- 40_crc.md R66 law (5): below `2^k` the accumulator stays, when the constant is. -/
def Obligations.CrcStaysBelowThePowerOfTwoOfItsConstant : Prop :=
  ∀ (P : Params) (c w : Word) (k : Nat), 1 ≤ k → k ≤ 16 → P.crcPoly.toNat < 2 ^ k → c.toNat < 2 ^ k →
    (crcFold P c w).toNat < 2 ^ k

/-- The consequence of law (5) for the whole self-test: every step keeps it (40_crc.md R66, 42_selftest.md R85). -/
def Obligations.StepKeepsCrcWithinTheWord : Prop :=
  ∀ s t : State, s.CrcFits → step s = .next t → t.CrcFits

/-- 40_crc.md R68: only the self-test touches the accumulator: once it is done nothing but a reset changes `crc`, no
command among them. -/
def Obligations.OnlyTheSelfTestTouchesTheChecksum : Prop :=
  ∀ s t : State, s.noResetNext → s.st.state = .done → step s = .next t → t.crc = s.crc

/-! ## The self-test and the boot decision -/

/-- 42_selftest.md R81: step ST_RESET enables the pull-up, clears the accumulator and both flags, sets the scan to the
whole region and goes to ST_SCAN; the flash controller, the engine, the ports and `boot_mode` keep their values. -/
def Obligations.SelfTestStartsWithClearedChecksum : Prop :=
  ∀ s : State, s.params.WellFormed → s.blockNext → s.st.state = .reset →
    ∃ t, step s = .next t ∧ t.st.pullupEn = true ∧ t.crc = 0#16 ∧ t.st.passed = false ∧ t.st.passedAlt = false ∧
      t.st.scanAddr.toNat = s.params.scanStart ∧ t.st.scanLeft.toNat = s.params.scanEnd - s.params.scanStart ∧
      t.st.state = .scan ∧ t.flash = s.flash ∧ t.ce = s.ce ∧ t.ports = s.ports ∧
      t.st.bootMode = s.st.bootMode ∧ t.mcuPc = s.mcuPc ∧ t.outputs = []

/-- 42_selftest.md R82, R83, R85: step ST_SCAN: one word is read and folded unless its location is a slot, address and
count move, at a boundary the flags are set on a match of all 16 bits and never cleared, and ST_DECIDE follows the
last word. A location that exists reads as its word, one that does not as some value of `WORD_BITS` bits (20_memory.md
R43). The controller is left as its last read leaves it; both arrays, the latches, the engine and the ports keep their
values. The slot left out, the comparison, the fresh read and the read through `FL_READ` are the spec's own decisions
D19, D20, D32 and D36. -/
def Obligations.ScanStepFoldsOneWordAndChecksBoundaries : Prop :=
  ∀ s : State, s.params.WellFormed → s.blockNext → s.st.state = .scan →
    ∃ t w s1 s2, step s = .next t ∧
      (clip s.params w = w ∧ (implemented s.params .pm s.st.scanAddr = true →
        w = memRead s.params s.flash.pm s.st.scanAddr)) ∧
      (clip s.params s1 = s1 ∧ (implemented s.params .pm s.params.csumAddr = true →
        s1 = memRead s.params s.flash.pm s.params.csumAddr)) ∧
      (clip s.params s2 = s2 ∧ (implemented s.params .pm s.params.csumAltAddr = true →
        s2 = memRead s.params s.flash.pm s.params.csumAltAddr)) ∧
      t.crc = (if s.st.scanAddr = s.params.csumAddr ∨
          (s.params.hybridSupported = true ∧ s.st.scanAddr = s.params.csumAltAddr) then s.crc
        else crcFold s.params s.crc w) ∧
      t.st.scanAddr = s.st.scanAddr + 1#16 ∧ t.st.scanLeft = s.st.scanLeft - 1#17 ∧
      (t.st.passed = true ↔ s.st.passed = true ∨
        ((s.st.scanAddr + 1#16).toNat % s.params.checkStride = 0 ∧ t.crc = s1)) ∧
      (t.st.passedAlt = true ↔ s.st.passedAlt = true ∨ (s.params.hybridSupported = true ∧
        (s.st.scanAddr + 1#16).toNat % s.params.checkStride = 0 ∧ t.crc ^^^ s.params.hybridXor = s2)) ∧
      t.st.state = (if s.st.scanLeft - 1#17 = 0#17 then .decide else .scan) ∧
      (t.flash.faddr, t.flash.fdata) = (if (s.st.scanAddr + 1#16).toNat % s.params.checkStride = 0 then
          if s.params.hybridSupported = true then (s.params.csumAltAddr, s2) else (s.params.csumAddr, s1)
        else (s.st.scanAddr, w)) ∧
      SameArrays s t ∧ t.flash.latches = s.flash.latches ∧ t.flash.fconCfg = false ∧
      t.flash.fconErase = s.flash.fconErase ∧ t.flash.fconCommit = s.flash.fconCommit ∧
      t.flash.unlock = s.flash.unlock ∧ t.flash.intInhibit = s.flash.intInhibit ∧ t.ce = s.ce ∧ t.ports = s.ports ∧
      t.mcuPc = s.mcuPc ∧ t.st.bootMode = s.st.bootMode ∧ t.st.pullupEn = s.st.pullupEn ∧ t.params = s.params ∧
      t.outputs = []

/-- 42_selftest.md R86: the scan always runs to the end of the region: from a sound state in ST_SCAN, whatever
`passed`, `crc`, the flash, the pin and `nTO` are, the block is in ST_SCAN before each of the `scan_left` scan steps
and in ST_DECIDE after the last. -/
def Obligations.ScanAlwaysRunsToTheEndOfTheRegion : Prop :=
  ∀ s : State, s.Inv → s.blockNext → s.st.state = .scan →
    (∀ j < s.st.scanLeft.toNat, ∃ t : State, core.run j s = .next t ∧ t.st.state = .scan) ∧
    ∃ t : State, core.run s.st.scanLeft.toNat s = .next t ∧ t.st.state = .decide

/-- 42_selftest.md R82 to R85, R91: from ST_RESET, after one step and one for every word of the region, `crc` is the
checksum of the region with its slots left out, and `passed` (`passed_alt`) says whether at some boundary the checksum
so far (transformed) equals the stored word. It rests on the spec's own decisions D2, D19, D20 and D33. -/
def Obligations.SelfTestComputesTheRegionChecksum : Prop :=
  ∀ s : State, s.Inv → s.blockNext → s.st.state = .reset → selfTestImplemented s.params →
    ∃ t : State, core.run (s.params.scanEnd - s.params.scanStart + 1) s = .next t ∧ t.st.state = .decide ∧
      t.crc = regionChecksum s.params s.flash.pm (s.params.scanEnd - s.params.scanStart) ∧
      t.st.passed = boundaryMatch s.params s.flash.pm
        (fun c => c == memRead s.params s.flash.pm s.params.csumAddr) ∧
      t.st.passedAlt = (s.params.hybridSupported && boundaryMatch s.params s.flash.pm
        (fun c => (c ^^^ s.params.hybridXor) == memRead s.params s.flash.pm s.params.csumAltAddr)) ∧
      SameArrays s t ∧ t.ports = s.ports

/-- 42_selftest.md R87 and R89: step ST_DECIDE: the mode by pin, flags and `nTO`, RESIDENT_APPLICATION before HYBRID;
the pull-up off; the hand-off of the mode. HYBRID and the moment of sampling are the spec's own decisions D21 and D38.
-/
def Obligations.DecisionSelectsTheModeAndHandsOver : Prop :=
  ∀ s : State, s.params.WellFormed → s.blockNext → s.st.state = .decide →
    ∃ t, step s = .next t ∧ t.st.state = .done ∧ t.st.pullupEn = false ∧
      t.st.bootMode = (if s.ports.pinIn = true ∧ s.st.passed = true ∧ s.ports.nTO = true
        then .residentApplication
        else if s.params.hybridSupported = true ∧ s.ports.pinIn = true ∧ s.st.passedAlt = true ∧ s.ports.nTO = true
        then .hybrid else .bootloader) ∧
      (t.st.bootMode = .residentApplication → t.outputs = [.bootGo .jump] ∧ t.st.bootKind = .jump ∧
        t.mcuPc = some s.params.residentVector) ∧
      (t.st.bootMode = .hybrid → t.outputs = [.bootGo .call] ∧ t.st.bootKind = .call ∧ t.mcuPc = s.mcuPc) ∧
      (t.st.bootMode = .bootloader → t.outputs = [] ∧ t.mcuPc = s.mcuPc) ∧
      (ceEnabled t = true ↔ t.st.bootMode = .bootloader ∨ t.st.bootMode = .hybrid) ∧
      t.crc = s.crc ∧ t.flash = s.flash ∧ t.ce = s.ce ∧ t.ports = s.ports ∧ t.st.passed = s.st.passed ∧
      t.st.passedAlt = s.st.passedAlt

/-- 42_selftest.md R88: the decision depends on nothing but the flags, the pin and `nTO` (and whether HYBRID is
supported): two states that agree on these decide alike, whatever else differs. -/
def Obligations.DecisionDependsOnlyOnFlagsPinAndTimeOut : Prop :=
  ∀ s s' t t' : State, s.blockNext → s'.blockNext → s.st.state = .decide → s'.st.state = .decide →
    s.params.hybridSupported = s'.params.hybridSupported → s.st.passed = s'.st.passed →
    s.st.passedAlt = s'.st.passedAlt → s.ports.pinIn = s'.ports.pinIn → s.ports.nTO = s'.ports.nTO →
    step s = .next t → step s' = .next t' → t.st.bootMode = t'.st.bootMode

/-- The self-test whole, from reset to decision (42_selftest.md R81 to R91): with the pin high and no time-out the block
selects RESIDENT_APPLICATION when the flash region matches its stored checksum at some boundary; HYBRID when it does not,
HYBRID is supported, and the transformed checksum matches the second stored word at some boundary; BOOTLOADER when
neither comparison ever matches; and with the pin low or a time-out always BOOTLOADER. Control is given away exactly in
RESIDENT_APPLICATION. It rests on the spec's own decisions D2, D19 to D22, D33 and D38. -/
def Obligations.BootDecisionFollowsFromFlashPinAndTimeOut : Prop :=
  ∀ s : State, s.Inv → s.blockNext → s.st.state = .reset → selfTestImplemented s.params →
    let go := s.ports.pinIn = true ∧ s.ports.nTO = true
    let matched := boundaryMatch s.params s.flash.pm
      (fun c => c == memRead s.params s.flash.pm s.params.csumAddr) = true
    let matchedAlt := s.params.hybridSupported = true ∧ boundaryMatch s.params s.flash.pm
      (fun c => (c ^^^ s.params.hybridXor) == memRead s.params s.flash.pm s.params.csumAltAddr) = true
    ∃ t : State, core.run (s.params.scanEnd - s.params.scanStart + 2) s = .next t ∧ t.st.state = .done ∧
      (t.st.bootMode = .residentApplication ↔ go ∧ matched) ∧
      (t.st.bootMode = .hybrid ↔ go ∧ ¬ matched ∧ matchedAlt) ∧
      (t.st.bootMode = .bootloader ↔ ¬ go ∨ (¬ matched ∧ ¬ matchedAlt)) ∧
      (t.mcuPc = some s.params.residentVector ↔ t.st.bootMode = .residentApplication)

/-- 10_state.md R21, 42_selftest.md R85: once set, the PASSED flags are cleared only by a reset and the self-test that
starts after it. -/
def Obligations.PassedFlagsAreSticky : Prop :=
  ∀ s t : State, s.noResetNext → s.st.state ≠ .reset → step s = .next t →
    (s.st.passed = true → t.st.passed = true) ∧ (s.st.passedAlt = true → t.st.passedAlt = true)

/-- 42_selftest.md R90: but for the step that takes the self-test from ST_DECIDE to ST_DONE nothing but a reset changes
`boot_mode`: no command, no input and no flash contents; and out of ST_DONE there is no way but a reset, so that step
comes once in a power cycle. -/
def Obligations.BootModeChangesOnlyAtTheDecision : Prop :=
  ∀ s t : State, s.noResetNext → step s = .next t →
    (¬ (s.st.state = .decide ∧ t.st.state = .done) → t.st.bootMode = s.st.bootMode) ∧
    (s.st.state = .done → t.st.state = .done)

/-- 10_state.md R11: `st_state` never goes back within a power cycle and moves by at most one place. -/
def Obligations.SelfTestStateNeverGoesBack : Prop :=
  ∀ s t : State, s.noResetNext → step s = .next t →
    t.st.state = s.st.state ∨ (s.st.state = .reset ∧ t.st.state = .scan) ∨
      (s.st.state = .scan ∧ t.st.state = .decide) ∨ (s.st.state = .decide ∧ t.st.state = .done)

/-- 42_selftest.md R89: after the hand-off to the resident application the block takes no further step: until a reset
every element of it and every output keeps its value. It is the spec's own decision D34 (log entry 17). -/
def Obligations.BlockRestsAfterHandingOver : Prop :=
  ∀ s t : State, s.Inv → s.noResetNext → s.st.state = .done → s.st.bootMode = .residentApplication →
    step s = .next t →
    t.crc = s.crc ∧ t.flash = s.flash ∧ t.st = s.st ∧ t.ce = s.ce ∧ t.mcuPc = s.mcuPc ∧ t.outputs = []

/-! ## Reset -/

/-- 10_state.md R29: after any reset, of whatever kind and at whatever moment, every element to which the table gives
a value has it; what the table calls unspecified is not constrained. `PM` and `CM` are unchanged by a reset between
two steps. Beside the table: the parameters stand (00_scope.md R6) and `nTO` is 0 exactly after a watchdog time-out
(70_reset_and_hazards.md R122, 60_exceptions.md R114), and nothing but the next reset moves it (10_state.md R23). Most
rows of the table are the spec's own decisions D31 and D9, and the reset kinds are D23. -/
def Obligations.ResetGivesTheTableAndKeepsFlash : Prop :=
  (∀ (s : State) (kind : ResetKind) (during : Option Nat) (after : Ports) (rest : List Input), s.params.WellFormed →
    s.inputs = .reset kind during after :: rest → after.rxBuf.length = s.params.reportBytes →
    ∃ t, step s = .next t ∧ t.st.state = .reset ∧ t.st.passed = false ∧ t.st.passedAlt = false ∧
      t.st.bootMode = .bootloader ∧ t.st.pullupEn = false ∧ t.outputs = [] ∧
      t.flash.fconErase = false ∧ t.flash.fconCommit = false ∧
      t.flash.latches = List.replicate s.params.rowWords (BitVec.ofNat 16 (2 ^ s.params.wordBits - 1)) ∧
      t.flash.unlock = .idle ∧ t.flash.intInhibit = false ∧ t.ce.state = .idle ∧
      (during = none → t.flash.pm = s.flash.pm ∧ t.flash.cm = s.flash.cm) ∧
      t.params = s.params ∧ (t.ports.nTO = false ↔ kind = .watchdog)) ∧
  ∀ s t : State, s.noResetNext → step s = .next t → t.ports.nTO = s.ports.nTO

/-- 10_state.md R31, 93_implementation_defined.md U5: a reset, at whatever micro-operation of a command it falls, ends
in ST_RESET, and changes no flash word outside the rows of the pending command's own erase and commits. Where in a
command a reset can fall is the model's (log entry 11). -/
def Obligations.ResetDuringACommandTouchesOnlyItsRows : Prop :=
  ∀ (s : State) (kind : ResetKind) (during : Option Nat) (after : Ports) (rest : List Input), s.Inv →
    s.inputs = .reset kind during after :: rest → after.rxBuf.length = s.params.reportBytes →
    ∃ t, step s = .next t ∧ t.st.state = .reset ∧ t.ce.state = .idle ∧ t.flash.intInhibit = false ∧
      ∀ sp x, (∀ op ∈ pendingStrobes s, op.writesRow = true → op.space = sp →
          rowBase s.params x ≠ rowBase s.params op.addr) →
        memRead s.params (t.flash.array sp) x = memRead s.params (s.flash.array sp) x

/-! ## Invariants and whole-machine rules -/

/-- The invariant of the machine holds right after reset. It rests on values that the model chose (log entries 2, 6, 7
and 28). -/
def Obligations.ResetMeetsTheInvariant : Prop := State.reset.Inv

/-- Every step keeps the invariant of the machine: the parameters well formed, the flash arrays canonical, the flash
controller at rest, the latches all ones, the buffers whole, the self-test's registers consistent, the engine idle
while it is not enabled, a response echoing its request, control given away exactly in RESIDENT_APPLICATION mode, and
BOOTLOADER mode after a watchdog time-out (60_exceptions.md R114 (a)). The
transport's part in it is the model's (log entries 14, 15 and 34), and so is what the controller holds while an
operation hangs (log entry 12). -/
def Obligations.StepKeepsTheInvariant : Prop := ∀ s t : State, s.Inv → step s = .next t → t.Inv

/-- 10_state.md R19: `PM` and `CM` are written only by the erase and commits of a command in CE_DISPATCH. Every step that
is neither the block's own CE_DISPATCH of an Erase or Program command nor a reset, a hang or a failure within one keeps
both arrays: the other steps of the block, whatever they are, and every input from outside, also while such a command is
pending. What a reset, a hang or a failure within a command leaves is the model's (log entries 11 and 12). -/
def Obligations.FlashIsWrittenOnlyByCommands : Prop :=
  ∀ s t : State, ¬ (pendingStrobes s ≠ [] ∧ s.reachesFlash = true) → step s = .next t → SameArrays s t

/-- 20_memory.md R32: which array a step can change is decided by bit 2 of the command byte alone: a step at which
the pending request has that bit 0 keeps configuration memory, one at which it is 1 keeps program memory. -/
def Obligations.CommandsReachOnlyTheirOwnSpace : Prop :=
  ∀ s t : State, s.Inv → step s = .next t →
    ((bufByte s.ports.rxBuf 0).getLsbD 2 = false → t.flash.cm = s.flash.cm) ∧
    ((bufByte s.ports.rxBuf 0).getLsbD 2 = true → t.flash.pm = s.flash.pm)

/-- 00_scope.md R6: no step changes the parameter record. -/
def Obligations.ParametersNeverChange : Prop :=
  ∀ s t : State, step s = .next t → t.params = s.params

/-- 00_scope.md R7: "the model refuses any other record". How it refuses is the model's (log entry 3). -/
def Obligations.IllFormedParametersAreRefused : Prop :=
  ∀ s : State, ¬ s.params.WellFormed → step s = .refused .illFormedParameters

/-- 93_implementation_defined.md U6: a flash operation that never completes leaves the block stuck with `int_inhibit`
at 1, and a reset gets it out. How a hang begins is the model's (log entry 12). -/
def Obligations.HungFlashIsLeftOnlyByReset : Prop :=
  ∀ s : State, s.Inv → s.flash.hung = true →
    s.flash.intInhibit = true ∧
    (s.inputs = [] → step s = .fault .flashNeverCompletes) ∧
    (∀ t, s.noResetNext → step s = .next t → t.flash = s.flash ∧ t.ce = s.ce) ∧
    (∀ kind during after rest, s.inputs = .reset kind during after :: rest →
      after.rxBuf.length = s.params.reportBytes → ∃ t, step s = .next t ∧ t.flash.hung = false)

/-- 20_memory.md R46, 93_implementation_defined.md U12: a transport that shows a new request before `rx_rearm`, or
changes `rx_buf` within its window, is refused. That the model refuses such an input is the model's (log entry 15). -/
def Obligations.TransportMayNotTouchARequestBeingServed : Prop :=
  ∀ (s : State) (bytes : List Byte) (rest : List Input), s.params.WellFormed → s.ports.rxFull = true →
    s.inputs = .receive bytes :: rest ∨ s.inputs = .changeRxBuf bytes :: rest →
    step s = .refused .transportBreaksDuty
end

