-- ==== Sys2Proof/Laws/Bits.lean ====
section
/-! SUPPORT. The bit-field helpers: words and bytes, the `WORD_BITS` mask, rows. -/

namespace Sys2Proof.Laws
open Sys2Proof.Machine

/-! ### Bytes of a word -/

@[simp] theorem wordOfBytes_lo_hi (w : Word) : wordOfBytes (loByte w) (hiByte w) = w := by
  simp only [wordOfBytes, loByte, hiByte]; ext i hi
  simp only [BitVec.getElem_append, BitVec.getElem_setWidth]
  split
  · simp_all [BitVec.getLsbD_eq_getElem]
  · simp only [BitVec.getLsbD_ushiftRight]
    rw [show 8 + (i - 8) = i by omega, BitVec.getLsbD_eq_getElem hi]

@[simp] theorem addrOfBytes_hi_lo (a : Addr) : addrOfBytes (hiByte a) (loByte a) = a := wordOfBytes_lo_hi a

theorem wordOfBytes_getLsbD (lo hi : Byte) (i : Nat) :
    (wordOfBytes lo hi).getLsbD i = if i < 8 then lo.getLsbD i else hi.getLsbD (i - 8) :=
  BitVec.getLsbD_append

theorem loByte_wordOfBytes (lo hi : Byte) : loByte (wordOfBytes lo hi) = lo := by
  apply BitVec.eq_of_getLsbD_eq; intro i h
  simp [loByte, wordOfBytes_getLsbD, h]

theorem hiByte_wordOfBytes (lo hi : Byte) : hiByte (wordOfBytes lo hi) = hi := by
  apply BitVec.eq_of_getLsbD_eq; intro i h
  simp [hiByte, wordOfBytes_getLsbD, h]

theorem loByte_and (v w : Word) : loByte (v &&& w) = loByte v &&& loByte w := by
  simp [loByte, BitVec.setWidth_and]

theorem hiByte_and (v w : Word) : hiByte (v &&& w) = hiByte v &&& hiByte w := by
  simp only [hiByte]; ext i h; simp [BitVec.getElem_setWidth]

/-! ### The mask -/

@[simp] theorem clip_clip (P : Params) (w : Word) : clip P (clip P w) = clip P w := by
  simp [clip, BitVec.and_assoc]

@[simp] theorem clip_wordMask (P : Params) : clip P (wordMask P) = wordMask P := by simp [clip]

theorem clip_and_left (P : Params) (v w : Word) : clip P (clip P v &&& w) = clip P (v &&& w) := by
  simp only [clip]; ext i h; simp; grind

theorem wordMask_getLsbD {P : Params} (h : P.wordBits ≤ 16) (i : Nat) :
    (wordMask P).getLsbD i = decide (i < P.wordBits) := by
  simp only [wordMask, BitVec.getLsbD_ofNat, Nat.testBit_two_pow_sub_one]
  by_cases hi : i < P.wordBits
  · simp [hi]; omega
  · simp [hi]

/-- `w AND (2^WORD_BITS - 1)` keeps a value that fits in `WORD_BITS` bits. -/
theorem clip_of_lt {P : Params} {w : Word} (hb : P.wordBits ≤ 16) (h : w.toNat < 2 ^ P.wordBits) :
    clip P w = w := by
  apply BitVec.eq_of_getLsbD_eq; intro i _
  simp only [clip, BitVec.getLsbD_and, wordMask_getLsbD hb]
  by_cases hi : i < P.wordBits
  · simp [hi]
  · have : w.getLsbD i = false := by
      simp only [BitVec.getLsbD]
      exact Nat.testBit_lt_two_pow (lt_of_lt_of_le h (Nat.pow_le_pow_right (by norm_num) (by omega)))
    simp [this]

theorem clip_toNat_lt {P : Params} (w : Word) (hb : P.wordBits ≤ 16) : (clip P w).toNat < 2 ^ P.wordBits := by
  have h1 : (clip P w).toNat ≤ (wordMask P).toNat := by
    simp only [clip, BitVec.toNat_and]; exact Nat.and_le_right
  have h2 : (wordMask P).toNat = 2 ^ P.wordBits - 1 := by
    have : 2 ^ P.wordBits ≤ 2 ^ 16 := Nat.pow_le_pow_right (by norm_num) hb
    simp only [wordMask, BitVec.toNat_ofNat]; apply Nat.mod_eq_of_lt; omega
  have := Nat.two_pow_pos P.wordBits; omega

/-! ### Parameters -/

theorem mem_powersOfTwo {lo hi n : Nat} : n ∈ powersOfTwo lo hi ↔ ∃ k, lo ≤ k ∧ k ≤ hi ∧ n = 2 ^ k := by
  simp only [powersOfTwo, List.mem_map, List.mem_range'_1]
  constructor
  · rintro ⟨k, ⟨h1, h2⟩, rfl⟩; exact ⟨k, h1, by omega, rfl⟩
  · rintro ⟨k, h1, h2, rfl⟩; exact ⟨k, ⟨h1, by omega⟩, rfl⟩

theorem wellFormed_row {P : Params} (h : P.WellFormed) : ∃ k, 1 ≤ k ∧ k ≤ 16 ∧ P.rowWords = 2 ^ k :=
  mem_powersOfTwo.1 h.2.1

theorem wellFormed_row_pos {P : Params} (h : P.WellFormed) : 0 < P.rowWords := by
  obtain ⟨k, _, _, hk⟩ := wellFormed_row h; rw [hk]; positivity

theorem wellFormed_row_le {P : Params} (h : P.WellFormed) : P.rowWords ≤ 2 ^ 16 := by
  obtain ⟨k, _, h2, hk⟩ := wellFormed_row h; rw [hk]; exact Nat.pow_le_pow_right (by norm_num) h2

theorem wellFormed_row_dvd {P : Params} (h : P.WellFormed) : P.rowWords ∣ 2 ^ 16 := by
  obtain ⟨k, _, h2, hk⟩ := wellFormed_row h; rw [hk]; exact Nat.pow_dvd_pow 2 h2

theorem wellFormed_xfer {P : Params} (h : P.WellFormed) : 1 ≤ P.xferWords ∧ P.xferWords ≤ P.rowWords := by
  obtain ⟨k, h1, h2, hk⟩ := wellFormed_row h
  have : 2 ^ 1 ≤ 2 ^ k := Nat.pow_le_pow_right (by norm_num) h1
  have := h.2.2.1; omega

@[simp] theorem clip_erasedWord {P : Params} (h : P.WellFormed) : clip P P.erasedWord = P.erasedWord :=
  clip_of_lt h.1.2 h.2.2.2.2.2.2

/-! ### Rows -/

/-- The row base is the address rounded down to a multiple of `ROW_WORDS`. -/
theorem rowBase_toNat {P : Params} (h : P.WellFormed) (a : Addr) :
    (rowBase P a).toNat = a.toNat / P.rowWords * P.rowWords := by
  obtain ⟨k, _, h2, hk⟩ := wellFormed_row h
  have hle : 2 ^ k ≤ 2 ^ 16 := Nat.pow_le_pow_right (by norm_num) h2
  have hlt : a.toNat / 2 ^ k * 2 ^ k < 2 ^ 16 := lt_of_le_of_lt (Nat.div_mul_le_self _ _) a.isLt
  have : rowBase P a = BitVec.ofNat 16 (a.toNat / 2 ^ k * 2 ^ k) := by
    apply BitVec.eq_of_getLsbD_eq; intro i hi
    simp only [rowBase, hk, BitVec.getLsbD_and, BitVec.getLsbD_not, BitVec.getLsbD_ofNat,
      Nat.testBit_two_pow_sub_one, hi, decide_true, Bool.true_and, Nat.testBit_mul_two_pow, Nat.testBit_div_two_pow]
    by_cases hik : i < k
    · simp [hik]
    · simp [hik, show k ≤ i by omega, BitVec.getLsbD, show i - k + k = i by omega]
  rw [this, BitVec.toNat_ofNat, hk, Nat.mod_eq_of_lt hlt]

theorem rowBase_add_rowIndex {P : Params} (h : P.WellFormed) (a : Addr) :
    rowBase P a + BitVec.ofNat 16 (rowIndex P a) = a := by
  apply BitVec.eq_of_toNat_eq
  have h1 := Nat.div_add_mod' a.toNat P.rowWords
  have h2 := a.isLt
  rw [BitVec.toNat_add, rowBase_toNat h, BitVec.toNat_ofNat, rowIndex]
  have : a.toNat % P.rowWords < 2 ^ 16 := lt_of_le_of_lt (Nat.mod_le _ _) h2
  rw [Nat.mod_eq_of_lt this, h1, Nat.mod_eq_of_lt h2]

/-- `base + i` never wraps (41_flash_primitives.md R73 corner case (b)). -/
theorem rowBase_add_toNat {P : Params} (h : P.WellFormed) (a : Addr) {i : Nat} (hi : i < P.rowWords) :
    (rowBase P a + BitVec.ofNat 16 i).toNat = a.toNat / P.rowWords * P.rowWords + i := by
  obtain ⟨c, hc⟩ := wellFormed_row_dvd h
  have hle := wellFormed_row_le h
  have hpos := wellFormed_row_pos h
  have h2 := a.isLt
  have hq : a.toNat / P.rowWords < c := by
    rw [Nat.div_lt_iff_lt_mul hpos]; rw [mul_comm]; omega
  have : (a.toNat / P.rowWords + 1) * P.rowWords ≤ c * P.rowWords := Nat.mul_le_mul_right _ hq
  have hsum : a.toNat / P.rowWords * P.rowWords + i < 2 ^ 16 := by
    rw [hc]; rw [add_mul] at this; rw [mul_comm P.rowWords c]; omega
  rw [BitVec.toNat_add, rowBase_toNat h, BitVec.toNat_ofNat, Nat.mod_eq_of_lt (by omega : i < 2 ^ 16),
    Nat.mod_eq_of_lt hsum]

theorem rowBase_rowBase_add {P : Params} (h : P.WellFormed) (a : Addr) {i : Nat} (hi : i < P.rowWords) :
    rowBase P (rowBase P a + BitVec.ofNat 16 i) = rowBase P a ∧
      rowIndex P (rowBase P a + BitVec.ofNat 16 i) = i := by
  have hpos := wellFormed_row_pos h
  have e := rowBase_add_toNat h a hi
  constructor
  · apply BitVec.eq_of_toNat_eq
    rw [rowBase_toNat h, rowBase_toNat h, e]
    congr 1
    rw [add_comm, Nat.add_mul_div_right _ _ hpos, Nat.div_eq_of_lt hi, zero_add]
  · rw [rowIndex, e, add_comm, Nat.add_mul_mod_self_right, Nat.mod_eq_of_lt hi]

end Sys2Proof.Laws
end

