-- ==== Sys2Proof/Laws/Memory.lean ====
section
/-! SUPPORT. The flash arrays: canonical form, read after write, what a loop over a row does. -/

namespace Sys2Proof.Laws
open Sys2Proof.Machine

/-! ### The canonical form -/

theorem rising_cons {c : Host.Cell} {m : Memory} :
    Memory.rising (c :: m) = true ↔ (∀ d ∈ m, c.1 < d.1) ∧ Memory.rising m = true := by
  induction m generalizing c with
  | nil => simp [Memory.rising]
  | cons d rest ih =>
    simp only [Memory.rising, Bool.and_eq_true, decide_eq_true_eq, List.mem_cons, forall_eq_or_imp]
    constructor
    · rintro ⟨h1, h2⟩
      exact ⟨⟨h1, fun e he => lt_trans h1 ((ih.1 h2).1 e he)⟩, h2⟩
    · rintro ⟨⟨h1, _⟩, h2⟩; exact ⟨h1, h2⟩

theorem wf_nil (P : Params) : Memory.wf P [] = true := rfl

theorem wf_cons {P : Params} {c : Host.Cell} {m : Memory} :
    Memory.wf P (c :: m) = true ↔
      (∀ d ∈ m, c.1 < d.1) ∧ Memory.entryOk P c = true ∧ Memory.wf P m = true := by
  simp only [Memory.wf, Bool.and_eq_true, rising_cons, List.all_cons]; tauto

theorem readByte_of_lt {P : Params} {m : Memory} {n : Nat} (h : ∀ d ∈ m, n < d.1) :
    readByte P m n = blankByte P n := by
  induction m with
  | nil => rfl
  | cons c rest ih =>
    obtain ⟨b, v⟩ := c
    have hb : n < b := h (b, v) (by simp)
    simp only [readByte, if_neg (by omega : ¬ b = n)]
    exact ih fun d hd => h d (by simp [hd])

theorem writeByte_mem {P : Params} {m : Memory} {n : Nat} {v : Byte} {c : Host.Cell}
    (h : c ∈ writeByte P m n v) : c = (n, v) ∨ c ∈ m := by
  induction m with
  | nil => simp only [writeByte] at h; split at h <;> simp_all
  | cons d rest ih =>
    obtain ⟨b, u⟩ := d
    simp only [writeByte] at h
    split at h
    · split at h <;> simp_all
    · split at h
      · split at h
        · exact .inr (by simp [h])
        · simp_all; tauto
      · rcases List.mem_cons.1 h with h | h
        · exact .inr (by simp [h])
        · rcases ih h with h | h
          · exact .inl h
          · exact .inr (by simp [h])

/-- Every byte of an array after one byte is written: that byte has the new value, every other its old one. -/
theorem readByte_writeByte {P : Params} {m : Memory} (hm : Memory.rising m = true) (n : Nat) (v : Byte) (k : Nat) :
    readByte P (writeByte P m n v) k = if k = n then v else readByte P m k := by
  induction m with
  | nil =>
    simp only [writeByte]
    split
    · rename_i hv; by_cases hk : k = n <;> simp [readByte, hk, hv]
    · by_cases hk : k = n
      · simp [readByte, hk]
      · simp [readByte, hk, show ¬ n = k by omega]
  | cons d rest ih =>
    obtain ⟨b, u⟩ := d
    obtain ⟨hlt, hr⟩ := rising_cons.1 hm
    simp only [writeByte]
    split
    · rename_i hnb
      have hb : readByte P ((b, u) :: rest) n = blankByte P n :=
        readByte_of_lt fun d hd => by
          rcases List.mem_cons.1 hd with rfl | hd
          · exact hnb
          · exact lt_trans hnb (hlt d hd)
      split
      · rename_i hv; by_cases hk : k = n
        · subst hk; simp [hb, hv]
        · simp [hk]
      · by_cases hk : k = n
        · subst hk; simp [readByte]
        · rw [if_neg hk, readByte, if_neg (by omega)]
    · split
      · rename_i hnb
        subst hnb
        have hb : readByte P rest n = blankByte P n := readByte_of_lt hlt
        split
        · rename_i hv
          by_cases hk : k = n
          · subst hk; simp [hb, hv]
          · simp [hk, readByte, if_neg (show ¬ n = k by omega)]
        · by_cases hk : k = n
          · subst hk; simp [readByte]
          · simp [hk, readByte, if_neg (show ¬ n = k by omega)]
      · simp only [readByte]
        by_cases hbk : b = k
        · subst hbk; simp [show ¬ b = n by omega]
        · simp only [if_neg hbk]; exact ih hr

theorem writeByte_wf {P : Params} {m : Memory} (hm : Memory.wf P m = true) {n : Nat} {v : Byte}
    (hn : n < 2 * 2 ^ 16) (hv : v &&& maskByte P n = v) : Memory.wf P (writeByte P m n v) = true := by
  have hok : v ≠ blankByte P n → Memory.entryOk P (n, v) = true := by
    intro hne; simp only [Memory.entryOk, hv, beq_self_eq_true, Bool.and_true]; simp [hne]; omega
  induction m with
  | nil =>
    simp only [writeByte]; split
    · rfl
    · rename_i h; exact wf_cons.2 ⟨by simp, hok h, rfl⟩
  | cons d rest ih =>
    obtain ⟨b, u⟩ := d
    obtain ⟨hlt, he, hr⟩ := wf_cons.1 hm
    simp only [writeByte]
    split
    · rename_i hnb
      split
      · exact hm
      · rename_i h
        refine wf_cons.2 ⟨fun d hd => ?_, hok h, hm⟩
        rcases List.mem_cons.1 hd with rfl | hd
        · exact hnb
        · exact lt_trans hnb (hlt d hd)
    · split
      · rename_i hnb
        subst hnb
        split
        · exact hr
        · rename_i h; exact wf_cons.2 ⟨hlt, hok h, hr⟩
      · rename_i h1 h2
        refine wf_cons.2 ⟨fun d hd => ?_, he, ih hr⟩
        rcases writeByte_mem hd with rfl | hd
        · show b < n; omega
        · exact hlt d hd

/-! ### Words -/

theorem wf_rising {P : Params} {m : Memory} (h : Memory.wf P m = true) : Memory.rising m = true := by
  simp only [Memory.wf, Bool.and_eq_true] at h; exact h.1

@[simp] theorem clip_memRead (P : Params) (m : Memory) (a : Addr) : clip P (memRead P m a) = memRead P m a := by
  simp [memRead]

theorem maskByte_lo (P : Params) (a : Addr) (w : Word) :
    loByte (clip P w) &&& maskByte P (2 * a.toNat) = loByte (clip P w) := by
  simp [maskByte, clip, loByte_and, BitVec.and_assoc]

theorem maskByte_hi (P : Params) (a : Addr) (w : Word) :
    hiByte (clip P w) &&& maskByte P (2 * a.toNat + 1) = hiByte (clip P w) := by
  have : (2 * a.toNat + 1) % 2 = 1 := by omega
  simp [maskByte, this, clip, hiByte_and, BitVec.and_assoc]

/-- A write of a word keeps the canonical form. -/
theorem memWrite_wf {P : Params} {m : Memory} (hm : Memory.wf P m = true) (a : Addr) (v : Word) :
    Memory.wf P (memWrite P m a v) = true := by
  have := a.isLt
  exact writeByte_wf (writeByte_wf hm (by omega) (maskByte_lo P a v)) (by omega) (maskByte_hi P a v)

/-- Every byte of an array after one word is written. -/
theorem readByte_memWrite {P : Params} {m : Memory} (hm : Memory.wf P m = true) (a : Addr) (v : Word) (n : Nat) :
    readByte P (memWrite P m a v) n =
      if n = 2 * a.toNat + 1 then hiByte (clip P v)
      else if n = 2 * a.toNat then loByte (clip P v) else readByte P m n := by
  have := a.isLt
  rw [memWrite, readByte_writeByte (wf_rising (writeByte_wf hm (by omega) (maskByte_lo P a v))),
    readByte_writeByte (wf_rising hm)]

/-- Read after write: the written word's `WORD_BITS` bits there, the old word everywhere else. -/
theorem memRead_memWrite {P : Params} {m : Memory} (hm : Memory.wf P m = true) (a b : Addr) (v : Word) :
    memRead P (memWrite P m a v) b = if b = a then clip P v else memRead P m b := by
  simp only [memRead, readByte_memWrite hm]
  by_cases h : b = a
  · subst h
    simp
  · have hne : b.toNat ≠ a.toNat := fun e => h (BitVec.eq_of_toNat_eq e)
    simp [h, show ¬ 2 * b.toNat = 2 * a.toNat + 1 by omega, hne,
      show ¬ 2 * b.toNat + 1 = 2 * a.toNat by omega]

/-- Canonical arrays that read alike everywhere are the same list. -/
theorem eq_of_readByte {P : Params} {m m' : Memory} (hm : Memory.wf P m = true) (hm' : Memory.wf P m' = true)
    (h : ∀ n, readByte P m n = readByte P m' n) : m = m' := by
  have notBlank : ∀ {c : Host.Cell}, Memory.entryOk P c = true → c.2 ≠ blankByte P c.1 := by
    intro c hc; simp only [Memory.entryOk, Bool.and_eq_true, Bool.not_eq_true', beq_eq_false_iff_ne] at hc
    exact hc.1.2
  induction m generalizing m' with
  | nil =>
    cases m' with
    | nil => rfl
    | cons c rest =>
      obtain ⟨_, he, _⟩ := wf_cons.1 hm'
      have := h c.1; simp [readByte] at this; exact absurd this.symm (notBlank he)
  | cons c rest ih =>
    obtain ⟨hlt, he, hr⟩ := wf_cons.1 hm
    cases m' with
    | nil => have := h c.1; simp [readByte] at this; exact absurd this (notBlank he)
    | cons c' rest' =>
      obtain ⟨hlt', he', hr'⟩ := wf_cons.1 hm'
      have hkey : c.1 = c'.1 := by
        rcases lt_trichotomy c.1 c'.1 with hl | he1 | hl
        · have h1 := h c.1
          rw [readByte_of_lt (m := c' :: rest') (by
            intro d hd; rcases List.mem_cons.1 hd with rfl | hd
            · exact hl
            · exact lt_trans hl (hlt' d hd))] at h1
          simp [readByte] at h1; exact absurd h1 (notBlank he)
        · exact he1
        · have h1 := h c'.1
          rw [readByte_of_lt (m := c :: rest) (by
            intro d hd; rcases List.mem_cons.1 hd with rfl | hd
            · exact hl
            · exact lt_trans hl (hlt d hd))] at h1
          simp [readByte] at h1; exact absurd h1.symm (notBlank he')
      have hval : c.2 = c'.2 := by have := h c.1; simpa [readByte, hkey] using this
      have hc : c = c' := Prod.ext hkey hval
      subst hc
      congr 1
      apply ih hr hr'
      intro n
      by_cases hn : c.1 = n
      · subst hn; rw [readByte_of_lt hlt, readByte_of_lt hlt']
      · have := h n; simpa [readByte, hn] using this

/-! ### A loop over a row -/

theorem updateRow_wf {P : Params} {sp : Space} {base : Addr} {new : Nat → Word → Word} {m : Memory}
    (hm : Memory.wf P m = true) : Memory.wf P (updateRow P sp base new m) = true := by
  have key : ∀ (l : List Nat) (m : Memory), Memory.wf P m = true → Memory.wf P
      (l.foldl (fun m i => if implemented P sp (base + BitVec.ofNat 16 i) then
        memWrite P m (base + BitVec.ofNat 16 i) (new i (memRead P m (base + BitVec.ofNat 16 i))) else m) m)
        = true := by
    intro l; induction l with
    | nil => intro m h; exact h
    | cons i l ih =>
      intro m h; simp only [List.foldl_cons]; apply ih; split
      · exact memWrite_wf h _ _
      · exact h
  exact key _ _ hm

/-- What a loop over the row of `r` does: every existing word of that row takes its new value, every other word of
the array keeps its own. -/
theorem memRead_updateRow {P : Params} (hP : P.WellFormed) {sp : Space} {m : Memory} (hm : Memory.wf P m = true)
    (r : Addr) (new : Nat → Word → Word) (x : Addr) :
    memRead P (updateRow P sp (rowBase P r) new m) x =
      if rowBase P x = rowBase P r ∧ implemented P sp x = true then clip P (new (rowIndex P x) (memRead P m x))
      else memRead P m x := by
  have hpos := wellFormed_row_pos hP
  set base := rowBase P r with hbase
  let body := fun (m : Memory) (i : Nat) => if implemented P sp (base + BitVec.ofNat 16 i) then
        memWrite P m (base + BitVec.ofNat 16 i) (new i (memRead P m (base + BitVec.ofNat 16 i))) else m
  have key : ∀ n, n ≤ P.rowWords → Memory.wf P ((List.range n).foldl body m) = true ∧
      memRead P ((List.range n).foldl body m) x =
        if rowBase P x = base ∧ rowIndex P x < n ∧ implemented P sp x = true
        then clip P (new (rowIndex P x) (memRead P m x)) else memRead P m x := by
    intro n; induction n with
    | zero => intro _; simp [hm]
    | succ n ih =>
      intro hn
      obtain ⟨hw, hr⟩ := ih (by omega)
      rw [List.range_succ, List.foldl_append, List.foldl_cons, List.foldl_nil]
      obtain ⟨hb, hi⟩ := rowBase_rowBase_add hP r (i := n) (by omega)
      rw [← hbase] at hb hi
      by_cases himp : implemented P sp (base + BitVec.ofNat 16 n) = true
      · simp only [body, himp, if_true]
        refine ⟨memWrite_wf hw _ _, ?_⟩
        rw [memRead_memWrite hw]
        by_cases hx : x = base + BitVec.ofNat 16 n
        · have hrx : memRead P ((List.range n).foldl body m) x = memRead P m x := by
            rw [hr, if_neg]; rintro ⟨_, h2, _⟩; rw [hx, hi] at h2; omega
          rw [if_pos hx, ← hx, hrx, if_pos ⟨by rw [hx]; exact hb, by rw [hx, hi]; omega, by rw [hx]; exact himp⟩,
            show rowIndex P x = n by rw [hx]; exact hi]
        · rw [if_neg hx, hr]
          congr 1
          rw [eq_iff_iff]
          constructor
          · rintro ⟨h1, h2, h3⟩; exact ⟨h1, by omega, h3⟩
          · rintro ⟨h1, h2, h3⟩
            refine ⟨h1, ?_, h3⟩
            have : rowIndex P x ≠ n := by
              intro e; apply hx; rw [← e, ← h1]; exact (rowBase_add_rowIndex hP x).symm
            omega
      · have hbody : body ((List.range n).foldl body m) n = (List.range n).foldl body m := by
          simp only [body]; rw [if_neg himp]
        rw [hbody]
        refine ⟨hw, ?_⟩
        rw [hr]; congr 1
        rw [eq_iff_iff]
        constructor
        · rintro ⟨h1, h2, h3⟩; exact ⟨h1, by omega, h3⟩
        · rintro ⟨h1, h2, h3⟩
          refine ⟨h1, ?_, h3⟩
          have : rowIndex P x ≠ n := by
            intro e; apply himp; rw [← e, ← h1, rowBase_add_rowIndex hP x]; exact h3
          omega
  have := (key P.rowWords le_rfl).2
  rw [updateRow]
  refine this.trans ?_
  congr 1
  rw [eq_iff_iff]
  have hlt : rowIndex P x < P.rowWords := Nat.mod_lt _ hpos
  tauto

end Sys2Proof.Laws
end

