-- ==== Sys2Proof/Laws/Flash.lean ====
section
/-! SUPPORT. The flash controller: one equation per micro-operation, which later proofs cite instead of unfolding it,
and what each leaves alone. -/

namespace Sys2Proof.Laws
open Sys2Proof.Machine

/-! ### Fields under the named updates -/

section
variable (f : Flash) (sp : Space) (m : Memory)
@[simp] theorem setArray_faddr : (f.setArray sp m).faddr = f.faddr := by cases sp <;> rfl
@[simp] theorem setArray_fdata : (f.setArray sp m).fdata = f.fdata := by cases sp <;> rfl
@[simp] theorem setArray_fconCfg : (f.setArray sp m).fconCfg = f.fconCfg := by cases sp <;> rfl
@[simp] theorem setArray_fconErase : (f.setArray sp m).fconErase = f.fconErase := by cases sp <;> rfl
@[simp] theorem setArray_fconCommit : (f.setArray sp m).fconCommit = f.fconCommit := by cases sp <;> rfl
@[simp] theorem setArray_latches : (f.setArray sp m).latches = f.latches := by cases sp <;> rfl
@[simp] theorem setArray_unlock : (f.setArray sp m).unlock = f.unlock := by cases sp <;> rfl
@[simp] theorem setArray_intInhibit : (f.setArray sp m).intInhibit = f.intInhibit := by cases sp <;> rfl
@[simp] theorem setArray_hung : (f.setArray sp m).hung = f.hung := by cases sp <;> rfl
@[simp] theorem setArray_freeCount : (f.setArray sp m).freeCount = f.freeCount := by cases sp <;> rfl
/-- The array set is the new one; the other space keeps its words (20_memory.md R32). -/
theorem setArray_array (sp' : Space) :
    (f.setArray sp m).array sp' = if sp' = sp then m else f.array sp' := by cases sp <;> cases sp' <;> rfl
@[simp] theorem setArray_array_self : (f.setArray sp m).array sp = m := by cases sp <;> rfl
end

@[simp] theorem csEnter_intInhibit (f : Flash) : (csEnter f).intInhibit = true := rfl
@[simp] theorem csEnter_array (f : Flash) (sp : Space) : (csEnter f).array sp = f.array sp := by cases sp <;> rfl
@[simp] theorem csEnter_latches (f : Flash) : (csEnter f).latches = f.latches := rfl
@[simp] theorem csEnter_unlock (f : Flash) : (csEnter f).unlock = f.unlock := rfl
@[simp] theorem csEnter_fconErase (f : Flash) : (csEnter f).fconErase = f.fconErase := rfl
@[simp] theorem csExit_intInhibit (f : Flash) : (csExit f).intInhibit = false := rfl
@[simp] theorem csExit_array (f : Flash) (sp : Space) : (csExit f).array sp = f.array sp := by cases sp <;> rfl
@[simp] theorem csExit_latches (f : Flash) : (csExit f).latches = f.latches := rfl
@[simp] theorem csExit_unlock (f : Flash) : (csExit f).unlock = f.unlock := rfl
@[simp] theorem csExit_fconErase (f : Flash) : (csExit f).fconErase = f.fconErase := rfl

@[simp] theorem spaceOf_false : spaceOf false = .pm := rfl
@[simp] theorem spaceOf_true : spaceOf true = .cm := rfl

/-! ### Read -/

/-- A read of a location that exists. -/
theorem flRead_implemented {P : Params} {cfg : Bool} {a : Addr} (f : Flash)
    (h : implemented P (spaceOf cfg) a = true) :
    flRead P cfg a f = { f with fconCfg := cfg, faddr := a, fdata := memRead P (f.array (spaceOf cfg)) a } := by
  cases cfg <;> simp_all [flRead, flSelect, Flash.array]

/-- A read of a location that does not exist: a fresh free value. -/
theorem flRead_unimplemented {P : Params} {cfg : Bool} {a : Addr} (f : Flash)
    (h : implemented P (spaceOf cfg) a = false) :
    flRead P cfg a f =
      { f with fconCfg := cfg, faddr := a, fdata := freeWord P f.freeCount, freeCount := f.freeCount + 1 } := by
  simp [flRead, flSelect, h]

/-- Everything a read can do: only `FCON.CFG`, `FADDR`, `FDATA` and the model's count of free values change. -/
theorem flRead_cases (P : Params) (cfg : Bool) (a : Addr) (f : Flash) :
    ∃ w n, clip P w = w ∧ flRead P cfg a f = { f with fconCfg := cfg, faddr := a, fdata := w, freeCount := n } ∧
      (implemented P (spaceOf cfg) a = true → w = memRead P (f.array (spaceOf cfg)) a ∧ n = f.freeCount) := by
  cases h : implemented P (spaceOf cfg) a
  · exact ⟨_, _, by simp [freeWord], flRead_unimplemented f h, by simp⟩
  · exact ⟨_, _, by simp, flRead_implemented f h, fun _ => ⟨rfl, rfl⟩⟩

/-! ### The unlock sequence -/

/-- From `U_IDLE` the two unlock bytes arm the strobe. -/
@[simp] theorem unlock_from_idle (P : Params) :
    unlockWrite P P.unlock2 (unlockWrite P P.unlock1 .idle) = .armed := by simp [unlockWrite]

/-! ### Erase, load, commit -/

/-- `FL_ERASE` whole, from a controller between micro-operations. -/
theorem flErase_eq {P : Params} {cfg : Bool} {a : Addr} {f : Flash} (hu : f.unlock = .idle) :
    flErase P cfg a f =
      { f.setArray (spaceOf cfg)
          (updateRow P (spaceOf cfg) (rowBase P a) (fun _ _ => P.erasedWord) (f.array (spaceOf cfg)))
        with fconCfg := cfg, faddr := a, fconErase := false, unlock := .idle } := by
  cases cfg <;>
    simp [flErase, flSelect, unlockSequence, writeStrobe, selectedOperation, eraseRow, hu, Flash.setArray, Flash.array]

/-- `FL_LOAD` whole, from a controller between micro-operations. -/
theorem flLoad_eq {P : Params} {cfg : Bool} {a : Addr} {w : Word} {f : Flash} (hu : f.unlock = .idle)
    (he : f.fconErase = false) :
    flLoad P cfg a w f =
      { f with
        fconCfg := cfg, faddr := a, fdata := clip P w, fconCommit := false, unlock := .idle
        latches := f.latches.set (rowIndex P a) (clip P w) } := by
  simp [flLoad, flSelect, unlockSequence, writeStrobe, selectedOperation, loadLatch, hu, he]

/-- `FL_WRITE` whole, from a controller between micro-operations. -/
theorem flWrite_eq {P : Params} {cfg : Bool} {a : Addr} {w : Word} {f : Flash} (hu : f.unlock = .idle)
    (he : f.fconErase = false) :
    flWrite P cfg a w f =
      { f.setArray (spaceOf cfg)
          (updateRow P (spaceOf cfg) (rowBase P a)
            (fun i old => old &&& latchWord P (f.latches.set (rowIndex P a) (clip P w)) i) (f.array (spaceOf cfg)))
        with
        fconCfg := cfg, faddr := a, fdata := clip P w, fconCommit := true, unlock := .idle
        latches := List.replicate P.rowWords (wordMask P) } := by
  cases cfg <;>
    simp [flWrite, flSelect, unlockSequence, writeStrobe, selectedOperation, commitLatches, loadLatch, hu, he,
      Flash.setArray, Flash.array]

/-- The array a commit writes. -/
theorem flWrite_array {P : Params} {cfg : Bool} {a : Addr} {w : Word} {f : Flash} (hu : f.unlock = .idle)
    (he : f.fconErase = false) (sp : Space) :
    (flWrite P cfg a w f).array sp =
      if sp = spaceOf cfg then
        updateRow P (spaceOf cfg) (rowBase P a)
          (fun i old => old &&& latchWord P (f.latches.set (rowIndex P a) (clip P w)) i) (f.array (spaceOf cfg))
      else f.array sp := by
  rw [flWrite_eq hu he, ← setArray_array]; cases sp <;> rfl

theorem flWrite_latches {P : Params} {cfg : Bool} {a : Addr} {w : Word} {f : Flash} (hu : f.unlock = .idle)
    (he : f.fconErase = false) :
    (flWrite P cfg a w f).latches = List.replicate P.rowWords (wordMask P) := by
  rw [flWrite_eq hu he]

/-! ### What every strobing micro-operation keeps -/

/-- The controller between micro-operations (10_state.md R15, R17). -/
theorem runOp_atRest {P : Params} (op : FlashOp) {f : Flash} (hu : f.unlock = .idle) (he : f.fconErase = false) :
    (runOp P op f).unlock = .idle ∧ (runOp P op f).fconErase = false ∧
      (runOp P op f).intInhibit = f.intInhibit ∧ (runOp P op f).hung = f.hung ∧
      (runOp P op f).freeCount = f.freeCount := by
  cases op <;> simp [runOp, flErase_eq hu, flLoad_eq hu he, flWrite_eq hu he, he]

theorem runOps_atRest {P : Params} (ops : List FlashOp) {f : Flash} (hu : f.unlock = .idle)
    (he : f.fconErase = false) :
    (runOps P ops f).unlock = .idle ∧ (runOps P ops f).fconErase = false ∧
      (runOps P ops f).intInhibit = f.intInhibit ∧ (runOps P ops f).hung = f.hung ∧
      (runOps P ops f).freeCount = f.freeCount := by
  induction ops generalizing f with
  | nil => simp [runOps, hu, he]
  | cons op ops ih =>
    obtain ⟨h1, h2, h3, h4, h5⟩ := runOp_atRest (P := P) op hu he
    have := ih h1 h2
    simp only [runOps, List.foldl_cons] at this ⊢
    rw [h3, h4, h5] at this; exact this

theorem runOp_arrayWf {P : Params} (op : FlashOp) {f : Flash} (hu : f.unlock = .idle) (he : f.fconErase = false)
    (hm : ∀ sp, Memory.wf P (f.array sp) = true) (sp : Space) : Memory.wf P ((runOp P op f).array sp) = true := by
  have aux : ∀ (g : Flash) (sp' : Space) (m : Memory), (∀ sp, Memory.wf P (g.array sp) = true) →
      Memory.wf P m = true → Memory.wf P ((g.setArray sp' m).array sp) = true := by
    intro g sp' m hg hm'; rw [setArray_array]; split
    · exact hm'
    · exact hg sp
  cases op with
  | erase cfg a =>
    rw [runOp, flErase_eq hu]
    cases sp <;> exact aux f (spaceOf cfg) _ hm (updateRow_wf (hm (spaceOf cfg)))
  | load cfg a w => rw [runOp, flLoad_eq hu he]; have := hm sp; cases sp <;> exact this
  | write cfg a w =>
    rw [runOp, flWrite_eq hu he]
    cases sp <;> exact aux f (spaceOf cfg) _ hm (updateRow_wf (hm (spaceOf cfg)))

/-- Every strobing micro-operation keeps the canonical form of both arrays. -/
theorem runOps_arrayWf {P : Params} (ops : List FlashOp) {f : Flash} (hu : f.unlock = .idle)
    (he : f.fconErase = false) (hm : ∀ sp, Memory.wf P (f.array sp) = true) (sp : Space) :
    Memory.wf P ((runOps P ops f).array sp) = true := by
  induction ops generalizing f with
  | nil => exact hm sp
  | cons op ops ih =>
    obtain ⟨h1, h2, _⟩ := runOp_atRest (P := P) op hu he
    exact ih h1 h2 (runOp_arrayWf op hu he hm)

/-- A list of latches of the right length with `WORD_BITS` bits each. -/
def LatchesFit (P : Params) (l : List Word) : Prop := l.length = P.rowWords ∧ ∀ w ∈ l, clip P w = w

theorem latchesFit_ones (P : Params) : LatchesFit P (List.replicate P.rowWords (wordMask P)) :=
  ⟨by simp, fun w hw => by rw [List.eq_of_mem_replicate hw]; simp⟩

theorem latchesFit_set {P : Params} {l : List Word} (h : LatchesFit P l) (i : Nat) (w : Word) :
    LatchesFit P (l.set i (clip P w)) :=
  ⟨by simp [h.1], fun v hv => by rcases List.mem_or_eq_of_mem_set hv with hv | rfl
                                 · exact h.2 v hv
                                 · simp⟩

theorem runOps_latchesFit {P : Params} (ops : List FlashOp) {f : Flash} (hu : f.unlock = .idle)
    (he : f.fconErase = false) (hl : LatchesFit P f.latches) (hd : clip P f.fdata = f.fdata) :
    LatchesFit P (runOps P ops f).latches ∧ clip P (runOps P ops f).fdata = (runOps P ops f).fdata := by
  induction ops generalizing f with
  | nil => exact ⟨hl, hd⟩
  | cons op ops ih =>
    obtain ⟨h1, h2, _⟩ := runOp_atRest (P := P) op hu he
    refine ih h1 h2 ?_ ?_
    · cases op with
      | erase cfg a => simpa [runOp, flErase_eq hu] using hl
      | load cfg a w => simpa [runOp, flLoad_eq hu he] using latchesFit_set hl _ w
      | write cfg a w => simpa [runOp, flWrite_eq hu he] using latchesFit_ones P
    · cases op with
      | erase cfg a => simpa [runOp, flErase_eq hu] using hd
      | load cfg a w => simp [runOp, flLoad_eq hu he]
      | write cfg a w => simp [runOp, flWrite_eq hu he]

theorem runOps_append (P : Params) (xs ys : List FlashOp) (f : Flash) :
    runOps P (xs ++ ys) f = runOps P ys (runOps P xs f) := by simp [runOps]

end Sys2Proof.Laws
end

