-- ==== Sys2Proof/Laws/Program.lean ====
section
/-! SUPPORT. The composites: what erase_row, program_row and read_row do to the arrays and the latches. -/

namespace Sys2Proof.Laws
open Sys2Proof.Machine

/-! ### Addresses of a transfer -/

theorem wordAddr_zero (a : Addr) : wordAddr a 0 = a := by simp [wordAddr]

theorem wordAddr_toNat (a : Addr) (k : Nat) : (wordAddr a k).toNat = (a.toNat + k) % 2 ^ 16 := by
  simp [wordAddr, BitVec.toNat_add, BitVec.toNat_ofNat, Nat.add_mod]

theorem wordAddr_inj {a : Addr} {j k : Nat} (hj : j < 2 ^ 16) (hk : k < 2 ^ 16)
    (h : wordAddr a j = wordAddr a k) : j = k := by
  have := congrArg BitVec.toNat h
  rw [wordAddr_toNat, wordAddr_toNat] at this
  have := a.isLt
  omega

theorem rowIndex_wordAddr {P : Params} (hP : P.WellFormed) (a : Addr) (k : Nat) :
    rowIndex P (wordAddr a k) = (a.toNat + k) % P.rowWords := by
  rw [rowIndex, wordAddr_toNat, Nat.mod_mod_of_dvd _ (wellFormed_row_dvd hP)]

/-- The words of one transfer go to different latches. -/
theorem rowIndex_wordAddr_inj {P : Params} (hP : P.WellFormed) {a : Addr} {j k : Nat} (hj : j < P.xferWords)
    (hk : k < P.xferWords) (h : rowIndex P (wordAddr a j) = rowIndex P (wordAddr a k)) : j = k := by
  have hx := (wellFormed_xfer hP).2
  rw [rowIndex_wordAddr hP, rowIndex_wordAddr hP] at h
  rcases Nat.lt_trichotomy j k with hl | he | hl
  · have hd : (a.toNat + k - (a.toNat + j)) % P.rowWords = 0 := Nat.sub_mod_eq_zero_of_mod_eq h.symm
    rw [show a.toNat + k - (a.toNat + j) = k - j by omega, Nat.mod_eq_of_lt (by omega)] at hd; omega
  · exact he
  · have hd : (a.toNat + j - (a.toNat + k)) % P.rowWords = 0 := Nat.sub_mod_eq_zero_of_mod_eq h
    rw [show a.toNat + j - (a.toNat + k) = j - k by omega, Nat.mod_eq_of_lt (by omega)] at hd; omega

theorem rowIndex_lt {P : Params} (hP : P.WellFormed) (a : Addr) : rowIndex P a < P.rowWords :=
  Nat.mod_lt _ (wellFormed_row_pos hP)

/-! ### Latches -/

theorem latchWord_set {P : Params} {l : List Word} {i : Nat} (hi : i < l.length) (w : Word) (j : Nat) :
    latchWord P (l.set i w) j = if j = i then w else latchWord P l j := by
  simp only [latchWord, List.getD_eq_getElem?_getD, List.getElem?_set]
  by_cases h : i = j
  · subst h; simp [hi]
  · simp [h, show ¬ j = i by omega]

theorem latchWord_ones (P : Params) (i : Nat) :
    latchWord P (List.replicate P.rowWords (wordMask P)) i = wordMask P := by
  simp only [latchWord, List.getD_eq_getElem?_getD, List.getElem?_replicate]; split <;> rfl

/-! ### program_row in program memory -/

theorem programOp_load {P : Params} (a : Addr) (ws : List Word) {k : Nat} (hk : k ≠ P.xferWords - 1) :
    programOp P false a ws k = .load false (wordAddr a k) (payloadWord ws k) := by simp [programOp, hk]

theorem programOp_last (P : Params) (a : Addr) (ws : List Word) :
    programOp P false a ws (P.xferWords - 1) =
      .write false (wordAddr a (P.xferWords - 1)) (payloadWord ws (P.xferWords - 1)) := by simp [programOp]

theorem programOp_cfg (P : Params) (a : Addr) (ws : List Word) (k : Nat) :
    programOp P true a ws k = .write true (wordAddr a k) (payloadWord ws k) := by simp [programOp]

/-- After the first `n` latch loads: no array has changed, and the latches of the words loaded hold those words. -/
theorem latchLoads {P : Params} (hP : P.WellFormed) (a : Addr) (ws : List Word) {f : Flash} (hu : f.unlock = .idle)
    (he : f.fconErase = false) (hl : f.latches.length = P.rowWords) (n : Nat) (hn : n ≤ P.xferWords - 1) :
    let g := runOps P ((List.range n).map (programOp P false a ws)) f
    g.pm = f.pm ∧ g.cm = f.cm ∧ g.latches.length = P.rowWords ∧
      (∀ j < n, latchWord P g.latches (rowIndex P (wordAddr a j)) = clip P (payloadWord ws j)) ∧
      (∀ i, (∀ j < n, rowIndex P (wordAddr a j) ≠ i) → latchWord P g.latches i = latchWord P f.latches i) := by
  induction n with
  | zero => simp [runOps, hl]
  | succ n ih =>
    obtain ⟨h1, h2, h3, h4, h5⟩ := ih (by omega)
    obtain ⟨r1, r2, _⟩ := runOps_atRest (P := P) ((List.range n).map (programOp P false a ws)) hu he
    have hx := wellFormed_xfer hP
    simp only [List.range_succ, List.map_append, List.map_cons, List.map_nil, runOps_append]
    rw [programOp_load a ws (by omega)]
    set g := runOps P ((List.range n).map (programOp P false a ws)) f with hg
    have e : runOps P [FlashOp.load false (wordAddr a n) (payloadWord ws n)] g =
        flLoad P false (wordAddr a n) (payloadWord ws n) g := rfl
    rw [e, flLoad_eq r1 r2]
    have hi : rowIndex P (wordAddr a n) < g.latches.length := by rw [h3]; exact rowIndex_lt hP _
    refine ⟨h1, h2, by simpa using h3, ?_, ?_⟩
    · intro j hj
      show latchWord P (g.latches.set _ _) _ = _
      rw [latchWord_set hi]
      by_cases hjn : j = n
      · simp [hjn]
      · rw [if_neg, h4 j (by omega)]
        intro e; exact hjn (rowIndex_wordAddr_inj hP (by omega) (by omega) e)
    · intro i hi'
      show latchWord P (g.latches.set _ _) _ = _
      rw [latchWord_set hi, if_neg (fun e => hi' n (by omega) e.symm), h5 i fun j hj => hi' j (by omega)]

/-- The row of a transfer that is written: the one containing its last word (41_flash_primitives.md R76, R77). -/
def commitRow (P : Params) (a : Addr) : Addr := rowBase P (wordAddr a (P.xferWords - 1))

/-- `program_row` in program memory, from latches that are all ones: every existing word of the row of the last
word that has the row place of word `k` is ANDed with word `k`; nothing else in either array changes; the latches
are all ones again. -/
theorem programRow_pm {P : Params} (hP : P.WellFormed) (a : Addr) (ws : List Word) {f : Flash}
    (hu : f.unlock = .idle) (he : f.fconErase = false)
    (hl : f.latches = List.replicate P.rowWords (wordMask P)) (hm : Memory.wf P f.pm = true) :
    let g := runOps P (programRowOps P false a ws) f
    g.cm = f.cm ∧ g.latches = List.replicate P.rowWords (wordMask P) ∧
      (∀ k < P.xferWords, ∀ x, rowBase P x = commitRow P a → rowIndex P x = rowIndex P (wordAddr a k) →
        implemented P .pm x = true → memRead P g.pm x = memRead P f.pm x &&& payloadWord ws k) ∧
      (∀ x, rowBase P x ≠ commitRow P a ∨ (∀ k < P.xferWords, rowIndex P x ≠ rowIndex P (wordAddr a k)) ∨
        implemented P .pm x = false → memRead P g.pm x = memRead P f.pm x) := by
  have hx := wellFormed_xfer hP
  set n := P.xferWords - 1 with hn
  have hlen : f.latches.length = P.rowWords := by simp [hl]
  obtain ⟨h1, h2, h3, h4, h5⟩ := latchLoads hP a ws hu he hlen n le_rfl
  obtain ⟨r1, r2, _⟩ := runOps_atRest (P := P) ((List.range n).map (programOp P false a ws)) hu he
  have hops : programRowOps P false a ws = (List.range n).map (programOp P false a ws) ++
      [.write false (wordAddr a n) (payloadWord ws n)] := by
    rw [programRowOps, show P.xferWords = n + 1 by omega, List.range_succ, List.map_append, List.map_cons,
      List.map_nil, hn, programOp_last]
  simp only [hops, runOps_append]
  set g := runOps P ((List.range n).map (programOp P false a ws)) f with hg
  have e : runOps P [FlashOp.write false (wordAddr a n) (payloadWord ws n)] g =
      flWrite P false (wordAddr a n) (payloadWord ws n) g := rfl
  have hpm : (flWrite P false (wordAddr a n) (payloadWord ws n) g).pm = _ := flWrite_array r1 r2 .pm
  have hcm : (flWrite P false (wordAddr a n) (payloadWord ws n) g).cm = _ := flWrite_array r1 r2 .cm
  rw [if_pos (by decide)] at hpm
  rw [if_neg (by decide)] at hcm
  rw [e, hpm, hcm, flWrite_latches r1 r2]
  have hi : rowIndex P (wordAddr a n) < g.latches.length := by rw [h3]; exact rowIndex_lt hP _
  simp only [spaceOf_false, Flash.array]
  set L := g.latches.set (rowIndex P (wordAddr a n)) (clip P (payloadWord ws n)) with hL
  have hread : ∀ x, memRead P (updateRow P .pm (rowBase P (wordAddr a n)) (fun i old => old &&& latchWord P L i) g.pm) x
      = if rowBase P x = commitRow P a ∧ implemented P .pm x = true
        then clip P (memRead P f.pm x &&& latchWord P L (rowIndex P x)) else memRead P f.pm x := by
    intro x; rw [memRead_updateRow hP (by rw [h1]; exact hm), h1, commitRow]
  have hLk : ∀ k < P.xferWords, latchWord P L (rowIndex P (wordAddr a k)) = clip P (payloadWord ws k) := by
    intro k hk
    rw [hL, latchWord_set hi]
    by_cases hkn : k = n
    · simp [hkn]
    · rw [if_neg (fun e => hkn (rowIndex_wordAddr_inj hP hk (by omega) e)), h4 k (by omega)]
  have hLo : ∀ i, (∀ k < P.xferWords, i ≠ rowIndex P (wordAddr a k)) → latchWord P L i = wordMask P := by
    intro i hi'
    rw [hL, latchWord_set hi, if_neg (hi' n (by omega)), h5 i fun j hj e => hi' j (by omega) e.symm, hl,
      latchWord_ones]
  refine ⟨h2, trivial, ?_, ?_⟩
  · intro k hk x hrow hidx himp
    rw [hread x]
    rw [if_pos ⟨hrow, himp⟩, hidx, hLk k hk]
    have := clip_memRead P f.pm x
    simp only [clip] at *; grind
  · intro x hx'
    rw [hread x]
    split
    · rename_i hc
      rcases hx' with h | h | h
      · exact absurd hc.1 h
      · rw [hLo _ h, ← clip, clip_clip, clip_memRead]
      · rw [h] at hc; simp at hc
    · rfl

/-! ### program_row in configuration memory -/

/-- One commit from latches that are all ones ANDs the one word it carries (41_flash_primitives.md R76 corner case
(c)). -/
theorem commitOne {P : Params} (hP : P.WellFormed) (a : Addr) (w : Word) {f : Flash} (hu : f.unlock = .idle)
    (he : f.fconErase = false) (hl : f.latches = List.replicate P.rowWords (wordMask P))
    (hm : Memory.wf P f.cm = true) :
    let g := flWrite P true a w f
    g.pm = f.pm ∧ g.latches = List.replicate P.rowWords (wordMask P) ∧ Memory.wf P g.cm = true ∧
      ∀ x, memRead P g.cm x =
        if x = a ∧ implemented P .cm x = true then memRead P f.cm x &&& w else memRead P f.cm x := by
  have hpm : (flWrite P true a w f).pm = _ := flWrite_array hu he .pm
  have hcm : (flWrite P true a w f).cm = _ := flWrite_array hu he .cm
  rw [if_neg (by decide)] at hpm
  rw [if_pos (by decide)] at hcm
  simp only [spaceOf_true, Flash.array] at hpm hcm
  refine ⟨hpm, flWrite_latches hu he, by rw [hcm]; exact updateRow_wf hm, fun x => ?_⟩
  rw [hcm, memRead_updateRow hP hm]
  have hi : rowIndex P a < f.latches.length := by rw [hl]; simpa using rowIndex_lt hP a
  have hmr := clip_memRead P f.cm x
  by_cases hxa : x = a
  · subst hxa
    rw [latchWord_set hi, if_pos rfl]
    simp only [true_and]
    split
    · simp only [clip] at *; grind
    · rfl
  · rw [if_neg (show ¬(x = a ∧ _) from fun h => hxa h.1)]
    split
    · rename_i hc
      have hne : rowIndex P x ≠ rowIndex P a := by
        intro e; apply hxa
        rw [← rowBase_add_rowIndex hP x, ← rowBase_add_rowIndex hP a, hc.1, e]
      rw [latchWord_set hi, if_neg hne, hl, latchWord_ones, ← clip, clip_clip, hmr]
    · rfl

/-- `program_row` in configuration memory, from latches that are all ones: word `k` is ANDed into location `a + k`
where it exists; nothing else in either array changes; the latches are all ones again. -/
theorem programRow_cm {P : Params} (hP : P.WellFormed) (a : Addr) (ws : List Word) {f : Flash}
    (hu : f.unlock = .idle) (he : f.fconErase = false)
    (hl : f.latches = List.replicate P.rowWords (wordMask P)) (hm : Memory.wf P f.cm = true) :
    let g := runOps P (programRowOps P true a ws) f
    g.pm = f.pm ∧ g.latches = List.replicate P.rowWords (wordMask P) ∧
      (∀ k < P.xferWords, implemented P .cm (wordAddr a k) = true →
        memRead P g.cm (wordAddr a k) = memRead P f.cm (wordAddr a k) &&& payloadWord ws k) ∧
      (∀ x, (∀ k < P.xferWords, x ≠ wordAddr a k) ∨ implemented P .cm x = false →
        memRead P g.cm x = memRead P f.cm x) := by
  have hle := wellFormed_row_le hP
  have hxf := wellFormed_xfer hP
  have key : ∀ n ≤ P.xferWords,
      let g := runOps P ((List.range n).map (programOp P true a ws)) f
      g.pm = f.pm ∧ g.latches = List.replicate P.rowWords (wordMask P) ∧ Memory.wf P g.cm = true ∧
      (∀ k < n, implemented P .cm (wordAddr a k) = true →
        memRead P g.cm (wordAddr a k) = memRead P f.cm (wordAddr a k) &&& payloadWord ws k) ∧
      (∀ x, (∀ k < n, x ≠ wordAddr a k) ∨ implemented P .cm x = false →
        memRead P g.cm x = memRead P f.cm x) := by
    intro n; induction n with
    | zero => intro _; simp [runOps, hl, hm]
    | succ n ih =>
      intro hn
      obtain ⟨h1, h2, h3, h4, h5⟩ := ih (by omega)
      obtain ⟨r1, r2, _⟩ := runOps_atRest (P := P) ((List.range n).map (programOp P true a ws)) hu he
      simp only [List.range_succ, List.map_append, List.map_cons, List.map_nil, runOps_append, programOp_cfg]
      set g := runOps P ((List.range n).map (programOp P true a ws)) f with hg
      have e : runOps P [FlashOp.write true (wordAddr a n) (payloadWord ws n)] g =
          flWrite P true (wordAddr a n) (payloadWord ws n) g := rfl
      rw [e]
      obtain ⟨c1, c2, c3, c4⟩ := commitOne hP (wordAddr a n) (payloadWord ws n) r1 r2 h2 h3
      refine ⟨c1.trans h1, c2, c3, ?_, ?_⟩
      · intro k hk himp
        rw [c4]
        by_cases hkn : k = n
        · subst hkn
          rw [if_pos ⟨rfl, himp⟩, h5 _ (.inl fun j hj e => by
            have := wordAddr_inj (a := a) (by omega) (by omega) e; omega)]
        · rw [if_neg (fun h => hkn (wordAddr_inj (by omega) (by omega) h.1)), h4 k (by omega) himp]
      · intro x hx
        rw [c4]
        rw [if_neg, h5 x]
        · rcases hx with h | h
          · exact .inl fun k hk => h k (by omega)
          · exact .inr h
        · rintro ⟨h6, h7⟩
          rcases hx with h | h
          · exact h n (by omega) h6
          · rw [h] at h7; simp at h7
  obtain ⟨h1, h2, _, h4, h5⟩ := key P.xferWords le_rfl
  exact ⟨h1, h2, h4, h5⟩

/-! ### erase_row -/

/-- `erase_row`: every existing word of the row containing `a` reads `ERASED_WORD`, every other word of that space
and every word of the other space as before. -/
theorem eraseRow_read {P : Params} (hP : P.WellFormed) (cfg : Bool) (a : Addr) {f : Flash} (hu : f.unlock = .idle)
    (hm : ∀ sp, Memory.wf P (f.array sp) = true) (sp : Space) (x : Addr) :
    memRead P ((runOps P (eraseRowOps cfg a) f).array sp) x =
      if sp = spaceOf cfg ∧ rowBase P x = rowBase P a ∧ implemented P sp x = true then P.erasedWord
      else memRead P (f.array sp) x := by
  have e : runOps P (eraseRowOps cfg a) f = flErase P cfg a f := rfl
  rw [e, flErase_eq hu]
  have : ∀ (g : Flash) (c d u : _) (b : Addr), ({ g with fconCfg := c, faddr := b, fconErase := d, unlock := u } : Flash).array sp
      = g.array sp := by intros; cases sp <;> rfl
  rw [this, setArray_array]
  by_cases hsp : sp = spaceOf cfg
  · subst hsp
    rw [if_pos rfl, memRead_updateRow hP (hm _), clip_erasedWord hP]; simp
  · simp [hsp]

/-! ### read_row -/

theorem putWord_length (b : List Byte) (k : Nat) (w : Word) : (putWord b k w).length = b.length := by simp [putWord]

theorem putHeader_length (b : List Byte) (x y z : Byte) : (putHeader b x y z).length = b.length := by
  simp [putHeader]

theorem bufByte_putWord {b : List Byte} {k : Nat} (hk : 4 + 2 * k < b.length) (w : Word) (i : Nat) :
    bufByte (putWord b k w) i =
      if i = 3 + 2 * k then loByte w else if i = 4 + 2 * k then hiByte w else bufByte b i := by
  simp only [bufByte, putWord, List.getD_eq_getElem?_getD, List.getElem?_set, List.length_set]
  by_cases h1 : i = 3 + 2 * k
  · subst h1; simp [show 3 + 2 * k < b.length by omega]
  · by_cases h2 : i = 4 + 2 * k
    · subst h2; simp [hk]
    · simp [h1, h2, show ¬ 4 + 2 * k = i by omega, show ¬ 3 + 2 * k = i by omega]

/-- Everything the loop of `read_row` can do after `n` words: in the flash controller only `FCON.CFG`, `FADDR`,
`FDATA` and the count of free values change; in the response only the bytes of the words read, each pair holding a
word of `WORD_BITS` bits, the flash word where the location exists. -/
theorem readRow_cases {P : Params} (cfg : Bool) (a : Addr) (f : Flash) (tx : List Byte) (n : Nat)
    (hlen : 3 + 2 * n ≤ tx.length) :
    let r := (List.range n).foldl (readWordInto P cfg a) (f, tx)
    r.2.length = tx.length ∧
      (∃ c b d m, r.1 = { f with fconCfg := c, faddr := b, fdata := d, freeCount := m } ∧
        (0 < n → c = cfg ∧ b = wordAddr a (n - 1) ∧ clip P d = d) ∧ (n = 0 → d = f.fdata)) ∧
      (∀ k < n, ∃ w, clip P w = w ∧ bufByte r.2 (3 + 2 * k) = loByte w ∧ bufByte r.2 (4 + 2 * k) = hiByte w ∧
        (implemented P (spaceOf cfg) (wordAddr a k) = true →
          w = memRead P (f.array (spaceOf cfg)) (wordAddr a k))) ∧
      (∀ i, i < 3 ∨ 3 + 2 * n ≤ i → bufByte r.2 i = bufByte tx i) := by
  induction n with
  | zero => exact ⟨rfl, ⟨f.fconCfg, f.faddr, f.fdata, f.freeCount, by simp⟩, by simp, by simp⟩
  | succ n ih =>
    obtain ⟨h1, ⟨c, b, d, m, h2, _, _⟩, h3, h4⟩ := ih (by omega)
    simp only [List.range_succ, List.foldl_append, List.foldl_cons, List.foldl_nil]
    set r := (List.range n).foldl (readWordInto P cfg a) (f, tx) with hr
    obtain ⟨w, m', hw, hf, himp⟩ := flRead_cases P cfg (wordAddr a n) r.1
    have harr : r.1.array (spaceOf cfg) = f.array (spaceOf cfg) := by rw [h2]; cases cfg <;> rfl
    have hstep : readWordInto P cfg a r n = (flRead P cfg (wordAddr a n) r.1, putWord r.2 n w) := by
      simp [readWordInto, hf]
    rw [hstep]
    refine ⟨by simp [putWord_length, h1], ⟨cfg, wordAddr a n, w, m', ?_, ?_, by simp⟩, ?_, ?_⟩
    · rw [hf, h2]
    · intro _; exact ⟨rfl, by simp, hw⟩
    · intro k hk
      simp only [bufByte_putWord (show 4 + 2 * n < r.2.length by omega)]
      by_cases hkn : k = n
      · subst hkn
        refine ⟨w, hw, by simp, by simp, fun hi => ?_⟩
        rw [(himp hi).1, harr]
      · obtain ⟨v, hv, e1, e2, e3⟩ := h3 k (by omega)
        refine ⟨v, hv, ?_, ?_, e3⟩
        · rw [if_neg (by omega), if_neg (by omega), e1]
        · rw [if_neg (by omega), if_neg (by omega), e2]
    · intro i hi
      simp only [bufByte_putWord (show 4 + 2 * n < r.2.length by omega)]
      rw [if_neg (by omega), if_neg (by omega), h4 i (by omega)]

end Sys2Proof.Laws
end

