-- ==== Sys2Proof/Laws/State.lean ====
section
/-! SUPPORT. One lemma per field per named update of the state, each true by unfolding, so that no later proof unfolds
a record update. -/

namespace Sys2Proof.Laws
open Sys2Proof.Machine

section
variable (b0 b1 b2 : Byte) (s : State)
@[simp] theorem beginDispatch_params : (beginDispatch b0 b1 b2 s).params = s.params := rfl
@[simp] theorem beginDispatch_crc : (beginDispatch b0 b1 b2 s).crc = s.crc := rfl
@[simp] theorem beginDispatch_flash : (beginDispatch b0 b1 b2 s).flash = s.flash := rfl
@[simp] theorem beginDispatch_st : (beginDispatch b0 b1 b2 s).st = s.st := rfl
@[simp] theorem beginDispatch_mcuPc : (beginDispatch b0 b1 b2 s).mcuPc = s.mcuPc := rfl
@[simp] theorem beginDispatch_ports : (beginDispatch b0 b1 b2 s).ports = s.ports := rfl
@[simp] theorem beginDispatch_outputs : (beginDispatch b0 b1 b2 s).outputs = s.outputs := rfl
@[simp] theorem beginDispatch_inputs : (beginDispatch b0 b1 b2 s).inputs = s.inputs := rfl
@[simp] theorem beginDispatch_state : (beginDispatch b0 b1 b2 s).ce.state = s.ce.state := rfl
@[simp] theorem beginDispatch_cmd : (beginDispatch b0 b1 b2 s).ce.cmd = b0 := rfl
@[simp] theorem beginDispatch_cfgMode : (beginDispatch b0 b1 b2 s).ce.cfgMode = b0.getLsbD 2 := rfl
@[simp] theorem beginDispatch_reqAddr : (beginDispatch b0 b1 b2 s).ce.reqAddr = addrOfBytes b1 b2 := rfl
@[simp] theorem beginDispatch_txLen : (beginDispatch b0 b1 b2 s).ce.txLen = 3 := rfl
@[simp] theorem beginDispatch_txBuf :
    (beginDispatch b0 b1 b2 s).ce.txBuf = putHeader s.ce.txBuf b0 b1 b2 := rfl
end

section
variable (s : State)
@[simp] theorem endDispatch_params : (endDispatch s).params = s.params := rfl
@[simp] theorem endDispatch_crc : (endDispatch s).crc = s.crc := rfl
@[simp] theorem endDispatch_flash : (endDispatch s).flash = s.flash := rfl
@[simp] theorem endDispatch_st : (endDispatch s).st = s.st := rfl
@[simp] theorem endDispatch_mcuPc : (endDispatch s).mcuPc = s.mcuPc := rfl
@[simp] theorem endDispatch_ports : (endDispatch s).ports = s.ports := rfl
@[simp] theorem endDispatch_outputs : (endDispatch s).outputs = s.outputs := rfl
@[simp] theorem endDispatch_inputs : (endDispatch s).inputs = s.inputs := rfl
@[simp] theorem endDispatch_state : (endDispatch s).ce.state = .respond := rfl
@[simp] theorem endDispatch_cmd : (endDispatch s).ce.cmd = s.ce.cmd := rfl
@[simp] theorem endDispatch_cfgMode : (endDispatch s).ce.cfgMode = s.ce.cfgMode := rfl
@[simp] theorem endDispatch_reqAddr : (endDispatch s).ce.reqAddr = s.ce.reqAddr := rfl
@[simp] theorem endDispatch_txLen : (endDispatch s).ce.txLen = s.ce.txLen := rfl
@[simp] theorem endDispatch_txBuf : (endDispatch s).ce.txBuf = s.ce.txBuf := rfl
end

section
variable (s : State)
@[simp] theorem respondStep_params : (respondStep s).params = s.params := rfl
@[simp] theorem respondStep_crc : (respondStep s).crc = s.crc := rfl
@[simp] theorem respondStep_flash : (respondStep s).flash = s.flash := rfl
@[simp] theorem respondStep_st : (respondStep s).st = s.st := rfl
@[simp] theorem respondStep_mcuPc : (respondStep s).mcuPc = s.mcuPc := rfl
@[simp] theorem respondStep_inputs : (respondStep s).inputs = s.inputs := rfl
@[simp] theorem respondStep_state : (respondStep s).ce.state = .rearm := rfl
@[simp] theorem respondStep_txBuf : (respondStep s).ce.txBuf = s.ce.txBuf := rfl
@[simp] theorem respondStep_txLen : (respondStep s).ce.txLen = s.ce.txLen := rfl
@[simp] theorem respondStep_rxBuf : (respondStep s).ports.rxBuf = s.ports.rxBuf := rfl
@[simp] theorem respondStep_rxFull : (respondStep s).ports.rxFull = s.ports.rxFull := rfl
@[simp] theorem respondStep_outputs : (respondStep s).outputs = [.txSubmit s.ce.txBuf s.ce.txLen] := rfl
@[simp] theorem rearmStep_params : (rearmStep s).params = s.params := rfl
@[simp] theorem rearmStep_crc : (rearmStep s).crc = s.crc := rfl
@[simp] theorem rearmStep_flash : (rearmStep s).flash = s.flash := rfl
@[simp] theorem rearmStep_st : (rearmStep s).st = s.st := rfl
@[simp] theorem rearmStep_mcuPc : (rearmStep s).mcuPc = s.mcuPc := rfl
@[simp] theorem rearmStep_inputs : (rearmStep s).inputs = s.inputs := rfl
@[simp] theorem rearmStep_state : (rearmStep s).ce.state = .idle := rfl
@[simp] theorem rearmStep_txBuf : (rearmStep s).ce.txBuf = s.ce.txBuf := rfl
@[simp] theorem rearmStep_txLen : (rearmStep s).ce.txLen = s.ce.txLen := rfl
@[simp] theorem rearmStep_rxBuf : (rearmStep s).ports.rxBuf = s.ports.rxBuf := rfl
@[simp] theorem rearmStep_outputs : (rearmStep s).outputs = [.rxRearm] := rfl
end

section
variable (f : Flash) (p : Ports) (s : State)
@[simp] theorem resetWith_params : (resetWith f p s).params = s.params := rfl
@[simp] theorem resetWith_ports : (resetWith f p s).ports = p := rfl
@[simp] theorem resetWith_inputs : (resetWith f p s).inputs = s.inputs := rfl
@[simp] theorem resetWith_outputs : (resetWith f p s).outputs = [] := rfl
@[simp] theorem resetWith_mcuPc : (resetWith f p s).mcuPc = none := rfl
@[simp] theorem resetWith_pm : (resetWith f p s).flash.pm = f.pm := rfl
@[simp] theorem resetWith_cm : (resetWith f p s).flash.cm = f.cm := rfl
@[simp] theorem resetWith_unlock : (resetWith f p s).flash.unlock = .idle := rfl
@[simp] theorem resetWith_fconErase : (resetWith f p s).flash.fconErase = false := rfl
@[simp] theorem resetWith_fconCommit : (resetWith f p s).flash.fconCommit = false := rfl
@[simp] theorem resetWith_intInhibit : (resetWith f p s).flash.intInhibit = false := rfl
@[simp] theorem resetWith_hung : (resetWith f p s).flash.hung = false := rfl
@[simp] theorem resetWith_latches :
    (resetWith f p s).flash.latches = List.replicate s.params.rowWords (wordMask s.params) := rfl
@[simp] theorem resetWith_stState : (resetWith f p s).st.state = .reset := rfl
@[simp] theorem resetWith_passed : (resetWith f p s).st.passed = false := rfl
@[simp] theorem resetWith_passedAlt : (resetWith f p s).st.passedAlt = false := rfl
@[simp] theorem resetWith_bootMode : (resetWith f p s).st.bootMode = .bootloader := rfl
@[simp] theorem resetWith_pullupEn : (resetWith f p s).st.pullupEn = false := rfl
@[simp] theorem resetWith_ceState : (resetWith f p s).ce.state = .idle := rfl
@[simp] theorem resetWith_txBuf_length : (resetWith f p s).ce.txBuf.length = s.params.reportBytes := by
  simp [resetWith]
end

end Sys2Proof.Laws
end

