-- ==== Sys2Proof/Laws/Step.lean ====
section
/-! SUPPORT. Everything a step can do, said once: the cases of a step, of a step of the block, of a dispatch and of
an input. -/

namespace Sys2Proof.Laws
open Sys2Proof.Machine

/-! ### Cases -/

/-- A step of the block that is not a dispatch, or a dispatch, by the state of the two sequencers. -/
inductive BlockMove (s : State) : State → Prop where
  | start (h : s.st.state = .reset) : BlockMove s (startSelfTest s)
  | scan (h : s.st.state = .scan) : BlockMove s (scanStep s)
  | decide (h : s.st.state = .decide) : BlockMove s (decideStep s)
  | rest (h : s.st.state = .done) (he : ceEnabled s = false) : BlockMove s s
  | idle (h : ceEnabled s = true) (hi : s.ce.state = .idle) : BlockMove s (idleStep s)
  | command (h : ceEnabled s = true) (hd : s.ce.state = .dispatch) (i : Instr) (t : State)
      (hi : decode s.params s.ports.rxBuf = .command i) (ht : exec i s = .next t) : BlockMove s t
  | echo (h : ceEnabled s = true) (hd : s.ce.state = .dispatch) (code : Byte)
      (hi : decode s.params s.ports.rxBuf = .unrecognised code) :
      BlockMove s (execUnrecognised code (bufByte s.ports.rxBuf 1) (bufByte s.ports.rxBuf 2) s)
  | respond (h : ceEnabled s = true) (hr : s.ce.state = .respond) : BlockMove s (respondStep s)
  | rearm (h : ceEnabled s = true) (hr : s.ce.state = .rearm) : BlockMove s (rearmStep s)

/-- What the outside can do to the ports while it keeps its duties. -/
structure PortMove (P : Params) (inputs : List Input) (p q : Ports) : Prop where
  window : p.rxFull = true → q.rxFull = true ∧ q.rxBuf = p.rxBuf
  report : p.rxBuf.length = P.reportBytes → q.rxBuf.length = P.reportBytes
  free   : p.txFree = true → q.txFree = true
  gone   : p.txFree = false → q.txFree = true → ∃ rest, inputs = .responseGone :: rest
  full   : p.rxFull = false → q.rxFull = true →
    ∃ report rest, inputs = .receive report :: rest ∧ report.length = P.reportBytes ∧ q.rxBuf = report
  /-- `nTO` moves only with a reset. -/
  timeOut : q.nTO = p.nTO

/-- One thing that happens, and the input that brings it: a step of the block, or something from outside. -/
inductive Move (inputs : List Input) (s : State) : State → Prop where
  | block (h : s.flash.hung = false) (t : State) (m : BlockMove s t)
      (hi : inputs = [] ∨ ∃ rest, inputs = .proceed :: rest) : Move inputs s t
  | ports (q : Ports) (h : PortMove s.params inputs s.ports q) : Move inputs s { s with ports := q }
  | reset (kind : ResetKind) (during : Option Nat) (after : Ports) (rest : List Input)
      (hi : inputs = .reset kind during after :: rest)
      (h : after.rxBuf.length = s.params.reportBytes) : Move inputs s (resetEvent kind during after s)
  | hang (k : Nat) (rest : List Input) (hi : inputs = .flashHangs k :: rest) : Move inputs s (hangEvent k s)
  | fail (k : Nat) (rest : List Input) (hi : inputs = .flashFails k :: rest) : Move inputs s (failEvent k s)

theorem dispatchStep_cases {s t : State} (h : dispatchStep s = .next t) :
    (∃ i, decode s.params s.ports.rxBuf = .command i ∧ exec i s = .next t) ∨
    (∃ code, decode s.params s.ports.rxBuf = .unrecognised code ∧
      t = execUnrecognised code (bufByte s.ports.rxBuf 1) (bufByte s.ports.rxBuf 2) s) := by
  unfold dispatchStep at h
  split at h
  · exact .inl ⟨_, ‹_›, h⟩
  · exact .inr ⟨_, ‹_›, by injection h with h; exact h.symm⟩
  · cases h

theorem blockStep_cases {s t : State} (h : blockStep s = .next t) : s.flash.hung = false ∧ BlockMove s t := by
  unfold blockStep at h
  split at h
  · cases h
  · rename_i hh
    refine ⟨by simpa using hh, ?_⟩
    unfold sequencerStep at h
    split at h
    · injection h with h; subst h; exact .start ‹_›
    · injection h with h; subst h; exact .scan ‹_›
    · injection h with h; subst h; exact .decide ‹_›
    · split at h
      · rename_i he
        unfold engineStep at h
        split at h
        · injection h with h; subst h; exact .idle he ‹_›
        · rcases dispatchStep_cases h with ⟨i, h1, h2⟩ | ⟨c, h1, rfl⟩
          · exact .command he ‹_› i t h1 h2
          · exact .echo he ‹_› c h1
        · injection h with h; subst h; exact .respond he ‹_›
        · injection h with h; subst h; exact .rearm he ‹_›
      · rename_i he
        injection h with h; subst h; exact .rest ‹_› (by simpa using he)

theorem inputStep_cases {i : Input} {s t : State} (rest : List Input) (h : inputStep i s = .next t) :
    Move (i :: rest) s t := by
  have tr : ∀ {allowed : Bool} {u : State}, transportStep s allowed u = .next t → allowed = true ∧ t = u := by
    intro allowed u h
    unfold transportStep at h
    split at h
    · rename_i hc
      injection h with h
      simp only [Bool.and_eq_true] at hc
      exact ⟨hc.1, h.symm⟩
    · cases h
  cases i with
  | proceed => obtain ⟨h1, h2⟩ := blockStep_cases h; exact .block h1 t h2 (.inr ⟨rest, rfl⟩)
  | pin level =>
    injection h with h; subst h
    exact .ports { s.ports with pinIn := level } ⟨fun h => ⟨h, rfl⟩, fun h => h, fun h => h,
      fun h h' => (by rw [h] at h'; cases h'), fun h h' => (by rw [h] at h'; cases h'), rfl⟩
  | configure level =>
    injection h with h; subst h
    exact .ports { s.ports with configured := level } ⟨fun h => ⟨h, rfl⟩, fun h => h, fun h => h,
      fun h h' => (by rw [h] at h'; cases h'), fun h h' => (by rw [h] at h'; cases h'), rfl⟩
  | receive report =>
    obtain ⟨h1, rfl⟩ := tr h
    simp only [Bool.and_eq_true, Bool.not_eq_true', beq_iff_eq] at h1
    exact .ports { s.ports with rxBuf := report, rxFull := true }
      ⟨fun h => (by rw [h1.1] at h; cases h), fun _ => h1.2, fun h => h,
      fun h h' => (by rw [h] at h'; cases h'), fun _ _ => ⟨report, rest, rfl, h1.2, rfl⟩, rfl⟩
  | changeRxBuf bytes =>
    obtain ⟨h1, rfl⟩ := tr h
    simp only [Bool.and_eq_true, Bool.not_eq_true', beq_iff_eq] at h1
    exact .ports { s.ports with rxBuf := bytes }
      ⟨fun h => (by rw [h1.1] at h; cases h), fun _ => h1.2, fun h => h,
      fun h h' => (by rw [h] at h'; cases h'), fun h h' => (by rw [h] at h'; cases h'), rfl⟩
  | responseGone =>
    obtain ⟨_, rfl⟩ := tr h
    exact .ports { s.ports with txFree := true } ⟨fun h => ⟨h, rfl⟩, fun h => h, fun _ => rfl,
      fun _ _ => ⟨rest, rfl⟩, fun h h' => (by rw [h] at h'; cases h'), rfl⟩
  | reset kind during after =>
    simp only [inputStep] at h
    split at h
    · rename_i hl
      injection h with h; subst h
      exact .reset kind during after rest rfl (by simpa using hl)
    · cases h
  | flashHangs k => injection h with h; subst h; exact .hang k rest rfl
  | flashFails k => injection h with h; subst h; exact .fail k rest rfl

/-- The state that a step works on: the events of the step before are gone and the input taken is off the list. -/
def prepared (s : State) : State := { s with outputs := [], inputs := s.inputs.tail }

@[simp] theorem prepared_params (s : State) : (prepared s).params = s.params := rfl
@[simp] theorem prepared_crc (s : State) : (prepared s).crc = s.crc := rfl
@[simp] theorem prepared_flash (s : State) : (prepared s).flash = s.flash := rfl
@[simp] theorem prepared_st (s : State) : (prepared s).st = s.st := rfl
@[simp] theorem prepared_ce (s : State) : (prepared s).ce = s.ce := rfl
@[simp] theorem prepared_mcuPc (s : State) : (prepared s).mcuPc = s.mcuPc := rfl
@[simp] theorem prepared_ports (s : State) : (prepared s).ports = s.ports := rfl
@[simp] theorem prepared_outputs (s : State) : (prepared s).outputs = [] := rfl
@[simp] theorem prepared_enabled (s : State) : ceEnabled (prepared s) = ceEnabled s := rfl
@[simp] theorem prepared_pending (s : State) : pendingStrobes (prepared s) = pendingStrobes s := rfl

theorem step_wellFormed {s : State} (h : s.params.WellFormed) : step s = worldStep s := if_pos h

/-- A step works on the prepared state. -/
theorem worldStep_prepared (s : State) :
    worldStep s = match s.inputs with
      | [] => blockStep (prepared s)
      | i :: _ => inputStep i (prepared s) := by
  obtain ⟨_, _, _, _, _, _, _, _, inputs⟩ := s
  cases inputs <;> rfl

/-- Everything a step can do. -/
theorem step_cases {s t : State} (h : step s = .next t) : s.params.WellFormed ∧ Move s.inputs (prepared s) t := by
  unfold step checkedStep at h
  split at h
  · rename_i hP
    refine ⟨hP, ?_⟩
    rw [worldStep_prepared] at h
    split at h
    · rename_i hi
      obtain ⟨h1, h2⟩ := blockStep_cases h
      exact .block h1 t h2 (.inl hi)
    · rename_i i rest hi
      rw [hi]
      exact inputStep_cases rest h
  · cases h

/-- The block's own step. -/
theorem step_block {s : State} (hP : s.params.WellFormed) (hb : s.blockNext) :
    step s = sequencerStep (prepared s) := by
  rw [step_wellFormed hP, worldStep_prepared, hb.1]
  simp [blockStep, hb.2]

/-! ### Runs -/

theorem run_zero (s : State) : core.run 0 s = .next s := rfl

/-- The first step of a run taken off. -/
theorem run_next {s t : State} (h : step s = .next t) (n : Nat) : core.run (n + 1) s = core.run n t := by
  have e := Host.Core.run.eq_2 core s n
  rw [show core.step s = .next t from h] at e
  exact e

/-- A run that goes on has a first step. -/
theorem run_first {s t : State} {n : Nat} (h : core.run (n + 1) s = .next t) : ∃ u, step s = .next u := by
  have e := Host.Core.run.eq_2 core s n
  cases hs : step s with
  | next u => exact ⟨u, rfl⟩
  | fault r => rw [show core.step s = .fault r from hs] at e; rw [e] at h; cases h
  | refused r => rw [show core.step s = .refused r from hs] at e; rw [e] at h; cases h

/-- The last step of a run taken off. -/
theorem run_succ {s t u : State} {n : Nat} (h : core.run n s = .next t) (hu : step t = .next u) :
    core.run (n + 1) s = .next u := by
  induction n generalizing s with
  | zero => injection h with h; subst h; exact (run_next hu 0).trans rfl
  | succ n ih =>
    obtain ⟨v, hv⟩ := run_first h
    rw [run_next hv] at h ⊢
    exact ih h

end Sys2Proof.Laws
end

