-- ==== Sys2Proof/Laws/Commands.lean ====
section
/-! SUPPORT. The shared operations of CE_DISPATCH: header, decode, critical section, latches, a row caught half-way,
and what every command does alike. -/

namespace Sys2Proof.Laws
open Sys2Proof.Machine

/-! ### Header and decode -/

theorem bufByte_set (l : List Byte) {j i : Nat} (v : Byte) (h : j < i) : bufByte (l.set j v) i = bufByte l i := by
  simp [bufByte, List.getD_eq_getElem?_getD, show j ≠ i by omega]

/-- The first three bytes of a buffer. -/
theorem take_three (l : List Byte) (h : 3 ≤ l.length) : l.take 3 = [bufByte l 0, bufByte l 1, bufByte l 2] := by
  match l, h with
  | a :: b :: c :: r, _ => rfl
  | [], h => simp at h
  | [_], h => simp at h
  | [_, _], h => simp at h

/-- The echo of the header (43_commands.md R94). -/
theorem bufByte_putHeader (b : List Byte) (x y z : Byte) (h : 3 ≤ b.length) :
    bufByte (putHeader b x y z) 0 = x ∧ bufByte (putHeader b x y z) 1 = y ∧ bufByte (putHeader b x y z) 2 = z := by
  match b, h with
  | p :: q :: r :: t, _ => exact ⟨rfl, rfl, rfl⟩
  | [], h => simp at h
  | [_], h => simp at h
  | [_, _], h => simp at h

/-- Bytes after the header keep their values. -/
theorem bufByte_putHeader_rest (b : List Byte) (x y z : Byte) {i : Nat} (h : 3 ≤ i) :
    bufByte (putHeader b x y z) i = bufByte b i := by
  unfold putHeader
  rw [bufByte_set _ _ (by omega), bufByte_set _ _ (by omega), bufByte_set _ _ (by omega)]

theorem payloadBytes_length (ws : List Word) : (payloadBytes ws).length = 2 * ws.length := by
  induction ws with
  | nil => rfl
  | cons w ws ih => simp [payloadBytes, ih]; omega

/-- A report that decodes to a command: its first byte is the command's code, the next two its address. -/
theorem decode_command {P : Params} {l : List Byte} {i : Instr} (h : decode P l = .command i) :
    ∃ c hi lo p, l = c :: hi :: lo :: p ∧ opcode i = c ∧ operandAddr i = addrOfBytes hi lo ∧
      l.length = P.reportBytes := by
  unfold decode at h
  split at h
  · rename_i hl
    split at h
    · rename_i c hi lo payload
      refine ⟨c, hi, lo, payload, rfl, ?_⟩
      unfold decodeCommand at h
      split_ifs at h <;> (try injection h with h) <;> subst h <;> simp_all [operandAddr, opcode]
    · cases h
  · cases h

/-- A report whose code is none of the six. -/
theorem decode_unrecognised {P : Params} {l : List Byte} {x : Byte} (h : decode P l = .unrecognised x) :
    ∃ hi lo p, l = x :: hi :: lo :: p ∧ l.length = P.reportBytes := by
  unfold decode at h
  split at h
  · rename_i hl
    split at h
    · rename_i c hi lo payload
      unfold decodeCommand at h
      split_ifs at h
      injection h with h
      subst h
      exact ⟨hi, lo, payload, rfl, hl⟩
    · cases h
  · cases h

/-- A report of the right length is never refused. -/
theorem dispatchStep_next {s : State} (hP : s.params.WellFormed) (hr : s.ports.rxBuf.length = s.params.reportBytes) :
    ∃ t, dispatchStep s = .next t := by
  have hb := hP.2.2.2.1
  unfold dispatchStep
  cases h : decode s.params s.ports.rxBuf with
  | command i => cases i <;> exact ⟨_, rfl⟩
  | unrecognised c => exact ⟨_, rfl⟩
  | notAReport n =>
    exfalso
    unfold decode at h
    rw [if_pos hr] at h
    split at h
    · unfold decodeCommand at h; split_ifs at h
    · rename_i hne
      match hl : s.ports.rxBuf, hr, hne with
      | a :: b :: c :: r, _, hne => exact hne a b c r rfl
      | [], hr, _ => simp at hr; omega
      | [_], hr, _ => simp at hr; omega
      | [_, _], hr, _ => simp at hr; omega

/-! ### Every command -/

/-- What every command does alike: it changes the flash controller and the engine only and goes on to CE_RESPOND. -/
theorem exec_outside {i : Instr} {s t : State} (h : exec i s = .next t) :
    SameOutside s t ∧ t.ce.state = .respond ∧
      (t.ce.txLen = 3 ∨ t.ce.txLen = 3 + 2 * s.params.xferWords) := by
  cases i <;> (injection h with h; subst h; refine ⟨⟨rfl, rfl, rfl, rfl, rfl, rfl, rfl⟩, rfl, ?_⟩) <;>
    first | exact .inl rfl | exact .inr rfl

/-- Reading a row moves the selection, `FDATA` and the count of free values only. -/
theorem readRow_flash {P : Params} (cfg : Bool) (a : Addr) (f : Flash) (tx : List Byte) (n : Nat)
    (hd : clip P f.fdata = f.fdata) :
    let r := (List.range n).foldl (readWordInto P cfg a) (f, tx)
    r.2.length = tx.length ∧
      ∃ c b d m, r.1 = { f with fconCfg := c, faddr := b, fdata := d, freeCount := m } ∧ clip P d = d := by
  induction n with
  | zero => exact ⟨rfl, f.fconCfg, f.faddr, f.fdata, f.freeCount, rfl, hd⟩
  | succ n ih =>
    obtain ⟨h1, c, b, d, m, h2, h3⟩ := ih
    simp only [List.range_succ, List.foldl_append, List.foldl_cons, List.foldl_nil]
    generalize List.foldl (readWordInto P cfg a) (f, tx) (List.range n) = q at *
    obtain ⟨w, k, e1, e2, _⟩ := flRead_cases P cfg (wordAddr a n) q.1
    refine ⟨(putWord_length _ _ _).trans h1, cfg, wordAddr a n, w, k, ?_, e1⟩
    show flRead P cfg (wordAddr a n) q.1 = _
    rw [e2, h2]

/-- The flash of a Read command. -/
theorem readCommand_flash (c : Byte) (a : Addr) (s : State) :
    (readCommand c a s).flash =
      ((List.range s.params.xferWords).foldl (readWordInto s.params (c.getLsbD 2) a)
        (s.flash, putHeader s.ce.txBuf c (hiByte a) (loByte a))).1 := by
  simp only [readCommand, beginCommand, endDispatch_flash, beginDispatch_params, beginDispatch_cfgMode,
    beginDispatch_reqAddr, beginDispatch_flash, beginDispatch_txBuf, addrOfBytes_hi_lo]
  rfl

/-- The flash of an Erase command is one critical section. -/
theorem eraseCommand_flash (c : Byte) (a : Addr) (s : State) :
    (eraseCommand c a s).flash = criticalSection s.params (eraseRowOps (c.getLsbD 2) a) s.flash := by
  simp only [eraseCommand, beginCommand, endDispatch_flash, beginDispatch_params, beginDispatch_cfgMode,
    beginDispatch_reqAddr, beginDispatch_flash, addrOfBytes_hi_lo]

/-- The flash of a Program command is one critical section. -/
theorem programCommand_flash (c : Byte) (a : Addr) (ws : List Word) (s : State) :
    (programCommand c a ws s).flash =
      criticalSection s.params (programRowOps s.params (c.getLsbD 2) a ws) s.flash := by
  simp only [programCommand, beginCommand, endDispatch_flash, beginDispatch_params, beginDispatch_cfgMode,
    beginDispatch_reqAddr, beginDispatch_flash, addrOfBytes_hi_lo]

/-- The flash after any command: a row read, or the critical section of its strobes. -/
theorem exec_flash {i : Instr} {s t : State} (h : exec i s = .next t) :
    (∃ cfg tx, t.flash =
        ((List.range s.params.xferWords).foldl (readWordInto s.params cfg (operandAddr i)) (s.flash, tx)).1 ∧
      strobesOf s.params i = []) ∨
    t.flash = criticalSection s.params (strobesOf s.params i) s.flash := by
  cases i <;> (injection h with h; subst h)
  · exact .inl ⟨_, _, readCommand_flash _ _ _, rfl⟩
  · exact .inr (eraseCommand_flash _ _ _)
  · exact .inr (programCommand_flash _ _ _ _)
  · exact .inl ⟨_, _, readCommand_flash _ _ _, rfl⟩
  · exact .inr (eraseCommand_flash _ _ _)
  · exact .inr (programCommand_flash _ _ _ _)

/-! ### The controller inside a critical section -/

theorem betweenOps_latch {P : Params} {f : Flash} (h : f.BetweenOps P) : LatchesFit P f.latches :=
  ⟨h.latchCount, h.latchesFit⟩

theorem betweenOps_enter {P : Params} {f : Flash} (h : f.BetweenOps P) : (csEnter f).BetweenOps P :=
  ⟨h.unlockIdle, h.eraseClear, h.dataFits, h.latchCount, h.latchesFit,
    fun sp => by rw [csEnter_array]; exact h.arrays sp⟩

theorem betweenOps_exit {P : Params} {f : Flash} (h : f.BetweenOps P) : (csExit f).BetweenOps P :=
  ⟨h.unlockIdle, h.eraseClear, h.dataFits, h.latchCount, h.latchesFit,
    fun sp => by rw [csExit_array]; exact h.arrays sp⟩

/-- It holds again after any micro-operations. -/
theorem betweenOps_run {P : Params} {f : Flash} (h : f.BetweenOps P) (ops : List FlashOp) :
    (runOps P ops f).BetweenOps P :=
  let r := runOps_atRest (P := P) ops h.unlockIdle h.eraseClear
  let q := runOps_latchesFit ops h.unlockIdle h.eraseClear (betweenOps_latch h) h.dataFits
  ⟨r.1, r.2.1, q.2, q.1.1, q.1.2, runOps_arrayWf ops h.unlockIdle h.eraseClear h.arrays⟩

theorem scrambleRow_array (P : Params) (op : FlashOp) (f : Flash) (sp : Space) :
    (scrambleRow P op f).array sp =
      if sp = op.space then
        updateRow P op.space (rowBase P op.addr) (fun i _ => freeWord P (f.freeCount + i)) (f.array op.space)
      else f.array sp := by
  rw [← setArray_array]; cases sp <;> rfl

theorem betweenOps_scramble {P : Params} {f : Flash} (h : f.BetweenOps P) (op : FlashOp) :
    (scrambleRow P op f).BetweenOps P := by
  refine ⟨(setArray_unlock f _ _).trans h.unlockIdle, (setArray_fconErase f _ _).trans h.eraseClear, ?_, ?_, ?_, ?_⟩
  · show clip P (f.setArray _ _).fdata = (f.setArray _ _).fdata; simp [h.dataFits]
  · show (f.setArray _ _).latches.length = _; simpa using h.latchCount
  · show ∀ w ∈ (f.setArray _ _).latches, _; simpa using h.latchesFit
  · intro sp
    rw [scrambleRow_array]
    split
    · exact updateRow_wf (h.arrays _)
    · exact h.arrays sp

/-- The latches after a strobe, from the latches before it alone. -/
def latchStep (P : Params) (l : List Word) : FlashOp → List Word
  | .erase _ _ => l
  | .load _ a w => l.set (rowIndex P a) (clip P w)
  | .write _ _ _ => List.replicate P.rowWords (wordMask P)

theorem runOps_latches {P : Params} (ops : List FlashOp) {f : Flash} (hu : f.unlock = .idle)
    (he : f.fconErase = false) : (runOps P ops f).latches = ops.foldl (latchStep P) f.latches := by
  induction ops generalizing f with
  | nil => rfl
  | cons op ops ih =>
    obtain ⟨h1, h2, _⟩ := runOp_atRest (P := P) op hu he
    have e : (runOp P op f).latches = latchStep P f.latches op := by
      cases op <;> simp [runOp, flErase_eq hu, flLoad_eq hu he, flWrite_eq hu he, latchStep]
    have := ih h1 h2
    simp only [runOps, List.foldl_cons] at this ⊢
    rw [this, e]

/-- `program_row` ends with a commit (41_flash_primitives.md R77). -/
theorem programRowOps_snoc {P : Params} (hP : P.WellFormed) (cfg : Bool) (a : Addr) (ws : List Word) :
    programRowOps P cfg a ws = (List.range (P.xferWords - 1)).map (programOp P cfg a ws) ++
      [.write cfg (wordAddr a (P.xferWords - 1)) (payloadWord ws (P.xferWords - 1))] := by
  have hx := (wellFormed_xfer hP).1
  rw [programRowOps]
  conv_lhs => rw [show P.xferWords = (P.xferWords - 1) + 1 by omega, List.range_succ, List.map_append]
  simp [programOp]

/-- Every command leaves latches that were all ones all ones. -/
theorem strobes_latches {P : Params} (hP : P.WellFormed) (i : Instr) :
    (strobesOf P i).foldl (latchStep P) (List.replicate P.rowWords (wordMask P)) =
      List.replicate P.rowWords (wordMask P) := by
  have key : ∀ cfg a ws, (programRowOps P cfg a ws).foldl (latchStep P) (List.replicate P.rowWords (wordMask P)) =
      List.replicate P.rowWords (wordMask P) := by
    intro cfg a ws; rw [programRowOps_snoc hP, List.foldl_append]; rfl
  cases i with
  | readMem a => rfl
  | eraseMem a => rfl
  | programMem a ws => exact key _ _ _
  | readCfg a => rfl
  | eraseCfg a => rfl
  | programCfg a ws => exact key _ _ _

/-- The strobes of a command go to the space of its code's bit 2 (30_encoding.md R54). -/
theorem strobes_space (P : Params) (i : Instr) :
    ∀ op ∈ strobesOf P i, op.space = spaceOf ((opcode i).getLsbD 2) := by
  have pr : ∀ cfg a ws, ∀ op ∈ programRowOps P cfg a ws, op.space = spaceOf cfg := by
    intro cfg a ws op hop
    simp only [programRowOps, List.mem_map] at hop
    obtain ⟨k, _, rfl⟩ := hop
    unfold programOp; split <;> rfl
  have b1 : spaceOf ((0x81#8).getLsbD 2) = spaceOf false := by decide
  have b2 : spaceOf ((0x82#8).getLsbD 2) = spaceOf false := by decide
  have b5 : spaceOf ((0x85#8).getLsbD 2) = spaceOf true := by decide
  have b6 : spaceOf ((0x86#8).getLsbD 2) = spaceOf true := by decide
  cases i with
  | readMem a => intro op h; cases h
  | eraseMem a =>
    intro op h; simp only [strobesOf, eraseRowOps, List.mem_singleton] at h; subst h; exact b1.symm
  | programMem a ws => intro op h; exact (pr _ _ _ op h).trans b2.symm
  | readCfg a => intro op h; cases h
  | eraseCfg a =>
    intro op h; simp only [strobesOf, eraseRowOps, List.mem_singleton] at h; subst h; exact b5.symm
  | programCfg a ws => intro op h; exact (pr _ _ _ op h).trans b6.symm

/-! ### The pending command -/

/-- There are pending strobes only before the CE_DISPATCH of a command. -/
theorem pending_cases (s : State) :
    pendingStrobes s = [] ∨ (s.flash.hung = false ∧ ceEnabled s = true ∧ s.ce.state = .dispatch ∧
      ∃ i, decode s.params s.ports.rxBuf = .command i ∧ pendingStrobes s = strobesOf s.params i) := by
  by_cases hc : (!s.flash.hung && ceEnabled s && s.ce.state == .dispatch) = true
  · unfold pendingStrobes
    rw [if_pos hc]
    simp only [Bool.and_eq_true, Bool.not_eq_true', beq_iff_eq] at hc
    split
    · exact .inr ⟨hc.1.1, hc.1.2, hc.2, _, ‹_›, rfl⟩
    · exact .inl rfl
    · exact .inl rfl
  · left; unfold pendingStrobes; rw [if_neg hc]

theorem caughtAt_some {P : Params} {f g : Flash} {ops : List FlashOp} {k : Nat} (hc : caughtAt P ops k f = some g) :
    ∃ op ∈ ops, op.writesRow = true ∧ g = scrambleRow P op (runOps P (ops.take k) (csEnter f)) := by
  unfold caughtAt at hc
  split at hc
  · rename_i op hop
    injection hc with hc
    exact ⟨op, List.mem_of_mem_drop (List.mem_of_find?_eq_some hop), List.find?_some hop, hc.symm⟩
  · cases hc

/-- A hang and a failure change the flash controller and the engine only. -/
theorem hangEvent_outside (k : Nat) (s : State) :
    SameOutside s (hangEvent k s) ∧ (hangEvent k s).ce.state = s.ce.state := by
  unfold hangEvent; split <;> exact ⟨⟨rfl, rfl, rfl, rfl, rfl, rfl, rfl⟩, rfl⟩

/-- See `hangEvent_outside`. -/
theorem failEvent_outside (k : Nat) (s : State) :
    SameOutside s (failEvent k s) ∧
      ((failEvent k s).ce.state = s.ce.state ∨ (failEvent k s).ce.state = .respond) := by
  unfold failEvent; split
  · exact ⟨⟨rfl, rfl, rfl, rfl, rfl, rfl, rfl⟩, .inr rfl⟩
  · exact ⟨⟨rfl, rfl, rfl, rfl, rfl, rfl, rfl⟩, .inl rfl⟩

end Sys2Proof.Laws
end

