-- ==== Sys2Proof/Laws/PerInstr.lean ====
section
/-! SUPPORT. A family of lemmas with one lemma per command. -/

namespace Sys2Proof.Laws

/-- The encoding of a well-formed command is a report: `REPORT_BYTES` bytes that begin with its code and its address,
high byte first, with its payload words after them, low byte first (30_encoding.md R51, R60, R61). -/
def EncodedReport.Statement (i : Instr) : Prop :=
  ∀ P : Params, P.WellFormed → i.wf P = true →
    (encode P i).length = P.reportBytes ∧ (encode P i).take (meaningfulBytes i).length = meaningfulBytes i

theorem EncodedReport.of_fits {i : Instr}
    (h : ∀ P : Params, P.WellFormed → i.wf P = true → (operandWords i).length ≤ P.xferWords) :
    EncodedReport.Statement i := by
  intro P hP hi
  have hx := hP.2.2.2.1
  have := h P hP hi
  have hl : (meaningfulBytes i).length = 3 + 2 * (operandWords i).length := by
    simp [meaningfulBytes, payloadBytes_length]; omega
  refine ⟨?_, ?_⟩
  · rw [encode, List.length_append, List.length_replicate]; omega
  · rw [encode, List.take_left]

theorem EncodedReport.readMem (a : Addr) : EncodedReport.Statement (.readMem a) :=
  EncodedReport.of_fits fun _ _ _ => Nat.zero_le _

theorem EncodedReport.eraseMem (a : Addr) : EncodedReport.Statement (.eraseMem a) :=
  EncodedReport.of_fits fun _ _ _ => Nat.zero_le _

theorem EncodedReport.programMem (a : Addr) (words : List Word) : EncodedReport.Statement (.programMem a words) :=
  EncodedReport.of_fits fun _ _ hi => Nat.le_of_eq (eq_of_beq hi)

theorem EncodedReport.readCfg (a : Addr) : EncodedReport.Statement (.readCfg a) :=
  EncodedReport.of_fits fun _ _ _ => Nat.zero_le _

theorem EncodedReport.eraseCfg (a : Addr) : EncodedReport.Statement (.eraseCfg a) :=
  EncodedReport.of_fits fun _ _ _ => Nat.zero_le _

theorem EncodedReport.programCfg (a : Addr) (words : List Word) : EncodedReport.Statement (.programCfg a words) :=
  EncodedReport.of_fits fun _ _ hi => Nat.le_of_eq (eq_of_beq hi)

end Sys2Proof.Laws
end

