-- ==== Sys2Proof/Laws/SelfTest.lean ====
section
/-! SUPPORT. The self-test steps: one lemma per step that says everything it can do (42_selftest.md). -/

namespace Sys2Proof.Laws
open Sys2Proof.Machine

/-- BOUNDARY_CHECK (R85), whatever exists: the flags only rise, and the second one only where HYBRID is supported. -/
theorem boundaryCheck_cases (s : State) :
    ∃ w n p q, clip s.params w = w ∧
      boundaryCheck s =
        { s with
          flash := { s.flash with
            fconCfg := false, fdata := w, freeCount := n
            faddr := if s.params.hybridSupported then s.params.csumAltAddr else s.params.csumAddr }
          st := { s.st with passed := p, passedAlt := q } } ∧
      (s.st.passed = true → p = true) ∧ (s.st.passedAlt = true → q = true) ∧
      (s.params.hybridSupported = false → q = s.st.passedAlt) := by
  obtain ⟨w, n, h1, h2, _⟩ := flRead_cases s.params false s.params.csumAddr s.flash
  obtain ⟨w', n', h1', h2', _⟩ := flRead_cases s.params false s.params.csumAltAddr
    { s.flash with fconCfg := false, faddr := s.params.csumAddr, fdata := w, freeCount := n }
  cases hh : s.params.hybridSupported
  · refine ⟨w, n, passedFlag s.st.passed s.crc w, s.st.passedAlt, h1, ?_, ?_, fun h => h, fun _ => rfl⟩
    · simp [boundaryCheck, hh, h2]
    · intro h; simp [passedFlag, h]
  · refine ⟨w', n', passedFlag s.st.passed s.crc w, passedAltFlag s.params s.st.passedAlt s.crc w', h1', ?_, ?_, ?_,
      by simp⟩
    · simp only [boundaryCheck, hh, h2, if_true]; rw [h2']
    · intro h; simp [passedFlag, h]
    · intro h; simp [passedAltFlag, h]

/-- A scan step (R82), whatever exists. -/
theorem scanStep_cases (s : State) :
    ∃ w n p q a c, clip s.params w = w ∧
      scanStep s =
        { s with
          crc := c
          flash := { s.flash with fconCfg := false, faddr := a, fdata := w, freeCount := n }
          st := { s.st with
            passed := p, passedAlt := q, scanAddr := s.st.scanAddr + 1#16, scanLeft := s.st.scanLeft - 1#17
            state := if s.st.scanLeft - 1#17 = 0#17 then .decide else s.st.state } } ∧
      (s.st.passed = true → p = true) ∧ (s.st.passedAlt = true → q = true) ∧
      (s.params.hybridSupported = false → q = s.st.passedAlt) ∧
      (c = s.crc ∨ ∃ w, c = crcFold s.params s.crc w) := by
  obtain ⟨w, n, h1, h2, _⟩ := flRead_cases s.params false s.st.scanAddr s.flash
  obtain ⟨c, hc, hsw⟩ : ∃ c, (c = s.crc ∨ ∃ w, c = crcFold s.params s.crc w) ∧
      scanWord s =
        { s with
          crc := c
          flash := { s.flash with fconCfg := false, faddr := s.st.scanAddr, fdata := w, freeCount := n } } := by
    unfold scanWord
    rw [h2]; dsimp only
    split
    · exact ⟨_, .inl rfl, rfl⟩
    · exact ⟨_, .inr ⟨_, rfl⟩, rfl⟩
  unfold scanStep
  rw [hsw]
  dsimp only [scanAdvance]
  by_cases hb : atBoundary s.params (s.st.scanAddr + 1#16) = true
  · rw [if_pos hb]
    obtain ⟨w', n', p, q, k1, k2, k3, k4, k5⟩ := boundaryCheck_cases (scanAdvance (scanWord s))
    rw [hsw] at k1 k2 k3 k4 k5
    dsimp only [scanAdvance] at *
    rw [k2]
    refine ⟨w', n', p, q, if s.params.hybridSupported then s.params.csumAltAddr else s.params.csumAddr, c, k1, ?_, k3,
      k4, k5, hc⟩
    by_cases hz : s.st.scanLeft - 1#17 = 0#17 <;> (simp only [hz, if_true, if_false]; try rfl)
  · rw [if_neg hb]
    refine ⟨w, n, s.st.passed, s.st.passedAlt, s.st.scanAddr, c, h1, ?_, fun h => h, fun h => h, fun _ => rfl, hc⟩
    by_cases hz : s.st.scanLeft - 1#17 = 0#17 <;> (simp only [hz, if_true, if_false]; try rfl)

/-- A scan step where the locations it reads exist. -/
theorem scanStep_implemented {s : State} (h1 : implemented s.params .pm s.st.scanAddr = true)
    (h2 : implemented s.params .pm s.params.csumAddr = true)
    (h3 : s.params.hybridSupported = true → implemented s.params .pm s.params.csumAltAddr = true) :
    let c := if isSlot s.params s.st.scanAddr then s.crc
      else crcFold s.params s.crc (memRead s.params s.flash.pm s.st.scanAddr)
    let b := atBoundary s.params (s.st.scanAddr + 1#16)
    ∃ a w, scanStep s =
      { s with
        crc := c
        flash := { s.flash with fconCfg := false, faddr := a, fdata := w }
        st := { s.st with
          passed := s.st.passed || (b && c == memRead s.params s.flash.pm s.params.csumAddr)
          passedAlt := s.st.passedAlt || (s.params.hybridSupported && b &&
            (c ^^^ s.params.hybridXor) == memRead s.params s.flash.pm s.params.csumAltAddr)
          scanAddr := s.st.scanAddr + 1#16
          scanLeft := s.st.scanLeft - 1#17
          state := if s.st.scanLeft - 1#17 = 0#17 then .decide else s.st.state } } := by
  intro c b
  have hsw : scanWord s =
      { s with
        crc := c
        flash := { s.flash with
          fconCfg := false, faddr := s.st.scanAddr, fdata := memRead s.params s.flash.pm s.st.scanAddr } } := by
    unfold scanWord
    rw [flRead_implemented _ h1]; dsimp only
    split
    · rename_i h; simp [c, h, Flash.array]
    · rename_i h; simp [c, h, crcUpdate, Flash.array]
  unfold scanStep
  rw [hsw]
  dsimp only [scanAdvance]
  cases hb : atBoundary s.params (s.st.scanAddr + 1#16)
  · have hb' : b = false := hb
    refine ⟨s.st.scanAddr, memRead s.params s.flash.pm s.st.scanAddr, ?_⟩
    simp only [hb', Bool.false_and, Bool.and_false, Bool.or_false]
    by_cases hz : s.st.scanLeft - 1#17 = 0#17 <;> simp [hz]
  · have hb' : b = true := hb
    simp only [hb', if_true, Bool.true_and, Bool.and_true]
    unfold boundaryCheck
    dsimp only
    rw [flRead_implemented _ (show implemented s.params (spaceOf false) s.params.csumAddr = true from h2)]
    by_cases hh : s.params.hybridSupported = true
    · rw [if_pos hh]
      dsimp only
      rw [flRead_implemented _ (show implemented s.params (spaceOf false) s.params.csumAltAddr = true from h3 hh)]
      refine ⟨s.params.csumAltAddr, memRead s.params s.flash.pm s.params.csumAltAddr, ?_⟩
      by_cases hz : s.st.scanLeft - 1#17 = 0#17 <;> simp [hz, hh, passedFlag, passedAltFlag, Flash.array]
    · rw [if_neg hh]
      rw [Bool.not_eq_true] at hh
      simp only [hh, Bool.false_and, Bool.or_false]
      refine ⟨s.params.csumAddr, memRead s.params s.flash.pm s.params.csumAddr, ?_⟩
      by_cases hz : s.st.scanLeft - 1#17 = 0#17 <;> simp [hz, passedFlag, Flash.array]

/-- The decision step (R87, R89) as one record. -/
theorem decideStep_eq (s : State) :
    decideStep s =
      let mode := decideMode s.params s.ports.pinIn s.st.passed s.st.passedAlt s.ports.nTO
      { s with
        st := { s.st with
          bootMode := mode
          pullupEn := false
          state := .done
          bootKind := match mode with
            | .residentApplication => .jump
            | .hybrid => .call
            | .bootloader => s.st.bootKind }
        outputs := match mode with
          | .residentApplication => [.bootGo .jump]
          | .hybrid => [.bootGo .call]
          | .bootloader => s.outputs
        mcuPc := match mode with
          | .residentApplication => some s.params.residentVector
          | .hybrid => s.mcuPc
          | .bootloader => s.mcuPc } := by
  unfold decideStep handoff
  dsimp only
  cases decideMode s.params s.ports.pinIn s.st.passed s.st.passedAlt s.ports.nTO <;> rfl

end Sys2Proof.Laws
end

