-- ==== Sys2Proof/Tests/Slice0.lean ====
section
/-! SUPPORT. The model's own tests: ill-formed terms that the checks refuse, words written out from the spec's
encodings, the vectors of 95_test_vectors.md on single steps, and one witness for every statement with hypotheses. -/

namespace Sys2Proof.Tests
open Sys2Proof.Machine Sys2Proof.Laws

set_option Elab.async false

/-! ## Builders -/

/-- The outcome is a next state with the property. -/
def nextIs (o : Host.Outcome State Fault Refusal) (p : State → Bool) : Bool :=
  match o with
  | .next s => p s
  | .fault _ => false
  | .refused _ => false

theorem exists_next {o : Host.Outcome State Fault Refusal} {p : State → Bool} (h : nextIs o p = true) :
    ∃ t, o = .next t ∧ p t = true := by
  cases o with
  | next t => exact ⟨t, rfl, h⟩
  | fault r => cases h
  | refused r => cases h

theorem next_exists {o : Host.Outcome State Fault Refusal} (h : nextIs o (fun _ => true) = true) : ∃ t, o = .next t :=
  (exists_next h).imp fun _ h => h.1

/-- A report of `P_ref`: some bytes and zeros. -/
def report (bytes : List Byte) : List Byte := bytes ++ List.replicate (64 - bytes.length) 0#8

/-- Words put into a blank array under `P_ref`. -/
def array (cells : List (Addr × Word)) : Memory :=
  cells.foldl (fun m c => memWrite Config.pRef m c.1 c.2) []

/-- The sequencer after a self-test that selected `mode`. -/
def decided (mode : BootMode) : SelfTest :=
  { State.reset.st with state := .done, bootMode := mode }

/-- The machine under `P` with blank flash, the self-test at `t`, the engine at `c` and a request in `rx_buf`. -/
def machine (P : Params) (t : SelfTest) (c : EngineState) (rx : List Byte) : State :=
  { State.reset with
    params := P
    flash := { State.reset.flash with latches := List.replicate P.rowWords (wordMask P) }
    st := t
    ce := { State.reset.ce with state := c, txLen := 3, txBuf := rx }
    ports := { State.reset.ports with configured := true, rxFull := true, rxBuf := rx } }

/-- The engine about to dispatch a request under `P_ref`, with words in program and configuration memory. -/
def serving (pm cm : List (Addr × Word)) (bytes : List Byte) : State :=
  let s := machine Config.pRef (decided .bootloader) .dispatch (report bytes)
  { s with flash := { s.flash with pm := array pm, cm := array cm } }

/-- A small record: rows of four words, a region of four words, a comparison every two. -/
def small : Params :=
  { Config.pRef with
    rowWords := 4, xferWords := 2, reportBytes := 8, checkStride := 2, scanStart := 0, scanEnd := 4
    csumAddr := 3#16 }

/-- `small` with HYBRID and its second slot. -/
def smallHybrid : Params := { small with hybridSupported := true, csumAltAddr := 2#16 }

theorem small_wf : small.WellFormed := by decide
theorem smallHybrid_wf : smallHybrid.WellFormed := by decide
theorem pRef_wf : Config.pRef.WellFormed := by decide

theorem machine_flash_sound {P : Params} (t : SelfTest) (c : EngineState) (rx : List Byte) :
    (machine P t c rx).flash.Sound P :=
  ⟨⟨rfl, rfl, by simp [machine, State.reset, clip], by simp [machine], (latchesFit_ones P).2,
    fun sp => by cases sp <;> rfl⟩, rfl, fun _ => rfl⟩

/-- The builder makes sound states. -/
theorem machine_inv {P : Params} (hP : P.WellFormed) {t : SelfTest} (ht : t.Sound P) (hm : t.bootMode ≠ .residentApplication)
    {c : EngineState} (hc : c = .idle ∨ (t.state = .done)) {rx : List Byte} (hr : rx.length = P.reportBytes) :
    (machine P t c rx).Inv := by
  refine ⟨hP, machine_flash_sound t c rx, ht, hr, hr, ?_, fun _ => rfl, fun _ => rfl, fun _ => rfl, fun _ => .inl rfl,
    ?_, ?_, (by intro h; cases h)⟩
  · intro h
    rcases hc with h' | h'
    · exact absurd h' h
    · show ((t.state == .done) && (t.bootMode == .bootloader || t.bootMode == .hybrid)) = true
      rw [h']; cases hb : t.bootMode <;> simp_all
  · intro h; cases h
  · show none = if t.bootMode = .residentApplication then _ else _
    rw [if_neg hm]

theorem decided_sound {P : Params} : (decided .bootloader).Sound P :=
  ⟨fun h => absurd rfl h, (by intro h; cases h), (by intro h; cases h), rfl, (by intro h; cases h), (by intro h; cases h)⟩

theorem serving_inv (bytes : List Byte) (h : (report bytes).length = 64) : (serving [] [] bytes).Inv :=
  machine_inv pRef_wf decided_sound (by decide) (.inr rfl) h

/-- The self-test right after reset under `P`. -/
theorem fresh_sound {P : Params} : State.reset.st.Sound P :=
  ⟨fun _ => rfl, (by intro h; cases h), (by intro h; cases h), rfl, (by intro h; cases h), (by intro h; cases h)⟩

/-! ## Ill-formed terms -/

theorem test_payload_too_short : (Instr.programMem 0#16 (List.replicate 15 0#16)).wf Config.pRef = false := by decide
theorem test_payload_too_long : (Instr.programCfg 0#16 (List.replicate 17 0#16)).wf Config.pRef = false := by decide
theorem test_wordBits_refused :
    ¬ { Config.pRef with wordBits := 0, erasedWord := 0#16 }.WellFormed ∧
      ¬ { Config.pRef with wordBits := 17 }.WellFormed := by decide
theorem test_rowWords_refused :
    ¬ { small with rowWords := 1, xferWords := 1 }.WellFormed ∧ ¬ { small with rowWords := 6, xferWords := 3 }.WellFormed := by
  decide
theorem test_xferWords_refused : ¬ { Config.pRef with xferWords := 8 }.WellFormed := by decide
theorem test_reportBytes_refused : ¬ { Config.pRef with reportBytes := 34 }.WellFormed := by decide
theorem test_region_refused :
    ¬ { Config.pRef with scanStart := 0x0800 }.WellFormed ∧ ¬ { Config.pRef with scanEnd := 65537 }.WellFormed := by decide
theorem test_stride_refused :
    ¬ { Config.pRef with checkStride := 3 }.WellFormed ∧ ¬ { Config.pRef with checkStride := 131072 }.WellFormed := by
  decide
theorem test_erasedWord_refused : ¬ { Config.pRef with erasedWord := 0x4000#16 }.WellFormed := by decide
theorem test_array_form_refused :
    Memory.wf Config.pRef [(4, 0#8), (2, 0#8)] = false ∧ Memory.wf Config.pRef [(2, 0xFF#8)] = false ∧
      Memory.wf Config.pRef [(3, 0x40#8)] = false ∧ Memory.wf Config.pRef [(131072, 0#8)] = false := by decide

/-! ## Encodings, written out from 30_encoding.md R58, R34, R35 -/

theorem test_decode_readMem : decode Config.pRef (report [0x80#8, 0x12#8, 0x34#8]) = .command (.readMem 0x1234#16) := by
  decide
theorem test_decode_eraseMem : decodeTableWord 24 0b000101010001000010000001 = some (.eraseMem 0x1015#16) := by decide
theorem test_decode_programMem :
    decodeTableWord 40 0b0111111111111110000110000001000010000010 =
      some (.programMem 0x1018#16 (0x7FFE#16 :: List.replicate 15 0#16)) := by decide
theorem test_decode_readCfg : decodeTableWord 24 0b000000011000000010000100 = some (.readCfg 0x8001#16) := by decide
theorem test_decode_eraseCfg : decodeTableWord 24 0b000111111000000010000101 = some (.eraseCfg 0x801F#16) := by decide
theorem test_decode_programCfg :
    decodeTableWord 40 0b0001111010000100000000001000000010000110 =
      some (.programCfg 0x8000#16 (0x1E84#16 :: List.replicate 15 0#16)) := by decide
/-- All eight bits of the code count (30_encoding.md R59). -/
theorem test_decode_unrecognised :
    [0x00#8, 0x7F#8, 0x83#8, 0x87#8, 0x88#8, 0xC0#8, 0xFF#8].all
      (fun c => decode Config.pRef (report [c]) == .unrecognised c) = true := by decide
theorem test_decode_short : decode Config.pRef [0x80#8, 0#8, 0#8] = .notAReport 3 := by decide
/-- 30_encoding.md R61. -/
theorem test_encode_programMem :
    (encode Config.pRef (.programMem 0x1000#16 ((List.range 16).map fun k => 0x0100#16 + BitVec.ofNat 16 k))).take 7 =
      [0x82#8, 0x10#8, 0x00#8, 0x00#8, 0x01#8, 0x01#8, 0x01#8] := by decide

/-! ## The CRC unit (V-CRC-1, V-CRC-3, V-CRC-4, V-CRC-5) -/

/-- Both columns of a vector. -/
def crcBoth (n : Nat) (c w : Word) : Word × Word :=
  (crcFold { Config.pRef with wordBits := n, crcPoly := 0xA001#16 } c w, crcFold { Config.pRef with wordBits := n } c w)

theorem test_crc_from_zero :
    [0x0001#16, 0x0002#16, 0x2000#16, 0x3FFF#16, 0x1234#16, 0xF234#16].map (crcBoth 14 0#16) =
      [(0xC002#16, 0x1696#16), (0xC007#16, 0x2D2C#16), (0xA001#16, 0x23B1#16), (0x4001#16, 0x30AC#16),
        (0xF65D#16, 0x0068#16), (0x565C#16, 0x23D9#16)] := by decide +kernel
theorem test_crc_from_nonzero :
    [(0xFFFF#16, 0x0000#16), (0x0001#16, 0x0001#16), (0x1234#16, 0x3FFF#16), (0xC0C1#16, 0x0001#16)].map
        (fun cw => crcBoth 14 cw.1 cw.2) =
      [(0x4002#16, 0x30AF#16), (0#16, 0#16), (0xB65C#16, 0x30C4#16), (0x0143#16, 0x08A8#16)] := by decide +kernel
theorem test_crc_widths :
    [8, 12, 16].map (fun n => crcBoth n 0#16 0x1234#16) =
      [(0xD701#16, 0x1A12#16), (0x1970#16, 0x01A1#16), (0xCD96#16, 0x001A#16)] := by decide +kernel
theorem test_crc_order :
    checksum Config.pRef [0x1234#16, 0x2345#16, 0x3456#16, 0x0567#16] = 0x046F#16 ∧
      checksum Config.pRef [0x0567#16, 0x3456#16, 0x2345#16, 0x1234#16] = 0x08D2#16 := by decide +kernel
/-- V-ST-1: what a blank region of 256 words with its slot left out sums to. -/
theorem test_crc_blank_region : checksum Config.pRef (List.replicate 255 0x3FFF#16) = 0x2CF1#16 := by decide +kernel

/-! ## The flash controller (V-FL-1) -/

/-- `PM` as V-FL-1 has it, where it looks. -/
def flash0 : Flash := (serving [(0x0FFF#16, 0#16), (0x1003#16, 0#16), (0x1020#16, 0#16)] [] []).flash
def flash1 : Flash := flErase Config.pRef false 0x1010#16 flash0
def flash2 : Flash := flLoad Config.pRef false 0x1003#16 0xD234#16 flash1
def flash3 : Flash := flWrite Config.pRef false 0x100F#16 0x0AAA#16 flash2
def flash4 : Flash := flWrite Config.pRef false 0x1003#16 0x0F0F#16 flash3

theorem test_flErase :
    [0x0FFF#16, 0x1003#16, 0x101F#16, 0x1020#16].map (memRead Config.pRef flash1.pm) =
      [0#16, 0x3FFF#16, 0x3FFF#16, 0#16] ∧ flash1.faddr = 0x1010#16 := by decide +kernel
theorem test_flLoad :
    flash2.latches[3]? = some 0x1234#16 ∧ flash2.fdata = 0x1234#16 ∧
      memRead Config.pRef flash2.pm 0x1003#16 = 0x3FFF#16 := by decide +kernel
theorem test_flWrite :
    [0x1003#16, 0x1004#16, 0x100F#16].map (memRead Config.pRef flash3.pm) = [0x1234#16, 0x3FFF#16, 0x0AAA#16] ∧
      flash3.latches = List.replicate 32 0x3FFF#16 := by decide +kernel
theorem test_flWrite_ands :
    [0x1003#16, 0x100F#16].map (memRead Config.pRef flash4.pm) = [0x0204#16, 0x0AAA#16] := by decide +kernel
theorem test_flRead :
    (flRead Config.pRef false 0x1003#16 flash4).fdata = 0x0204#16 ∧
      (flRead Config.pRef true 0x1003#16 flash4).fdata = 0x3FFF#16 := by decide +kernel
/-- The strobe does nothing without the unlock (41_flash_primitives.md R71). -/
theorem test_strobe_locked : writeStrobe Config.pRef { flash0 with fconErase := true } = { flash0 with fconErase := true } := by
  decide +kernel

/-! ## The six commands, one step each (V-CMD-1, P2) -/

/-- V-CMD-1 line 1. -/
theorem test_readMem_wraps :
    nextIs (step (serving
        ((List.range 8).map (fun i => (0xFFF8#16 + BitVec.ofNat 16 i, 0x10F8#16 + BitVec.ofNat 16 i)) ++
          (List.range 8).map (fun i => (BitVec.ofNat 16 i, 0x2000#16 + BitVec.ofNat 16 i))) [] [0x80#8, 0xFF#8, 0xF8#8]))
      (fun t => t.ce.txBuf.take 7 == [0x80#8, 0xFF#8, 0xF8#8, 0xF8#8, 0x10#8, 0xF9#8, 0x10#8] &&
        (t.ce.txBuf.drop 17).take 4 == [0xFF#8, 0x10#8, 0x00#8, 0x20#8] && t.ce.txLen == 35 &&
        t.flash.faddr == 0x0007#16) = true := by decide +kernel

/-- V-CMD-1 line 2. -/
theorem test_eraseMem_misaligned :
    nextIs (step (serving [(0x0FFF#16, 0#16), (0x1000#16, 0#16), (0x101F#16, 0#16), (0x1020#16, 0#16)] []
        [0x81#8, 0x10#8, 0x15#8]))
      (fun t => [0x0FFF#16, 0x1000#16, 0x101F#16, 0x1020#16].map (memRead Config.pRef t.flash.pm) ==
          [0#16, 0x3FFF#16, 0x3FFF#16, 0#16] && t.ce.txLen == 3 && t.ce.txBuf.take 3 == [0x81#8, 0x10#8, 0x15#8]) =
      true := by decide +kernel

/-- V-CMD-1 lines 3 and 4. -/
theorem test_programMem_ands :
    nextIs (step (serving [(0x1010#16, 0x3F0F#16)] []
        [0x82#8, 0x10#8, 0x10#8, 0xFF#8, 0x30#8, 0x00#8, 0xC0#8, 0xFE#8, 0x7F#8]))
      (fun t => [0x1010#16, 0x1011#16, 0x1012#16, 0x1013#16, 0x1020#16].map (memRead Config.pRef t.flash.pm) ==
          [0x300F#16, 0#16, 0x3FFE#16, 0#16, 0x3FFF#16] && t.ce.txLen == 3) = true := by decide +kernel

/-- V-CMD-1 line 7: the transfer straddles two rows. -/
theorem test_programMem_straddles :
    nextIs (exec (.programMem 0x1018#16 ((List.range 16).map fun k => 0x0200#16 + BitVec.ofNat 16 k)) (serving [] [] []))
      (fun t => [0x1018#16, 0x101F#16, 0x1020#16, 0x1027#16, 0x1028#16, 0x1037#16, 0x1038#16, 0x103F#16].map
          (memRead Config.pRef t.flash.pm) ==
        [0x3FFF#16, 0x3FFF#16, 0x0208#16, 0x020F#16, 0x3FFF#16, 0x3FFF#16, 0x0200#16, 0x0207#16]) = true := by
  decide +kernel

/-- P2 steps 5 and 6: the two spaces are separate. -/
theorem test_readCfg :
    nextIs (step (serving [(0x8001#16, 0#16)] [(0x8001#16, 0x1E84#16)] [0x84#8, 0x80#8, 0x00#8]))
      (fun t => t.ce.txBuf.take 7 == [0x84#8, 0x80#8, 0x00#8, 0xFF#8, 0x3F#8, 0x84#8, 0x1E#8] && t.flash.fconCfg) =
      true := by decide +kernel

/-- P2 step 3. -/
theorem test_eraseCfg :
    nextIs (step (serving [(0x8001#16, 0#16)] [(0x8001#16, 0#16)] [0x85#8, 0x80#8, 0x00#8]))
      (fun t => t.flash.cm == [] && memRead Config.pRef t.flash.pm 0x8001#16 == 0#16) = true := by decide +kernel

/-- V-CMD-1 line 6, second request. -/
theorem test_programCfg_ands :
    nextIs (exec (.programCfg 0x8000#16 (0x00FF#16 :: List.replicate 15 0x3FFF#16))
        (serving [] [(0x8000#16, 0x3F00#16), (0x8001#16, 0x3F00#16)] []))
      (fun t => [0x8000#16, 0x8001#16, 0x8002#16].map (memRead Config.pRef t.flash.cm) ==
        [0#16, 0x3F00#16, 0x3FFF#16]) = true := by decide +kernel

/-- A transfer that straddles two rows of configuration memory lands in both (43_commands.md R103). -/
theorem test_programCfg_straddles :
    nextIs (exec (.programCfg 0x801F#16 (List.replicate 16 0#16)) (serving [] [] []))
      (fun t => [0x801E#16, 0x801F#16, 0x8020#16, 0x802E#16, 0x802F#16].map (memRead Config.pRef t.flash.cm) ==
        [0x3FFF#16, 0#16, 0#16, 0#16, 0x3FFF#16]) = true := by decide +kernel

/-- P2 step 1. -/
theorem test_unrecognised :
    nextIs (step (serving [] [] [0xFF#8, 0x12#8, 0x34#8]))
      (fun t => t.ce.txBuf.take 3 == [0xFF#8, 0x12#8, 0x34#8] && t.ce.txLen == 3 && t.ce.cmd == 0xFF#8 && t.ce.cfgMode &&
        t.ce.reqAddr == 0x1234#16 && t.flash == (serving [] [] []).flash) = true := by decide +kernel

/-! ## Self-test and decision (42_selftest.md R82 to R87) -/

/-- The last scan step of the small region: address 3 is the slot and is not folded, 4 is a boundary. -/
def lastScan (stored : Word) (c : Word) : State :=
  let s := machine small
    { State.reset.st with state := .scan, scanAddr := 3#16, scanLeft := 1#17, pullupEn := true } .idle
    (List.replicate 8 0#8)
  { s with crc := c, flash := { s.flash with pm := memWrite small [] 3#16 stored } }

theorem test_scan_slot_and_boundary :
    nextIs (step (lastScan 0x1234#16 0x1234#16)) (fun t => t.crc == 0x1234#16 && t.st.passed && t.st.state == .decide) =
      true := by decide +kernel
/-- All 16 bits are compared (90_conflicts.md C8). -/
theorem test_boundary_compares_16_bits :
    nextIs (step (lastScan 0x1234#16 0x5234#16)) (fun t => !t.st.passed) = true := by decide +kernel

/-- The truth table of R87 without HYBRID: pin, passed, nTO. -/
theorem test_decision_table :
    (decideMode Config.pRef true true false true, decideMode Config.pRef false true false true,
      decideMode Config.pRef true false true true, decideMode Config.pRef true true false false) =
    (.residentApplication, .bootloader, .bootloader, .bootloader) := by decide
/-- With HYBRID: RESIDENT_APPLICATION is tested first. -/
theorem test_decision_hybrid :
    (decideMode smallHybrid true true true true, decideMode smallHybrid true false true true,
      decideMode smallHybrid true false true false) = (.residentApplication, .hybrid, .bootloader) := by decide

/-! ## A request served, a reset, a hang (43_commands.md R93, R96; 70_reset_and_hazards.md R122; U6) -/

/-- The engine at `c` with a READ_MEM request, under `small`. -/
def engineAt (c : EngineState) : State :=
  machine small (decided .bootloader) c [0x80#8, 0#8, 0#8, 0#8, 0#8, 0#8, 0#8, 0#8]

theorem test_respond :
    nextIs (step (engineAt .respond)) (fun t => t.ce.state == .rearm && !t.ports.txFree && t.ports.rxFull &&
      t.outputs == [.txSubmit [0x80#8, 0#8, 0#8, 0#8, 0#8, 0#8, 0#8, 0#8] 3]) = true := by decide +kernel
theorem test_rearm :
    nextIs (step (engineAt .rearm)) (fun t => t.ce.state == .idle && !t.ports.rxFull && t.outputs == [.rxRearm]) =
      true := by decide +kernel

/-- A watchdog reset, between steps or during micro-operation `during` of an erase under `small`. -/
def resetting (during : Option Nat) : State :=
  { machine small (decided .bootloader) .dispatch [0x81#8, 0#8, 5#8, 0#8, 0#8, 0#8, 0#8, 0#8] with
    inputs := [.reset .watchdog during (engineAt .idle).ports] }

theorem test_reset :
    nextIs (step (resetting none)) (fun t => t.st.state == .reset && t.ce.state == .idle && !t.ports.nTO &&
      t.flash.pm == [] && t.st.bootMode == .bootloader && t.flash.latches == List.replicate 4 0x3FFF#16) = true := by
  decide +kernel

/-- The pending erase hangs. -/
def hanging : State := { resetting none with inputs := [.flashHangs 0] }

theorem test_hang :
    nextIs (step hanging) (fun t => t.flash.hung && t.flash.intInhibit && t.ce.state == .dispatch) = true := by
  decide +kernel

/-! ## Witnesses: states and operands that meet the hypotheses of the statements -/

/-- A payload of `n` equal words. -/
def payload (n : Nat) : List Word := List.replicate n 0x00FF#16

theorem engineAt_inv (c : EngineState) : (engineAt c).Inv :=
  machine_inv small_wf decided_sound (by decide) (.inr rfl) rfl

theorem engineAt_block (c : EngineState) : (engineAt c).blockNext := ⟨rfl, rfl⟩

/-- The self-test right after reset under `small`. -/
def fresh : State := machine small State.reset.st .idle (List.replicate 8 0#8)

theorem fresh_inv : fresh.Inv := machine_inv small_wf fresh_sound (by decide) (.inl rfl) rfl

/-- The self-test at its last scan step under `small`. -/
theorem lastScan_inv : (lastScan 0x3FFF#16 0#16).Inv :=
  machine_inv small_wf
    ⟨fun _ => rfl, (by intro h; cases h), (by intro h; cases h), rfl, fun _ => by decide, fun _ => by decide⟩ (by decide)
    (.inl rfl) rfl

/-- About to decide under `smallHybrid`. -/
def deciding (passed passedAlt : Bool) : State :=
  let s := machine smallHybrid
    { State.reset.st with state := .decide, passed := passed, passedAlt := passedAlt, pullupEn := true } .idle
    (List.replicate 8 0#8)
  { s with ports := { s.ports with pinIn := true } }

/-- About to decide after a watchdog time-out, with the pin high and the checksum met (60_exceptions.md R114 (a)). -/
def timedOut : State :=
  { deciding true false with ports := { (deciding true false).ports with nTO := false } }

theorem timedOut_inv : timedOut.Inv := by
  have h : (deciding true false).Inv := by
    have h := machine_inv smallHybrid_wf
      (t := { State.reset.st with state := .decide, passed := true, passedAlt := false, pullupEn := true })
      ⟨fun _ => rfl, (by intro h; cases h), (by intro h; cases h), rfl, (by intro h; cases h), (by intro h; cases h)⟩
      (by decide) (c := .idle) (.inl rfl) (rx := List.replicate 8 0#8) rfl
    exact ⟨h.1, h.2, h.3, h.4, h.5, h.6, h.7, h.8, h.9, h.10, h.11, h.12, h.13⟩
  exact ⟨h.1, h.2, h.3, h.4, h.5, h.6, h.7, h.8, h.9, h.10, h.11, h.12, fun _ => rfl⟩

theorem witness_DecodeOfEncodeIsTheCommand :
    Config.pRef.WellFormed ∧ (Instr.programCfg 0xFFFF#16 (payload 16)).wf Config.pRef = true := by decide

theorem witness_DecodedCommandHasTheReportsBytes :
    Config.pRef.WellFormed ∧ ∃ i, decode Config.pRef (report [0x82#8, 0x10#8]) = .command i :=
  ⟨pRef_wf, _, rfl⟩

theorem witness_ExactlySixCodesAreRecognised :
    Config.pRef.WellFormed ∧ 3 + (List.replicate 61 0#8).length = Config.pRef.reportBytes ∧
      (∃ i, decode Config.pRef (0x86#8 :: 0#8 :: 0#8 :: List.replicate 61 0#8) = .command i) ∧
      0x87#8 ∉ [0x80#8, 0x81#8, 0x82#8, 0x84#8, 0x85#8, 0x86#8] :=
  ⟨pRef_wf, rfl, ⟨_, rfl⟩, by decide⟩

theorem witness_StepRunsTheDecodedCommand :
    (engineAt .dispatch).params.WellFormed ∧ (engineAt .dispatch).blockNext ∧ ceEnabled (engineAt .dispatch) = true ∧
      (engineAt .dispatch).ce.state = .dispatch ∧
      decode (engineAt .dispatch).params (engineAt .dispatch).ports.rxBuf = .command (.readMem 0#16) :=
  ⟨small_wf, engineAt_block _, rfl, rfl, rfl⟩

/-- The second part of the same statement: the schedule says that the block steps. -/
theorem witness_StepRunsTheDecodedCommand_scheduled :
    let s := { engineAt .dispatch with inputs := [.proceed, .pin true] }
    s.params.WellFormed ∧ s.inputs = .proceed :: [.pin true] ∧ s.flash.hung = false ∧ ceEnabled s = true ∧
      s.ce.state = .dispatch ∧ decode s.params s.ports.rxBuf = .command (.readMem 0#16) :=
  ⟨small_wf, rfl, rfl, rfl, rfl, rfl⟩

/-- Ready, and each of the three levels missing in turn. -/
theorem witness_EngineLeavesIdleExactlyWhenReady :
    (engineAt .idle).params.WellFormed ∧ (engineAt .idle).blockNext ∧ (engineAt .idle).st.state = .done ∧
      (engineAt .idle).ce.state = .idle ∧ ceEnabled (engineAt .idle) = true ∧
      requestReady (engineAt .idle).ports = true ∧
      requestReady { (engineAt .idle).ports with configured := false } = false ∧
      requestReady { (engineAt .idle).ports with rxFull := false } = false ∧
      requestReady { (engineAt .idle).ports with txFree := false } = false :=
  ⟨small_wf, engineAt_block _, rfl, rfl, rfl, rfl, rfl, rfl, rfl⟩

theorem witness_DisabledEngineStaysIdle :
    fresh.Inv ∧ fresh.noResetNext ∧ ceEnabled fresh = false ∧ (∃ t, step fresh = .next t) ∧
      ceEnabled (engineAt .idle) = true :=
  ⟨fresh_inv, (by intro _ _ _ _ h; cases h), rfl, next_exists (by decide +kernel), rfl⟩

/-- A Read request, an unrecognised one with bit 2 set and one with it clear. -/
theorem witness_EveryDispatchDecodesAndEchoesTheHeader :
    (engineAt .dispatch).Inv ∧ (engineAt .dispatch).blockNext ∧ (engineAt .dispatch).ce.state = .dispatch ∧
      bufByte (engineAt .dispatch).ports.rxBuf 0 = 0x80#8 ∧
      (serving [] [] [0xFF#8, 0x12#8, 0x34#8]).Inv ∧ (serving [] [] [0xFF#8, 0x12#8, 0x34#8]).blockNext ∧
      (bufByte (serving [] [] [0xFF#8, 0x12#8, 0x34#8]).ports.rxBuf 0).getLsbD 2 = true ∧
      (serving [] [] [0x83#8]).Inv ∧ (bufByte (serving [] [] [0x83#8]).ports.rxBuf 0).getLsbD 2 = false :=
  ⟨engineAt_inv _, engineAt_block _, rfl, rfl, serving_inv _ rfl, ⟨rfl, rfl⟩, by decide, serving_inv _ rfl, by decide⟩

/-- Both clauses, and for the third the two steps that give an event. -/
theorem witness_RespondSubmitsThenRearmReleases :
    (engineAt .respond).params.WellFormed ∧ (engineAt .respond).blockNext ∧ ceEnabled (engineAt .respond) = true ∧
      (engineAt .respond).ce.state = .respond ∧ (engineAt .rearm).blockNext ∧ ceEnabled (engineAt .rearm) = true ∧
      (engineAt .rearm).ce.state = .rearm ∧
      nextIs (step (engineAt .respond)) (fun t => t.outputs == [.txSubmit (engineAt .respond).ce.txBuf 3]) = true ∧
      nextIs (step (engineAt .rearm)) (fun t => t.outputs == [.rxRearm]) = true :=
  ⟨small_wf, engineAt_block _, rfl, rfl, engineAt_block _, rfl, rfl, by decide +kernel, by decide +kernel⟩

/-- The engine at rest while the transport shows a level and does one thing. -/
def transportAt (full free : Bool) (i : Input) : State :=
  let s := engineAt .idle
  { s with ports := { s.ports with rxFull := full, txFree := free }, inputs := [i] }

/-- Each clause: the two events (above), the response gone, a new report, and a level that is kept. -/
theorem witness_TransportLevelsFollowTheEvents :
    (engineAt .respond).noResetNext ∧ (engineAt .rearm).noResetNext ∧
      (transportAt false false .responseGone).noResetNext ∧
      nextIs (step (transportAt false false .responseGone)) (fun t => t.ports.txFree && !t.ports.rxFull) = true ∧
      nextIs (step (transportAt false true (.receive (List.replicate 8 7#8))))
        (fun t => t.ports.rxFull && t.ports.rxBuf == List.replicate 8 7#8) = true ∧
      nextIs (step (transportAt true false .responseGone)) (fun t => t.ports.rxFull) = true :=
  ⟨(by intro _ _ _ _ h; cases h), (by intro _ _ _ _ h; cases h), (by intro _ _ _ _ h; cases h), by decide +kernel,
    by decide +kernel, by decide +kernel⟩

theorem witness_EveryRequestIsServedOnceAndEngineReturnsToIdle :
    (engineAt .idle).Inv ∧ (engineAt .idle).blockNext ∧ ceEnabled (engineAt .idle) = true ∧
      (engineAt .idle).ce.state = .idle ∧ requestReady (engineAt .idle).ports = true :=
  ⟨engineAt_inv _, engineAt_block _, rfl, rfl, rfl⟩

theorem witness_UnrecognisedRequestIsOnlyEchoed :
    (serving [] [] [0x83#8]).Inv ∧ (serving [] [] [0x83#8]).blockNext ∧
      (serving [] [] [0x83#8]).ce.state = .dispatch ∧
      (serving [] [] [0x83#8]).ports.rxBuf = 0x83#8 :: 0#8 :: 0#8 :: List.replicate 61 0#8 ∧
      0x83#8 ∉ [0x80#8, 0x81#8, 0x82#8, 0x84#8, 0x85#8, 0x86#8] :=
  ⟨serving_inv _ rfl, ⟨rfl, rfl⟩, rfl, rfl, by decide⟩

theorem witness_RequestStartsOnlyWithFreeAndFullBuffers :
    ∃ t, step (engineAt .idle) = .next t ∧ (engineAt .idle).ce.state ≠ .dispatch ∧ t.ce.state = .dispatch :=
  (exists_next (p := fun t => t.ce.state == .dispatch) (by decide +kernel)).imp
    fun _ h => ⟨h.1, by decide, by simpa using h.2⟩

theorem witness_BlockAlwaysHasANextState : (engineAt .dispatch).Inv ∧ (engineAt .dispatch).blockNext :=
  ⟨engineAt_inv _, engineAt_block _⟩

theorem witness_BytesBeyondTxLenAreStale :
    (engineAt .dispatch).noResetNext ∧ ∃ t, step (engineAt .dispatch) = .next t ∧ t.ce.txLen ≤ 7 :=
  ⟨(by intro _ _ _ _ h; cases h),
    (exists_next (p := fun t => decide (t.ce.txLen ≤ 7)) (by decide +kernel)).imp fun _ h => ⟨h.1, by simpa using h.2⟩⟩

theorem witness_OnlyHeaderOfReadAndEraseIsRead :
    let s := engineAt .dispatch
    let other := [0x80#8, 0#8, 0#8, 1#8, 2#8, 3#8, 4#8, 5#8]
    s.params.WellFormed ∧ s.blockNext ∧ s.ce.state = .dispatch ∧ ceEnabled s = true ∧
      s.ports.rxBuf.length = s.params.reportBytes ∧ other.length = s.params.reportBytes ∧
      other.take 3 = s.ports.rxBuf.take 3 ∧ bufByte other 0 ≠ 0x82#8 ∧ bufByte other 0 ≠ 0x86#8 ∧
      ∃ t, step s = .next t :=
  ⟨small_wf, engineAt_block _, rfl, rfl, rfl, rfl, rfl, by decide, by decide,
    next_exists (by decide +kernel)⟩

/-- For the statements on READ, ERASE and PROGRAM: at the top of the address space the transfer wraps. -/
theorem witness_commands :
    let s := engineAt .dispatch
    s.params.WellFormed ∧ s.flash.Sound s.params ∧ s.flash.hung = false ∧ s.ce.txBuf.length = s.params.reportBytes ∧
      (payload 2).length = s.params.xferWords ∧ implemented s.params .pm (wordAddr 0xFFFF#16 1) = true ∧
      implemented s.params .cm (wordAddr 0xFFFF#16 1) = true :=
  ⟨small_wf, machine_flash_sound _ _ _, rfl, rfl, rfl, rfl, rfl⟩

/-- Of the clauses on a word of the row: the first address of the row, one outside it, and one that does not exist. -/
theorem witness_row_clauses :
    rowBase small 0x1000#16 = rowBase small 0x1003#16 ∧ rowBase small 0x1004#16 ≠ rowBase small 0x1003#16 ∧
      implemented { small with unimplemented := [⟨.pm, 0x1003, 0x1003⟩] } .pm 0x1003#16 = false ∧
      rowIndex small 0x1000#16 = rowIndex small (wordAddr 0x0FFF#16 1) ∧
      rowBase small 0x1000#16 = rowBase small (wordAddr 0x0FFF#16 (small.xferWords - 1)) := by decide

theorem witness_AlignedProgramMemWritesItsTransferUnit :
    let s := engineAt .dispatch
    s.params.WellFormed ∧ s.flash.Sound s.params ∧ s.flash.hung = false ∧
      (payload 2).length = s.params.xferWords ∧ (0xFFFE#16).toNat % s.params.xferWords = 0 :=
  ⟨small_wf, machine_flash_sound _ _ _, rfl, rfl, rfl⟩

theorem witness_ProgrammingOnlyClearsBits :
    let s := engineAt .dispatch
    s.params.WellFormed ∧ s.flash.Sound s.params ∧ s.flash.hung = false ∧
      (∃ t, exec (programIn .pm 1#16 (payload 2)) s = .next t) ∧
      ∃ t, exec (programIn .cm 1#16 (payload 2)) s = .next t :=
  ⟨small_wf, machine_flash_sound _ _ _, rfl, ⟨_, rfl⟩, ⟨_, rfl⟩⟩

theorem witness_RepeatedEraseChangesNothing :
    (engineAt .dispatch).params.WellFormed ∧ (engineAt .dispatch).flash.Sound small ∧
      (engineAt .dispatch).flash.hung = false ∧
      nextIs (execAll [eraseIn .pm 1#16] (engineAt .dispatch)) (fun _ => true) = true ∧
      nextIs (execAll [eraseIn .pm 1#16, eraseIn .pm 1#16] (engineAt .dispatch)) (fun _ => true) = true :=
  ⟨small_wf, machine_flash_sound _ _ _, rfl, by decide +kernel, by decide +kernel⟩

theorem witness_RepeatedProgramChangesNothing :
    nextIs (execAll [programIn .cm 1#16 (payload 2)] (engineAt .dispatch)) (fun _ => true) = true ∧
      nextIs (execAll [programIn .cm 1#16 (payload 2), programIn .cm 1#16 (payload 2)] (engineAt .dispatch))
        (fun _ => true) = true := by decide +kernel

/-- The last row of the address space and its second transfer unit. -/
theorem witness_EraseThenReadReturnsErasedWords :
    let s := engineAt .dispatch
    s.params.WellFormed ∧ s.flash.Sound s.params ∧ s.ce.txBuf.length = s.params.reportBytes ∧
      rowBase s.params 0xFFFC#16 = 0xFFFC#16 ∧
      (∀ i < s.params.rowWords, implemented s.params .cm (wordAddr 0xFFFC#16 i) = true) ∧
      (1 + 1) * s.params.xferWords ≤ s.params.rowWords :=
  ⟨small_wf, machine_flash_sound _ _ _, rfl, rfl, fun _ _ => rfl, by decide⟩

/-- The units in descending order. -/
theorem witness_EraseProgramReadRoundTrip :
    let s := engineAt .dispatch
    s.params.WellFormed ∧ s.flash.Sound s.params ∧ s.flash.hung = false ∧
      s.ce.txBuf.length = s.params.reportBytes ∧ s.params.erasedWord = wordMask s.params ∧
      rowBase s.params 0xFFFC#16 = 0xFFFC#16 ∧
      (∀ i < s.params.rowWords, implemented s.params .pm (wordAddr 0xFFFC#16 i) = true) ∧
      (payload 4).length = s.params.rowWords ∧ (∀ w ∈ payload 4, clip s.params w = w) ∧
      s.params.rowWords / s.params.xferWords = 2 ∧ [1, 0].Perm (List.range 2) ∧ 1 ∈ [1, 0] :=
  ⟨small_wf, machine_flash_sound _ _ _, rfl, rfl, by decide, rfl, fun _ _ => rfl, rfl,
    fun w hw => by rw [List.eq_of_mem_replicate hw]; decide, by decide, List.Perm.swap 0 1 [], by decide⟩

/-- FL_READ of a location that exists and of one that does not. -/
theorem witness_FlReadReturnsOneWordAndKeepsFlash :
    implemented small .pm 0#16 = true ∧
      implemented { small with unimplemented := [⟨.cm, 5, 9⟩] } .cm 9#16 = false := by decide

/-- The three strobes and the locked ones. -/
theorem witness_OnlyTheUnlockSequenceArmsTheStrobe :
    ∃ f : Flash, f.unlock = .idle ∧ f.unlock ≠ .armed ∧ (unlockSequence small f).unlock = .armed ∧
      (unlockSequence small { f with fconErase := true }).fconErase = true ∧
      (unlockSequence small { f with fconCommit := true }).fconCommit = true :=
  ⟨(engineAt .idle).flash, rfl, by decide, rfl, rfl, rfl⟩

/-- The controller inside a critical section, after one latch load. -/
def loading : Flash := runOps small [.load false 0x1001#16 0x00FF#16] (csEnter (engineAt .idle).flash)

/-- For FL_ERASE, FL_LOAD and FL_WRITE: where a `program_row` really runs them, with a bank that is partly loaded; and the
clauses on a word of the row and on a latch. -/
theorem witness_flash_operations :
    small.WellFormed ∧ loading.BetweenOps small ∧ loading.intInhibit = true ∧ loading.hung = false ∧
      loading.latches = [0x3FFF#16, 0x00FF#16, 0x3FFF#16, 0x3FFF#16] ∧
      (0x1000#16).toNat / 4 = (0x1003#16).toNat / 4 ∧ (0x1004#16).toNat / 4 ≠ (0x1003#16).toNat / 4 ∧
      (0x1003#16).toNat % small.rowWords < small.rowWords :=
  ⟨small_wf, betweenOps_run (betweenOps_enter (machine_flash_sound _ _ _).toBetweenOps) _, by decide +kernel,
    by decide +kernel, by decide +kernel, by decide, by decide, by decide⟩

theorem witness_EveryMicroOperationRunsInTheCriticalSection :
    (engineAt .dispatch).flash.unlock = .idle ∧ (engineAt .dispatch).flash.fconErase = false ∧
      (∃ t, exec (.programCfg 0#16 (payload 2)) (engineAt .dispatch) = .next t) ∧
      strobesOf small (.programCfg 0#16 (payload 2)) ≠ [] :=
  ⟨rfl, rfl, ⟨_, rfl⟩, by decide⟩

theorem witness_ProgramCommitCounts : small.WellFormed := small_wf

/-- For the CRC statements: widths, a constant below `2^14`, words that differ above bit 13. -/
theorem witness_crc_laws :
    1 ≤ Config.pRef.wordBits ∧ Config.pRef.wordBits ≤ 16 ∧ Config.pRef.crcPoly.toNat < 2 ^ 14 ∧ (0x3FFF#16).toNat < 2 ^ 14 ∧
      0xC001#16 &&& wordMask Config.pRef = 0x4001#16 &&& wordMask Config.pRef := by decide

theorem witness_StepKeepsCrcWithinTheWord :
    (lastScan 0x1234#16 0x1234#16).CrcFits ∧ ∃ t, step (lastScan 0x1234#16 0x1234#16) = .next t :=
  ⟨fun _ _ => by decide, next_exists (by decide +kernel)⟩

theorem witness_OnlyTheSelfTestTouchesTheChecksum :
    (engineAt .dispatch).noResetNext ∧ (engineAt .dispatch).st.state = .done ∧
      ∃ t, step (engineAt .dispatch) = .next t :=
  ⟨(by intro _ _ _ _ h; cases h), rfl, next_exists (by decide +kernel)⟩

theorem witness_SelfTestStartsWithClearedChecksum :
    fresh.params.WellFormed ∧ fresh.blockNext ∧ fresh.st.state = .reset := ⟨small_wf, ⟨rfl, rfl⟩, rfl⟩

/-- `small` without location 3 of program memory. -/
def holed : Params := { small with unimplemented := [⟨.pm, 3, 3⟩] }

theorem holed_wf : holed.WellFormed := by decide

/-- At a boundary that is the slot, before one that is not, and with a location that does not exist. -/
theorem witness_ScanStepFoldsOneWordAndChecksBoundaries :
    let s := lastScan 0x3FFF#16 0#16
    let s' := { s with params := holed }
    s.params.WellFormed ∧ s.blockNext ∧ s.st.state = .scan ∧ implemented s.params .pm s.st.scanAddr = true ∧
      implemented s.params .pm s.params.csumAddr = true ∧ s.st.scanAddr = s.params.csumAddr ∧
      (s.st.scanAddr + 1#16).toNat % s.params.checkStride = 0 ∧ (3#16).toNat % s.params.checkStride ≠ 0 ∧
      s'.params.WellFormed ∧ s'.blockNext ∧ s'.st.state = .scan ∧
      implemented holed .pm s'.st.scanAddr = false :=
  ⟨small_wf, ⟨rfl, rfl⟩, rfl, rfl, rfl, rfl, by decide, by decide, holed_wf, ⟨rfl, rfl⟩, rfl, rfl⟩

theorem witness_ScanAlwaysRunsToTheEndOfTheRegion :
    (lastScan 0x3FFF#16 0#16).Inv ∧ (lastScan 0x3FFF#16 0#16).blockNext ∧ (lastScan 0x3FFF#16 0#16).st.state = .scan :=
  ⟨lastScan_inv, ⟨rfl, rfl⟩, rfl⟩

/-- For SelfTestComputesTheRegionChecksum and BootDecisionFollowsFromFlashPinAndTimeOut. -/
theorem witness_whole_self_test :
    fresh.Inv ∧ fresh.blockNext ∧ fresh.st.state = .reset ∧ selfTestImplemented fresh.params :=
  ⟨fresh_inv, ⟨rfl, rfl⟩, rfl, fun _ _ => rfl, rfl, fun _ => rfl⟩

/-- `smallHybrid` right after reset with the pin high: locations 2 and 3 are the slots, and the two words before them,
which are erased, sum to 0x2976 (computed outside the model from 40_crc.md R64 and R65). -/
def freshHybrid (alt stored : Word) : State :=
  let s := machine smallHybrid State.reset.st .idle (List.replicate 8 0#8)
  { s with
    flash := { s.flash with pm := memWrite smallHybrid (memWrite smallHybrid [] 2#16 alt) 3#16 stored }
    ports := { s.ports with pinIn := true } }

/-- For BootDecisionFollowsFromFlashPinAndTimeOut: neither comparison matches, the second alone, the first alone. -/
theorem witness_BootDecisionFollowsFromFlashPinAndTimeOut :
    [freshHybrid 0#16 0#16, freshHybrid 0x1689#16 0#16, freshHybrid 0#16 0x2976#16].map
        (fun s => (boundaryMatch s.params s.flash.pm (fun c => c == memRead s.params s.flash.pm s.params.csumAddr),
          boundaryMatch s.params s.flash.pm
            (fun c => (c ^^^ s.params.hybridXor) == memRead s.params s.flash.pm s.params.csumAltAddr))) =
      [(false, false), (false, true), (true, false)] ∧
      (freshHybrid 0x1689#16 0#16).ports.pinIn = true ∧ (freshHybrid 0x1689#16 0#16).ports.nTO = true ∧
      (freshHybrid 0x1689#16 0#16).params.hybridSupported = true := by decide +kernel

/-- Each of the three modes is selected somewhere, and BOOTLOADER after a watchdog time-out with the pin high and
`passed = 1`. -/
theorem witness_DecisionSelectsTheModeAndHandsOver :
    (deciding true true).params.WellFormed ∧ (deciding true true).blockNext ∧ (deciding true true).st.state = .decide ∧
      nextIs (step (deciding true true)) (fun t => t.st.bootMode == .residentApplication && t.mcuPc == some 0x0400#16) =
        true ∧
      nextIs (step (deciding false true)) (fun t => t.st.bootMode == .hybrid && t.outputs == [.bootGo .call]) = true ∧
      nextIs (step (deciding false false)) (fun t => t.st.bootMode == .bootloader && t.outputs == []) = true ∧
      nextIs (step timedOut) (fun t => t.st.bootMode == .bootloader && t.outputs == []) = true :=
  ⟨smallHybrid_wf, ⟨rfl, rfl⟩, rfl, by decide +kernel, by decide +kernel, by decide +kernel, by decide +kernel⟩

/-- Two states that differ in `crc` and in the flash. -/
theorem witness_DecisionDependsOnlyOnFlagsPinAndTimeOut :
    let s := deciding true false
    let s' := { s with crc := 1#16, flash := { s.flash with pm := [(0, 0#8)] } }
    s.blockNext ∧ s'.blockNext ∧ s.st.state = .decide ∧ s'.st.state = .decide ∧ s.crc ≠ s'.crc ∧
      (∃ t, step s = .next t) ∧ ∃ t, step s' = .next t :=
  ⟨⟨rfl, rfl⟩, ⟨rfl, rfl⟩, rfl, rfl, by decide, next_exists (by decide +kernel),
    next_exists (by decide +kernel)⟩

/-- Each clause: before the decision, and after it. -/
theorem witness_BootModeChangesOnlyAtTheDecision :
    fresh.noResetNext ∧ fresh.st.state ≠ .decide ∧ (∃ t, step fresh = .next t) ∧
      (engineAt .idle).noResetNext ∧ (engineAt .idle).st.state = .done ∧ ∃ t, step (engineAt .idle) = .next t :=
  ⟨(by intro _ _ _ _ h; cases h), by decide, next_exists (by decide +kernel), (by intro _ _ _ _ h; cases h), rfl,
    next_exists (by decide +kernel)⟩

/-- For PassedFlagsAreSticky and SelfTestStateNeverGoesBack. -/
theorem witness_sticky_flags :
    let s := { lastScan 0x3FFF#16 0#16 with st := { (lastScan 0x3FFF#16 0#16).st with passed := true, passedAlt := true } }
    s.noResetNext ∧ s.st.state ≠ .reset ∧ s.st.state ≠ .decide ∧ s.st.passed = true ∧ s.st.passedAlt = true ∧
      ∃ t, step s = .next t :=
  ⟨(by intro _ _ _ _ h; cases h), by decide, by decide, rfl, rfl,
    next_exists (by decide +kernel)⟩

/-- Control handed to the resident application. -/
def handedOver : State :=
  { machine small (decided .residentApplication) .idle (List.replicate 8 0#8) with mcuPc := some 0x0400#16 }

theorem witness_BlockRestsAfterHandingOver :
    handedOver.Inv ∧ handedOver.noResetNext ∧ handedOver.st.state = .done ∧
      handedOver.st.bootMode = .residentApplication ∧ ∃ t, step handedOver = .next t := by
  refine ⟨⟨small_wf, machine_flash_sound (decided .residentApplication) .idle (List.replicate 8 0#8),
      ⟨fun h => absurd rfl h, (by intro h; cases h), (by intro h; cases h), rfl, (by intro h; cases h),
        (by intro h; cases h)⟩,
      rfl, rfl, fun h => absurd rfl h, fun _ => rfl, fun _ => rfl, fun _ => rfl, fun _ => .inl rfl,
      (by intro h; cases h), rfl, (by intro h; cases h)⟩,
    (by intro _ _ _ _ h; cases h), rfl, rfl, next_exists (by decide +kernel)⟩

/-- Between steps, in the middle of an erase, and, for the level that stays, a step of the self-test with `nTO = 0`. -/
theorem witness_ResetGivesTheTableAndKeepsFlash :
    (resetting none).params.WellFormed ∧
      (resetting none).inputs = .reset .watchdog none (engineAt .idle).ports :: [] ∧
      (resetting (some 0)).inputs = .reset .watchdog (some 0) (engineAt .idle).ports :: [] ∧
      (engineAt .idle).ports.rxBuf.length = (resetting none).params.reportBytes ∧
      timedOut.noResetNext ∧ timedOut.ports.nTO = false ∧ ∃ t, step timedOut = .next t :=
  ⟨small_wf, rfl, rfl, rfl, (by intro _ _ _ _ h; cases h), rfl, next_exists (by decide +kernel)⟩

/-- A reset in the middle of an erase, with a row that it must not touch. -/
theorem witness_ResetDuringACommandTouchesOnlyItsRows :
    (resetting (some 0)).Inv ∧ (resetting (some 0)).inputs = .reset .watchdog (some 0) (engineAt .idle).ports :: [] ∧
      (engineAt .idle).ports.rxBuf.length = (resetting (some 0)).params.reportBytes ∧
      pendingStrobes (resetting (some 0)) = [.erase false 5#16] ∧
      rowBase small 8#16 ≠ rowBase small 5#16 := by
  have h : (machine small (decided .bootloader) .dispatch [0x81#8, 0#8, 5#8, 0#8, 0#8, 0#8, 0#8, 0#8]).Inv :=
    machine_inv small_wf decided_sound (by decide) (.inr rfl) rfl
  exact ⟨⟨h.1, h.2, h.3, h.4, h.5, h.6, h.7, h.8, h.9, h.10, h.11, h.12, h.13⟩, rfl, rfl, rfl, by decide⟩

/-- A command, and the decision after a watchdog time-out. -/
theorem witness_StepKeepsTheInvariant :
    (engineAt .dispatch).Inv ∧ (∃ t, step (engineAt .dispatch) = .next t) ∧
      timedOut.Inv ∧ timedOut.ports.nTO = false ∧ ∃ t, step timedOut = .next t :=
  ⟨engineAt_inv _, next_exists (by decide +kernel), timedOut_inv, rfl, next_exists (by decide +kernel)⟩

/-- No command pending, and inputs while an Erase is pending: the pin, the response gone, a reset between steps. -/
theorem witness_FlashIsWrittenOnlyByCommands :
    pendingStrobes (engineAt .dispatch) = [] ∧ (∃ t, step (engineAt .dispatch) = .next t) ∧
      [Input.pin true, .responseGone, .reset .watchdog none (engineAt .idle).ports].all (fun i =>
        let s := { resetting none with inputs := [i] }
        pendingStrobes s == [.erase false 5#16] && !s.reachesFlash && nextIs (step s) (fun _ => true)) = true :=
  ⟨rfl, next_exists (by decide +kernel), by decide +kernel⟩

/-- A request of each space. -/
theorem witness_CommandsReachOnlyTheirOwnSpace :
    (engineAt .dispatch).Inv ∧ (∃ t, step (engineAt .dispatch) = .next t) ∧
      (bufByte (engineAt .dispatch).ports.rxBuf 0).getLsbD 2 = false ∧
      (serving [] [] [0x84#8]).Inv ∧ (∃ t, step (serving [] [] [0x84#8]) = .next t) ∧
      (bufByte (serving [] [] [0x84#8]).ports.rxBuf 0).getLsbD 2 = true :=
  ⟨engineAt_inv _, next_exists (by decide +kernel), by decide,
    serving_inv _ rfl, next_exists (by decide +kernel), by decide⟩

theorem witness_ParametersNeverChange : ∃ t, step (engineAt .dispatch) = .next t :=
  next_exists (by decide +kernel)

theorem witness_IllFormedParametersAreRefused :
    ¬ { engineAt .idle with params := { small with reportBytes := 6 } }.params.WellFormed := by decide

/-- An erase that hangs, alone, with an input that is not a reset, and with a reset. -/
def stuck (inputs : List Input) : State :=
  { machine small (decided .bootloader) .dispatch [0x81#8, 0#8, 5#8, 0#8, 0#8, 0#8, 0#8, 0#8] with
    flash := { (engineAt .dispatch).flash with hung := true, intInhibit := true }
    inputs := inputs }

theorem stuck_inv (inputs : List Input) : (stuck inputs).Inv := by
  have h : (machine small (decided .bootloader) .dispatch [0x81#8, 0#8, 5#8, 0#8, 0#8, 0#8, 0#8, 0#8]).Inv :=
    machine_inv small_wf decided_sound (by decide) (.inr rfl) rfl
  exact ⟨h.1, ⟨⟨h.2.1.1, h.2.1.2, h.2.1.3, h.2.1.4, h.2.1.5, h.2.1.6⟩, rfl, (by intro h; cases h)⟩, h.3, h.4, h.5, h.6, h.7, h.8,
    h.9, h.10, fun _ => rfl, h.12, h.13⟩

theorem witness_HungFlashIsLeftOnlyByReset :
    (∀ inputs, (stuck inputs).Inv ∧ (stuck inputs).flash.hung = true) ∧ (stuck []).inputs = [] ∧
      (stuck [.pin true]).noResetNext ∧ (∃ t, step (stuck [.pin true]) = .next t) ∧
      (stuck [.reset .external none (engineAt .idle).ports]).inputs =
        .reset .external none (engineAt .idle).ports :: [] ∧
      (engineAt .idle).ports.rxBuf.length = (stuck []).params.reportBytes :=
  ⟨fun i => ⟨stuck_inv i, rfl⟩, rfl, (by intro _ _ _ _ h; cases h),
    next_exists (by decide +kernel), rfl, rfl⟩

theorem witness_TransportMayNotTouchARequestBeingServed :
    let s := { engineAt .dispatch with inputs := [.receive (List.replicate 8 0#8)] }
    let s' := { engineAt .dispatch with inputs := [.changeRxBuf (List.replicate 8 0#8)] }
    s.params.WellFormed ∧ s.ports.rxFull = true ∧ s.inputs = .receive (List.replicate 8 0#8) :: [] ∧
      s'.inputs = .changeRxBuf (List.replicate 8 0#8) :: [] := ⟨small_wf, rfl, rfl, rfl⟩

end Sys2Proof.Tests
end

section
/-! SUPPORT. What one step can do to the self-test sequencer, and the statements on its start and on `boot_mode`
(42_selftest.md R81, R90). -/

namespace Sys2Proof.Proofs
open Sys2Proof.Machine Sys2Proof.Laws

/-! ### The self-test's fields after each kind of move -/

@[simp] theorem idleStep_st (s : State) : (idleStep s).st = s.st := by
  unfold idleStep; split <;> rfl

@[simp] theorem startSelfTest_bootMode (s : State) : (startSelfTest s).st.bootMode = s.st.bootMode := rfl

@[simp] theorem scanStep_bootMode (s : State) : (scanStep s).st.bootMode = s.st.bootMode := by
  obtain ⟨_, _, _, _, _, _, -, h, -⟩ := scanStep_cases s
  rw [h]

@[simp] theorem decideStep_state (s : State) : (decideStep s).st.state = .done := rfl

/-- A step of the self-test, from `s` to `t`. -/
inductive SelfTestMove (s : State) : State → Prop where
  | start (h : s.st.state = .reset) : SelfTestMove s (startSelfTest s)
  | scan (h : s.st.state = .scan) : SelfTestMove s (scanStep s)
  | decide (h : s.st.state = .decide) : SelfTestMove s (decideStep s)

/-- A step of the block is one of the self-test, or it leaves the self-test's fields alone. -/
theorem blockMove_selfTest {s t : State} (m : BlockMove s t) : SelfTestMove s t ∨ t.st = s.st := by
  cases m with
  | start h => exact .inl (.start h)
  | scan h => exact .inl (.scan h)
  | decide h => exact .inl (.decide h)
  | rest => exact .inr rfl
  | idle => exact .inr (idleStep_st s)
  | command _ _ i t _ ht =>
    obtain ⟨⟨-, -, hst, -⟩, -⟩ := exec_outside ht
    exact .inr hst
  | echo => exact .inr rfl
  | respond => exact .inr (respondStep_st s)
  | rearm => exact .inr (rearmStep_st s)

/-- A step that is not a reset is one of the self-test, or it leaves the self-test's fields alone. -/
theorem step_selfTest {s t : State} (hr : s.noResetNext) (h : step s = .next t) :
    SelfTestMove (prepared s) t ∨ t.st = s.st := by
  obtain ⟨-, m⟩ := step_cases h
  cases m with
  | block _ t m _ => exact blockMove_selfTest m
  | ports => exact .inr rfl
  | reset kind during after rest hi => exact absurd hi (hr kind during after rest)
  | hang k =>
    obtain ⟨⟨-, -, hst, -⟩, -⟩ := hangEvent_outside k (prepared s)
    exact .inr hst
  | fail k =>
    obtain ⟨⟨-, -, hst, -⟩, -⟩ := failEvent_outside k (prepared s)
    exact .inr hst

/-! ### `boot_mode` -/

/-- A step of the self-test that does not decide leaves `boot_mode` alone. -/
theorem selfTestMove_bootMode {s t : State} (m : SelfTestMove s t)
    (hd : ¬ (s.st.state = .decide ∧ t.st.state = .done)) : t.st.bootMode = s.st.bootMode := by
  cases m with
  | start => exact startSelfTest_bootMode s
  | scan => exact scanStep_bootMode s
  | decide h => exact absurd ⟨h, decideStep_state s⟩ hd

/-- The self-test takes no step out of ST_DONE. -/
theorem selfTestMove_not_done {s t : State} (m : SelfTestMove s t) : s.st.state ≠ .done := by
  cases m with
  | start h => simp [h]
  | scan h => simp [h]
  | decide h => simp [h]

/-- Settles O48, by the cases of a step: of the self-test's own steps only the decision writes `boot_mode`, and none of
them starts in ST_DONE. -/
theorem bootModeChangesOnlyAtTheDecision : Obligations.BootModeChangesOnlyAtTheDecision := by
  intro s t hr h
  rcases step_selfTest hr h with m | hst
  · exact ⟨selfTestMove_bootMode (s := prepared s) m,
      fun hdone => absurd hdone (selfTestMove_not_done (s := prepared s) m)⟩
  · rw [hst]
    exact ⟨fun _ => rfl, id⟩

/-! ### ST_RESET -/

/-- The block's own step in ST_RESET. -/
theorem step_start {s : State} (hP : s.params.WellFormed) (hb : s.blockNext) (h : s.st.state = .reset) :
    step s = .next (startSelfTest (prepared s)) := by
  rw [step_block hP hb, sequencerStep, prepared_st, h]

/-- The start of the region is an address. -/
theorem startSelfTest_scanAddr_toNat {s : State} (hP : s.params.WellFormed) :
    (startSelfTest s).st.scanAddr.toNat = s.params.scanStart := by
  obtain ⟨-, -, -, -, ⟨hlt, hle⟩, -⟩ := hP
  exact (BitVec.toNat_ofNat s.params.scanStart 16).trans (Nat.mod_eq_of_lt (by omega))

/-- The length of the region, the whole address space at most, fits in the 17 bits of `scan_left`. -/
theorem startSelfTest_scanLeft_toNat {s : State} (hP : s.params.WellFormed) :
    (startSelfTest s).st.scanLeft.toNat = s.params.scanEnd - s.params.scanStart := by
  obtain ⟨-, -, -, -, ⟨hlt, hle⟩, -⟩ := hP
  exact (BitVec.toNat_ofNat (s.params.scanEnd - s.params.scanStart) 17).trans (Nat.mod_eq_of_lt (by omega))

/-- Settles O40: the step is `startSelfTest`, and the two bounds of the scan fit in their registers. -/
theorem selfTestStartsWithClearedChecksum : Obligations.SelfTestStartsWithClearedChecksum := by
  intro s hP hb h
  exact ⟨_, step_start hP hb h, rfl, rfl, rfl, rfl, startSelfTest_scanAddr_toNat (s := prepared s) hP,
    startSelfTest_scanLeft_toNat (s := prepared s) hP, rfl, rfl, rfl, rfl, rfl, rfl, rfl⟩

end Sys2Proof.Proofs
end

section
/-! SUPPORT. The block's own steps while the engine is enabled, and the statements on CE_IDLE and on a request with an
unrecognised code (43_commands.md R93, R104). -/

namespace Sys2Proof.Proofs
open Sys2Proof.Machine Sys2Proof.Laws

/-! ### The engine's steps -/

theorem requestReady_iff {p : Ports} :
    requestReady p = true ↔ p.configured = true ∧ p.rxFull = true ∧ p.txFree = true := by
  simp [requestReady, and_assoc]

/-- An enabled engine is past the self-test (43_commands.md R92). -/
theorem ceEnabled_done {s : State} (he : ceEnabled s = true) : s.st.state = .done := by
  simp only [ceEnabled, Bool.and_eq_true, beq_iff_eq] at he
  exact he.1

/-- While no input comes first only the events of the step before are taken off. -/
theorem prepared_of_blockNext {s : State} (hb : s.blockNext) : prepared s = { s with outputs := [] } := by
  rw [prepared, hb.1, List.tail_nil, ← hb.1]

theorem blockNext_prepared {s : State} (hb : s.blockNext) : (prepared s).blockNext :=
  ⟨by rw [prepared, hb.1, List.tail_nil], hb.2⟩

/-- The block's own step while the engine is enabled. -/
theorem step_enabled {s : State} (hP : s.params.WellFormed) (hb : s.blockNext) (he : ceEnabled s = true) :
    step s = engineStep (prepared s) := by
  rw [step_block hP hb, sequencerStep, prepared_st, ceEnabled_done he]
  exact if_pos he

/-- The block's own step after a self-test that does not enable the engine. -/
theorem step_disabled {s : State} (hP : s.params.WellFormed) (hb : s.blockNext) (hd : s.st.state = .done)
    (he : ceEnabled s = false) : step s = .next (prepared s) := by
  rw [step_block hP hb, sequencerStep, prepared_st, hd]
  exact if_neg (by simp [he])

section
variable {s : State} (hP : s.params.WellFormed) (hb : s.blockNext) (he : ceEnabled s = true)
include hP hb he

theorem step_idle (h : s.ce.state = .idle) : step s = .next (idleStep (prepared s)) := by
  rw [step_enabled hP hb he, engineStep, prepared_ce, h]

theorem step_dispatch (h : s.ce.state = .dispatch) : step s = dispatchStep (prepared s) := by
  rw [step_enabled hP hb he, engineStep, prepared_ce, h]

theorem step_respond (h : s.ce.state = .respond) : step s = .next (respondStep (prepared s)) := by
  rw [step_enabled hP hb he, engineStep, prepared_ce, h]

theorem step_rearm (h : s.ce.state = .rearm) : step s = .next (rearmStep (prepared s)) := by
  rw [step_enabled hP hb he, engineStep, prepared_ce, h]

end

/-! ### CE_IDLE -/

/-- Settles O7, by whether the engine is enabled and then by the levels. -/
theorem engineLeavesIdleExactlyWhenReady : Obligations.EngineLeavesIdleExactlyWhenReady := by
  intro s hP hb hd hi
  rw [← requestReady_iff, ← prepared_of_blockNext hb]
  refine ⟨fun ⟨he, hr⟩ => ?_, fun hn => ?_⟩
  · rw [step_idle hP hb he hi, idleStep, prepared_ports, if_pos hr, prepared_of_blockNext hb]
  · by_cases he : ceEnabled s = true
    · have hr : ¬ requestReady s.ports = true := fun hr => hn ⟨he, hr⟩
      rw [step_idle hP hb he hi, idleStep, prepared_ports, if_neg hr]
    · exact step_disabled hP hb hd (by simpa using he)

/-! ### A request with an unrecognised code -/

/-- A report with a code outside the table of 30_encoding.md R58. -/
theorem decode_of_code_not_mem {P : Params} {code hi lo : Byte} {payload : List Byte}
    (hlen : (code :: hi :: lo :: payload).length = P.reportBytes)
    (hcode : code ∉ [0x80#8, 0x81#8, 0x82#8, 0x84#8, 0x85#8, 0x86#8]) :
    decode P (code :: hi :: lo :: payload) = .unrecognised code := by
  simp only [List.mem_cons, List.not_mem_nil, or_false, not_or] at hcode
  obtain ⟨h80, h81, h82, h84, h85, h86⟩ := hcode
  rw [decode, if_pos hlen, decodeCommand, if_neg h80, if_neg h81, if_neg h82, if_neg h84, if_neg h85, if_neg h86]

/-- The dispatch of such a report. -/
theorem dispatchStep_of_code_not_mem {s : State} {code hi lo : Byte} {payload : List Byte}
    (hlen : s.ports.rxBuf.length = s.params.reportBytes) (hrx : s.ports.rxBuf = code :: hi :: lo :: payload)
    (hcode : code ∉ [0x80#8, 0x81#8, 0x82#8, 0x84#8, 0x85#8, 0x86#8]) :
    dispatchStep s = .next (execUnrecognised code hi lo s) := by
  rw [hrx] at hlen
  rw [dispatchStep, hrx, decode_of_code_not_mem hlen hcode]
  rfl

/-- The header written into a buffer that has room for it. -/
theorem putHeader_eq {b : List Byte} (h : 3 ≤ b.length) (x y z : Byte) :
    putHeader b x y z = x :: y :: z :: b.drop 3 := by
  match b, h with
  | p :: q :: r :: rest, _ => rfl

/-- A report has room for a header (00_scope.md R7). -/
theorem wellFormed_header_le {P : Params} (h : P.WellFormed) : 3 ≤ P.reportBytes := by
  obtain ⟨-, -, -, hroom, -⟩ := h
  omega

/-- Settles O12: the dispatch is `execUnrecognised`, which leaves the block's own step next and the engine enabled, and
so do the two steps after it. -/
theorem unrecognisedRequestIsOnlyEchoed : Obligations.UnrecognisedRequestIsOnlyEchoed := by
  intro s code hi lo payload hinv hb hd hrx hcode
  have hP := hinv.params
  have he : ceEnabled s = true := hinv.enabled (by simp [hd])
  have hroom : 3 ≤ s.ce.txBuf.length := hinv.txBuf ▸ wellFormed_header_le hP
  let t := execUnrecognised code hi lo { s with outputs := [] }
  let u := respondStep (prepared t)
  have hst : step s = .next t := by
    rw [step_dispatch hP hb he hd, prepared_of_blockNext hb]
    exact dispatchStep_of_code_not_mem hinv.rxBuf hrx hcode
  have htu : step t = .next u := step_respond hP hb he rfl
  have huv : step u = .next (rearmStep (prepared u)) := step_rearm hP (blockNext_prepared (s := t) hb) he rfl
  exact ⟨t, u, _, hst, htu, huv, rfl, rfl, rfl, rfl, rfl, rfl, rfl, rfl, rfl, rfl, rfl, rfl,
    putHeader_eq hroom code hi lo, rfl, rfl, rfl, rfl⟩

end Sys2Proof.Proofs
end

section
/-! SUPPORT. Response bytes beyond `tx_len`, through every step but a reset (43_commands.md R106). -/

namespace Sys2Proof.Proofs
open Sys2Proof.Machine Sys2Proof.Laws

/-- From `s` to `t` the response bytes from the new `tx_len` on keep their values. -/
def StaleBytesKept (s t : State) : Prop :=
  ∀ i, t.ce.txLen ≤ i → bufByte t.ce.txBuf i = bufByte s.ce.txBuf i

theorem staleBytesKept_of_txBuf {s t : State} (h : t.ce.txBuf = s.ce.txBuf) : StaleBytesKept s t :=
  fun i _ => congrArg (bufByte · i) h

/-- Writing the header alone changes no byte beyond a `tx_len` of 3. -/
theorem staleBytesKept_of_header {s t : State} {b0 b1 b2 : Byte} (hlen : t.ce.txLen = 3)
    (hbuf : t.ce.txBuf = putHeader s.ce.txBuf b0 b1 b2) : StaleBytesKept s t := by
  intro i hi
  rw [hbuf, bufByte_putHeader_rest _ _ _ _ (hlen ▸ hi)]

/-! ### The six commands -/

/-- A word of a transfer leaves the bytes after it alone. -/
theorem bufByte_putWord_rest (b : List Byte) (w : Word) {k i : Nat} (h : 5 + 2 * k ≤ i) :
    bufByte (putWord b k w) i = bufByte b i := by
  rw [putWord, bufByte_set _ _ (by omega), bufByte_set _ _ (by omega)]

/-- `n` words of a transfer leave the bytes after them alone, whatever the length of the buffer. -/
theorem bufByte_readWords_rest (P : Params) (cfg : Bool) (a : Addr) (ft : Flash × List Byte) (n : Nat) {i : Nat}
    (h : 3 + 2 * n ≤ i) :
    bufByte ((List.range n).foldl (readWordInto P cfg a) ft).2 i = bufByte ft.2 i := by
  induction n with
  | zero => rfl
  | succ n ih =>
    rw [List.range_succ, List.foldl_append, List.foldl_cons, List.foldl_nil, readWordInto,
      bufByte_putWord_rest _ _ (by omega), ih (by omega)]

theorem readCommand_staleBytesKept (code : Byte) (a : Addr) (s : State) :
    StaleBytesKept s (readCommand code a s) := by
  intro i hi
  have hlen : 3 + 2 * s.params.xferWords ≤ i := hi
  exact (bufByte_readWords_rest _ _ _ _ _ hlen).trans (bufByte_putHeader_rest _ _ _ _ (by omega))

theorem exec_staleBytesKept {i : Instr} {s t : State} (h : exec i s = .next t) : StaleBytesKept s t := by
  cases i <;> (injection h with h; subst h)
  case readMem => exact readCommand_staleBytesKept _ _ s
  case eraseMem => exact staleBytesKept_of_header rfl rfl
  case programMem => exact staleBytesKept_of_header rfl rfl
  case readCfg => exact readCommand_staleBytesKept _ _ s
  case eraseCfg => exact staleBytesKept_of_header rfl rfl
  case programCfg => exact staleBytesKept_of_header rfl rfl

/-! ### Every other step -/

@[simp] theorem startSelfTest_ce (s : State) : (startSelfTest s).ce = s.ce := rfl

@[simp] theorem scanStep_ce (s : State) : (scanStep s).ce = s.ce := by
  obtain ⟨_, _, _, _, _, _, -, h, -⟩ := scanStep_cases s
  rw [h]

@[simp] theorem decideStep_ce (s : State) : (decideStep s).ce = s.ce := by
  rw [decideStep_eq]

@[simp] theorem idleStep_txBuf (s : State) : (idleStep s).ce.txBuf = s.ce.txBuf := by
  unfold idleStep; split <;> rfl

/-- Of the block's own steps only the dispatch writes the response. -/
theorem blockMove_staleBytesKept {s t : State} (m : BlockMove s t) : StaleBytesKept s t := by
  cases m with
  | start => exact staleBytesKept_of_txBuf (by rw [startSelfTest_ce])
  | scan => exact staleBytesKept_of_txBuf (by rw [scanStep_ce])
  | decide => exact staleBytesKept_of_txBuf (by rw [decideStep_ce])
  | rest => exact staleBytesKept_of_txBuf rfl
  | idle => exact staleBytesKept_of_txBuf (idleStep_txBuf s)
  | command _ _ i t _ ht => exact exec_staleBytesKept ht
  | echo => exact staleBytesKept_of_header rfl rfl
  | respond => exact staleBytesKept_of_txBuf (respondStep_txBuf s)
  | rearm => exact staleBytesKept_of_txBuf (rearmStep_txBuf s)

/-- A command that hangs has written its header at most. -/
theorem hangEvent_staleBytesKept (k : Nat) (s : State) : StaleBytesKept s (hangEvent k s) := by
  unfold hangEvent
  split
  · exact staleBytesKept_of_header rfl rfl
  · exact staleBytesKept_of_txBuf rfl

/-- A command that fails unseen is an Erase or a Program, so it writes its header only. -/
theorem failEvent_staleBytesKept (k : Nat) (s : State) : StaleBytesKept s (failEvent k s) := by
  unfold failEvent
  split
  · exact staleBytesKept_of_header rfl rfl
  · exact staleBytesKept_of_txBuf rfl

/-- Settles O15, by the cases of a step: each leaves the response alone, writes its three header bytes, or writes the
words of a Read, which end at `tx_len`. -/
theorem bytesBeyondTxLenAreStale : Obligations.BytesBeyondTxLenAreStale := by
  intro s t i hr h hi
  have key : StaleBytesKept (prepared s) t := by
    obtain ⟨-, m⟩ := step_cases h
    cases m with
    | block _ t m _ => exact blockMove_staleBytesKept m
    | ports => exact staleBytesKept_of_txBuf rfl
    | reset kind during after rest hin => exact absurd hin (hr kind during after rest)
    | hang k => exact hangEvent_staleBytesKept k (prepared s)
    | fail k => exact failEvent_staleBytesKept k (prepared s)
  exact key i hi

end Sys2Proof.Proofs
end

section
/-! SUPPORT. Reports and commands: the statements on the encoding (30_encoding.md R51 to R61). -/

namespace Sys2Proof.Proofs
open Sys2Proof.Machine Sys2Proof.Laws

/-! ### Payload words and their bytes -/

/-- Words written low byte first read back as they were, whatever follows them. -/
theorem payloadWords_payloadBytes (ws : List Word) (pad : List Byte) :
    payloadWords ws.length (payloadBytes ws ++ pad) = ws := by
  induction ws with
  | nil => rfl
  | cons w ws ih => simp [payloadBytes, payloadWords, ih]

/-- Bytes read as `n` words are `n` words, and these stand for the first `2n` of the bytes. -/
theorem payloadBytes_payloadWords {n : Nat} {bytes : List Byte} (h : 2 * n ≤ bytes.length) :
    (payloadWords n bytes).length = n ∧ payloadBytes (payloadWords n bytes) = bytes.take (2 * n) := by
  induction n generalizing bytes with
  | zero => exact ⟨rfl, rfl⟩
  | succ n ih =>
    match bytes, h with
    | lo :: hi :: rest, h =>
      obtain ⟨hlen, hbytes⟩ := ih (bytes := rest) (by simp at h; omega)
      refine ⟨congrArg (· + 1) hlen, ?_⟩
      simp only [payloadWords, payloadBytes, hbytes, loByte_wordOfBytes, hiByte_wordOfBytes]
      rfl

/-! ### The opcode map -/

theorem opcode_mem (i : Instr) : opcode i ∈ [0x80#8, 0x81#8, 0x82#8, 0x84#8, 0x85#8, 0x86#8] := by
  cases i <;> simp [opcode]

theorem encodedReport (i : Instr) : EncodedReport.Statement i := by
  cases i with
  | readMem a => exact EncodedReport.readMem a
  | eraseMem a => exact EncodedReport.eraseMem a
  | programMem a ws => exact EncodedReport.programMem a ws
  | readCfg a => exact EncodedReport.readCfg a
  | eraseCfg a => exact EncodedReport.eraseCfg a
  | programCfg a ws => exact EncodedReport.programCfg a ws

/-- A report of the right length is decoded by its code, its address and its payload. -/
theorem decode_of_length {P : Params} {code hi lo : Byte} {payload : List Byte}
    (h : (code :: hi :: lo :: payload).length = P.reportBytes) :
    decode P (code :: hi :: lo :: payload) = decodeCommand P code (addrOfBytes hi lo) payload :=
  if_pos h

/-- A payload of its own words gives a well-formed command back from its code and address. -/
theorem decodeCommand_opcode {P : Params} {i : Instr} (hi : i.wf P = true) (pad : List Byte) :
    decodeCommand P (opcode i) (operandAddr i) (payloadBytes (operandWords i) ++ pad) = .command i := by
  cases i with
  | readMem a => rfl
  | eraseMem a => rfl
  | readCfg a => rfl
  | eraseCfg a => rfl
  | programMem a ws =>
    have hlen : ws.length = P.xferWords := eq_of_beq hi
    show Decoded.command (.programMem a (payloadWords P.xferWords (payloadBytes ws ++ pad))) = _
    rw [← hlen, payloadWords_payloadBytes]
  | programCfg a ws =>
    have hlen : ws.length = P.xferWords := eq_of_beq hi
    show Decoded.command (.programCfg a (payloadWords P.xferWords (payloadBytes ws ++ pad))) = _
    rw [← hlen, payloadWords_payloadBytes]

/-- What the opcode map makes of a payload: a command without one, or one with the `XFER_WORDS` words read from it. -/
theorem decodeCommand_words {P : Params} {code : Byte} {addr : Addr} {payload : List Byte} {i : Instr}
    (h : decodeCommand P code addr payload = .command i) :
    (operandWords i = [] ∧ i.wf P = true) ∨
      (operandWords i = payloadWords P.xferWords payload ∧
        i.wf P = ((payloadWords P.xferWords payload).length == P.xferWords)) := by
  unfold decodeCommand at h
  split_ifs at h <;> (injection h with h; subst h)
  · exact .inl ⟨rfl, rfl⟩
  · exact .inl ⟨rfl, rfl⟩
  · exact .inr ⟨rfl, rfl⟩
  · exact .inl ⟨rfl, rfl⟩
  · exact .inl ⟨rfl, rfl⟩
  · exact .inr ⟨rfl, rfl⟩

/-- Every code of the table is decoded to a command. -/
theorem decodeCommand_of_mem (P : Params) {code : Byte} (addr : Addr) (payload : List Byte)
    (h : code ∈ [0x80#8, 0x81#8, 0x82#8, 0x84#8, 0x85#8, 0x86#8]) :
    ∃ i, decodeCommand P code addr payload = .command i := by
  simp only [List.mem_cons, List.not_mem_nil, or_false] at h
  rcases h with rfl | rfl | rfl | rfl | rfl | rfl <;> exact ⟨_, rfl⟩

/-! ### The statements -/

/-- Settles O2: the encoded report has the length of a report, and its code, address and payload words are the
command's own. -/
theorem decodeOfEncodeIsTheCommand : Obligations.DecodeOfEncodeIsTheCommand := by
  intro P i hP hi
  obtain ⟨hlen, -⟩ := encodedReport i P hP hi
  have hdec := decode_of_length (P := P) hlen
  rw [addrOfBytes_hi_lo] at hdec
  exact hdec.trans (decodeCommand_opcode hi _)

/-- Settles O3, by whether the command has a payload: its words are read from as many bytes of the report. -/
theorem decodedCommandHasTheReportsBytes : Obligations.DecodedCommandHasTheReportsBytes := by
  intro P report i hP h
  obtain ⟨code, hi, lo, payload, rfl, hcode, haddr, hlen⟩ := decode_command h
  rw [decode_of_length hlen] at h
  have hroom : 2 * P.xferWords ≤ payload.length := by
    obtain ⟨-, -, -, hbytes, -⟩ := hP
    simp only [List.length_cons] at hlen
    omega
  obtain ⟨hcount, hwords⟩ := payloadBytes_payloadWords hroom
  have hhi : hiByte (addrOfBytes hi lo) = hi := hiByte_wordOfBytes lo hi
  have hlo : loByte (addrOfBytes hi lo) = lo := loByte_wordOfBytes lo hi
  rcases decodeCommand_words h with ⟨hnone, hwf⟩ | ⟨hsome, hwf⟩
  · exact ⟨hwf, by simp [meaningfulBytes, hnone, hcode, haddr, hhi, hlo, payloadBytes]⟩
  · refine ⟨by rw [hwf, hcount, beq_self_eq_true], ?_⟩
    simp [meaningfulBytes, hsome, hcode, haddr, hhi, hlo, hwords, hroom]

/-- Settles O4, from the two directions of the opcode map. -/
theorem exactlySixCodesAreRecognised : Obligations.ExactlySixCodesAreRecognised := by
  intro P code hi lo payload _ hroom
  have hlen : (code :: hi :: lo :: payload).length = P.reportBytes := by
    simp only [List.length_cons]; omega
  have operands : ∀ i, decode P (code :: hi :: lo :: payload) = .command i →
      opcode i = code ∧ operandAddr i = hi ++ lo := by
    intro i h
    obtain ⟨c, h', l', p, hl, hcode, haddr, -⟩ := decode_command h
    injection hl with hc hl; injection hl with hh hl; injection hl with hl _
    subst hc hh hl
    exact ⟨hcode, haddr⟩
  refine ⟨⟨?_, fun hmem => ?_⟩, operands, decode_of_code_not_mem hlen⟩
  · rintro ⟨i, h⟩
    exact (operands i h).1 ▸ opcode_mem i
  · rw [decode_of_length hlen]
    exact decodeCommand_of_mem P _ payload hmem

/-- Settles O1: each of the eight reports is evaluated. -/
theorem sampleReportsDecodeAsTheTableSays : Obligations.SampleReportsDecodeAsTheTableSays :=
  ⟨by decide, by decide, by decide, by decide, by decide, by decide, by decide, by decide⟩

end Sys2Proof.Proofs
end

section
/-! SUPPORT. What every dispatch does alike: the header, the response, and a flash controller that is sound again. -/

namespace Sys2Proof.Proofs
open Sys2Proof.Machine Sys2Proof.Laws

/-! ### The flash controller -/

theorem array_congr {f g : Flash} (hpm : g.pm = f.pm) (hcm : g.cm = f.cm) (sp : Space) : g.array sp = f.array sp := by
  cases sp
  · exact hpm
  · exact hcm

/-- The canonical form is one of the two lists alone. -/
theorem arraysWf_congr {P : Params} {f g : Flash} (hpm : g.pm = f.pm) (hcm : g.cm = f.cm)
    (h : ∀ sp, Memory.wf P (f.array sp) = true) (sp : Space) : Memory.wf P (g.array sp) = true :=
  array_congr hpm hcm sp ▸ h sp

/-- A read leaves a sound controller sound. -/
theorem sound_of_selection {P : Params} {f : Flash} (h : f.Sound P) (cfg : Bool) (a : Addr) {w : Word} (n : Nat)
    (hw : clip P w = w) : { f with fconCfg := cfg, faddr := a, fdata := w, freeCount := n }.Sound P :=
  ⟨⟨h.unlockIdle, h.eraseClear, hw, h.latchCount, h.latchesFit,
    arraysWf_congr rfl rfl h.arrays⟩, h.inhibit, h.latchesOnes⟩

/-- Reading words moves the selection, `FDATA` and the count of free values only. -/
theorem readWords_flash (P : Params) (cfg : Bool) (a : Addr) (ft : Flash × List Byte) (n : Nat) :
    ∃ c b d m, ((List.range n).foldl (readWordInto P cfg a) ft).1 =
        { ft.1 with fconCfg := c, faddr := b, fdata := d, freeCount := m } ∧
      (clip P ft.1.fdata = ft.1.fdata → clip P d = d) := by
  induction n with
  | zero => exact ⟨_, _, _, _, rfl, id⟩
  | succ n ih =>
    obtain ⟨c, b, d, m, hf, -⟩ := ih
    rw [List.range_succ, List.foldl_append, List.foldl_cons, List.foldl_nil]
    obtain ⟨w, k, hw, hread, -⟩ := flRead_cases P cfg (wordAddr a n) ((List.range n).foldl (readWordInto P cfg a) ft).1
    refine ⟨cfg, wordAddr a n, w, k, ?_, fun _ => hw⟩
    rw [readWordInto, hread, hf]

/-- A critical section begins with a controller at rest and ends with one. -/
theorem criticalSection_atRest {P : Params} (ops : List FlashOp) {f : Flash} (hu : f.unlock = .idle)
    (he : f.fconErase = false) :
    (criticalSection P ops f).unlock = .idle ∧ (criticalSection P ops f).fconErase = false ∧
      (criticalSection P ops f).intInhibit = false ∧ (criticalSection P ops f).hung = f.hung ∧
      (criticalSection P ops f).freeCount = f.freeCount := by
  obtain ⟨hunlock, herase, -, hhung, hcount⟩ := runOps_atRest (P := P) (f := csEnter f) ops hu he
  exact ⟨hunlock, herase, rfl, hhung, hcount⟩

/-- The critical section of a command, once finished: sound again, the latches all ones. -/
theorem sound_exit {P : Params} {f : Flash} (h : f.BetweenOps P) (hh : f.hung = false)
    (hl : f.latches = List.replicate P.rowWords (wordMask P)) : (csExit f).Sound P :=
  ⟨betweenOps_exit h, hh.symm, fun _ => hl⟩

/-- Entering a critical section with all latches ones and running the strobes of a command leaves them all ones. -/
theorem strobes_latchesOnes {P : Params} (hP : P.WellFormed) {f : Flash} (hf : f.Sound P) (hh : f.hung = false)
    (i : Instr) :
    (strobesOf P i).foldl (latchStep P) f.latches = List.replicate P.rowWords (wordMask P) := by
  rw [hf.latchesOnes hh, strobes_latches hP]

theorem sound_criticalSection {P : Params} (hP : P.WellFormed) {f : Flash} (hf : f.Sound P) (hh : f.hung = false)
    (i : Instr) : (criticalSection P (strobesOf P i) f).Sound P := by
  have hrest := betweenOps_enter hf.toBetweenOps
  obtain ⟨-, -, -, hhung, -⟩ := runOps_atRest (P := P) (strobesOf P i) hrest.unlockIdle hrest.eraseClear
  refine sound_exit (betweenOps_run hrest _) (hhung.trans hh) ?_
  rw [runOps_latches _ hrest.unlockIdle hrest.eraseClear]
  exact strobes_latchesOnes hP hf hh i

/-- The flash of a command is sound again and nothing of it hangs. -/
theorem exec_sound {i : Instr} {s t : State} (hP : s.params.WellFormed) (hf : s.flash.Sound s.params)
    (hh : s.flash.hung = false) (h : exec i s = .next t) :
    t.flash.Sound s.params ∧ t.flash.hung = false := by
  rcases exec_flash h with ⟨cfg, tx, hflash, -⟩ | hflash
  · obtain ⟨c, b, d, m, hread, hd⟩ := readWords_flash s.params cfg (operandAddr i) (s.flash, tx) s.params.xferWords
    rw [hflash, hread]
    exact ⟨sound_of_selection hf c b m (hd hf.dataFits), hh⟩
  · obtain ⟨-, -, -, hhung, -⟩ := criticalSection_atRest (strobesOf s.params i) hf.unlockIdle hf.eraseClear
    rw [hflash]
    exact ⟨sound_criticalSection hP hf hh i, hhung.trans hh⟩

/-! ### The header and the response -/

/-- A response that begins with the echo of a header. -/
theorem headerServed_of_echo {s t : State} {code : Byte} {a : Addr} (hroom : 3 ≤ s.ce.txBuf.length)
    (hcmd : t.ce.cmd = code) (hcfg : t.ce.cfgMode = code.getLsbD 2)
    (haddr : t.ce.reqAddr = addrOfBytes (hiByte a) (loByte a)) (hstate : t.ce.state = .respond)
    (hbuf : ∀ i < 3, bufByte t.ce.txBuf i = bufByte (putHeader s.ce.txBuf code (hiByte a) (loByte a)) i) :
    HeaderServed code a t := by
  obtain ⟨h0, h1, h2⟩ := bufByte_putHeader s.ce.txBuf code (hiByte a) (loByte a) hroom
  exact ⟨hcmd, hcfg, haddr.trans (addrOfBytes_hi_lo a), hstate, (hbuf 0 (by omega)).trans h0,
    (hbuf 1 (by omega)).trans h1, (hbuf 2 (by omega)).trans h2⟩

section
variable {s : State} (hP : s.params.WellFormed) (hlen : s.ce.txBuf.length = s.params.reportBytes)
include hP hlen

/-- The response of a Read command keeps the header's echo and its length. -/
theorem readCommand_headerServed (code : Byte) (a : Addr) :
    HeaderServed code a (readCommand code a s) ∧ (readCommand code a s).ce.txBuf.length = s.params.reportBytes := by
  have hroom : 3 + 2 * s.params.xferWords ≤ (putHeader s.ce.txBuf code (hiByte a) (loByte a)).length := by
    obtain ⟨-, -, -, hbytes, -⟩ := hP
    rw [putHeader_length, hlen]; exact hbytes
  obtain ⟨hlength, -, -, hrest⟩ := readRow_cases (P := s.params) (code.getLsbD 2)
    (addrOfBytes (hiByte a) (loByte a)) s.flash _ s.params.xferWords hroom
  refine ⟨headerServed_of_echo ?_ rfl rfl rfl rfl fun i hi => hrest i (.inl hi),
    hlength.trans ((putHeader_length _ _ _ _).trans hlen)⟩
  rw [hlen]; exact wellFormed_header_le hP

/-- A command that leaves the response alone but for the header. -/
theorem headerServed_of_header {t : State} (code : Byte) (a : Addr) (hcmd : t.ce.cmd = code)
    (hcfg : t.ce.cfgMode = code.getLsbD 2) (haddr : t.ce.reqAddr = addrOfBytes (hiByte a) (loByte a))
    (hstate : t.ce.state = .respond) (hbuf : t.ce.txBuf = putHeader s.ce.txBuf code (hiByte a) (loByte a)) :
    HeaderServed code a t ∧ t.ce.txBuf.length = s.params.reportBytes :=
  ⟨headerServed_of_echo (hlen ▸ wellFormed_header_le hP) hcmd hcfg haddr hstate fun _ _ => by rw [hbuf],
    by rw [hbuf, putHeader_length, hlen]⟩

theorem eraseCommand_headerServed (code : Byte) (a : Addr) :
    HeaderServed code a (eraseCommand code a s) ∧ (eraseCommand code a s).ce.txBuf.length = s.params.reportBytes :=
  headerServed_of_header hP hlen code a rfl rfl rfl rfl rfl

theorem programCommand_headerServed (code : Byte) (a : Addr) (ws : List Word) :
    HeaderServed code a (programCommand code a ws s) ∧
      (programCommand code a ws s).ce.txBuf.length = s.params.reportBytes :=
  headerServed_of_header hP hlen code a rfl rfl rfl rfl rfl

theorem exec_headerServed {i : Instr} {t : State} (h : exec i s = .next t) :
    HeaderServed (opcode i) (operandAddr i) t ∧ t.ce.txBuf.length = s.params.reportBytes := by
  cases i <;> (injection h with h; subst h)
  case readMem a => exact readCommand_headerServed hP hlen _ a
  case eraseMem a => exact eraseCommand_headerServed hP hlen _ a
  case programMem a ws => exact programCommand_headerServed hP hlen _ a ws
  case readCfg a => exact readCommand_headerServed hP hlen _ a
  case eraseCfg a => exact eraseCommand_headerServed hP hlen _ a
  case programCfg a ws => exact programCommand_headerServed hP hlen _ a ws

end

/-- `tx_len` is that of a Read for the two Read commands and 3 for the others (30_encoding.md R53). -/
theorem exec_txLen {i : Instr} {s t : State} (h : exec i s = .next t) :
    t.ce.txLen = if opcode i = 0x80#8 ∨ opcode i = 0x84#8 then 3 + 2 * s.params.xferWords else 3 := by
  cases i <;> (injection h with h; subst h; rfl)

/-! ### A whole dispatch -/

/-- What the dispatch of any report leaves behind. -/
structure Dispatched (s t : State) : Prop where
  outside : SameOutside s t
  state   : t.ce.state = .respond
  cmd     : t.ce.cmd = bufByte s.ports.rxBuf 0
  cfgMode : t.ce.cfgMode = (bufByte s.ports.rxBuf 0).getLsbD 2
  reqAddr : t.ce.reqAddr = bufByte s.ports.rxBuf 1 ++ bufByte s.ports.rxBuf 2
  echo    : t.ce.txBuf.take 3 = s.ports.rxBuf.take 3
  length  : t.ce.txBuf.length = s.params.reportBytes
  txLen   : t.ce.txLen = if bufByte s.ports.rxBuf 0 = 0x80#8 ∨ bufByte s.ports.rxBuf 0 = 0x84#8
    then 3 + 2 * s.params.xferWords else 3
  sound   : t.flash.Sound s.params
  notHung : t.flash.hung = false

/-- A report with a code of the table is a command. -/
theorem code_not_mem_of_unrecognised {P : Params} {report : List Byte} {code : Byte}
    (h : decode P report = .unrecognised code) : code ∉ [0x80#8, 0x81#8, 0x82#8, 0x84#8, 0x85#8, 0x86#8] := by
  intro hmem
  obtain ⟨b1, b2, payload, rfl, hlen⟩ := decode_unrecognised h
  obtain ⟨i, hi⟩ := decodeCommand_of_mem P (addrOfBytes b1 b2) payload hmem
  rw [decode_of_length hlen, hi] at h
  cases h

section
variable {s t : State} (hP : s.params.WellFormed) (hf : s.flash.Sound s.params) (hh : s.flash.hung = false)
  (hlen : s.ce.txBuf.length = s.params.reportBytes)
include hP hf hh hlen

theorem dispatched_of_command {i : Instr} (hi : decode s.params s.ports.rxBuf = .command i)
    (h : exec i s = .next t) : Dispatched s t := by
  obtain ⟨code, b1, b2, payload, hrx, hcode, haddr, -⟩ := decode_command hi
  obtain ⟨houtside, hstate, -⟩ := exec_outside h
  obtain ⟨⟨hcmd, hcfg, hreq, -, h0, h1, h2⟩, hlength⟩ := exec_headerServed hP hlen h
  obtain ⟨hsound, hhung⟩ := exec_sound hP hf hh h
  have hhi : hiByte (addrOfBytes b1 b2) = b1 := hiByte_wordOfBytes b2 b1
  have hlo : loByte (addrOfBytes b1 b2) = b2 := loByte_wordOfBytes b2 b1
  rw [haddr] at hreq h1 h2
  rw [hcode] at hcmd hcfg h0
  have htx := exec_txLen h
  rw [hcode] at htx
  have hroom : 3 ≤ t.ce.txBuf.length := hlength ▸ wellFormed_header_le hP
  refine ⟨houtside, hstate, ?_, ?_, ?_, ?_, hlength, ?_, hsound, hhung⟩
  all_goals rw [hrx]
  · exact hcmd
  · exact hcfg
  · exact hreq
  · rw [take_three _ hroom, h0, h1, h2, hhi, hlo]; rfl
  · exact htx

theorem dispatched_of_echo {code : Byte} (hi : decode s.params s.ports.rxBuf = .unrecognised code) :
    Dispatched s (execUnrecognised code (bufByte s.ports.rxBuf 1) (bufByte s.ports.rxBuf 2) s) := by
  have hmem := code_not_mem_of_unrecognised hi
  obtain ⟨b1, b2, payload, hrx, -⟩ := decode_unrecognised hi
  simp only [List.mem_cons, List.not_mem_nil, or_false, not_or] at hmem
  have hroom : 3 ≤ s.ce.txBuf.length := hlen ▸ wellFormed_header_le hP
  rw [hrx]
  refine ⟨⟨rfl, rfl, rfl, rfl, rfl, rfl, rfl⟩, rfl, ?_, ?_, ?_, ?_, (putHeader_length _ _ _ _).trans hlen, ?_, hf, hh⟩
  all_goals rw [hrx]
  · rfl
  · rfl
  · rfl
  · show (putHeader s.ce.txBuf code b1 b2).take 3 = _
    rw [putHeader_eq hroom]; rfl
  · exact (if_neg (not_or.2 ⟨hmem.1, hmem.2.2.2.1⟩)).symm

/-- Everything the dispatch of a report can do, whatever the report. -/
theorem dispatched_of_next (h : dispatchStep s = .next t) : Dispatched s t := by
  rcases dispatchStep_cases h with ⟨i, hi, ht⟩ | ⟨code, hi, rfl⟩
  · exact dispatched_of_command hP hf hh hlen hi ht
  · exact dispatched_of_echo hP hf hh hlen hi

end

end Sys2Proof.Proofs
end

section
/-! SUPPORT. The invariant of the machine: it holds right after reset, and every step keeps it. -/

namespace Sys2Proof.Proofs
open Sys2Proof.Machine Sys2Proof.Laws

/-! ### States of the engine -/

/-- Before the end of the self-test the engine is not enabled. -/
theorem ceEnabled_of_not_done {s : State} (h : s.st.state ≠ .done) : ceEnabled s = false := by
  simp [ceEnabled, h]

theorem inv_idle_of_disabled {s : State} (h : s.Inv) (he : ceEnabled s = false) : s.ce.state = .idle := by
  by_contra hne
  rw [h.enabled hne] at he
  cases he

/-- Outside CE_DISPATCH no flash operation hangs. -/
theorem inv_not_hung {s : State} (h : s.Inv) (hd : s.ce.state ≠ .dispatch) : s.flash.hung = false := by
  cases hh : s.flash.hung
  · rfl
  · exact absurd (h.hang hh) hd

/-- In CE_IDLE the invariant says nothing of a request. -/
theorem inv_of_idle {t : State} (hidle : t.ce.state = .idle) (hP : t.params.WellFormed)
    (hf : t.flash.Sound t.params) (hh : t.flash.hung = false) (hst : t.st.Sound t.params)
    (htx : t.ce.txBuf.length = t.params.reportBytes) (hrx : t.ports.rxBuf.length = t.params.reportBytes)
    (hpc : t.mcuPc = if t.st.bootMode = .residentApplication then some t.params.residentVector else none)
    (hto : t.ports.nTO = false → t.st.bootMode = .bootloader) : t.Inv where
  params := hP
  flash := hf
  selfTest := hst
  txBuf := htx
  rxBuf := hrx
  enabled h := absurd hidle h
  request h := absurd hidle h
  response h := by rw [hidle] at h; rcases h with h | h <;> cases h
  echo h := by rw [hidle] at h; cases h
  txLen h := by rw [hidle] at h; rcases h with h | h <;> cases h
  hang h := by rw [hh] at h; cases h
  handoff := hpc
  timeOut := hto

/-- The end of a dispatch: the flash controller is sound, the response is built, and nothing else has changed. -/
theorem inv_of_dispatch {s t : State} (h : s.Inv) (hd : s.ce.state = .dispatch) (ho : SameOutside s t)
    (hf : t.flash.Sound s.params) (hh : t.flash.hung = false)
    (hlen : t.ce.txBuf.length = s.params.reportBytes) (hecho : t.ce.txBuf.take 3 = s.ports.rxBuf.take 3)
    (htx : t.ce.txLen = 3 ∨ t.ce.txLen = 3 + 2 * s.params.xferWords) : t.Inv := by
  obtain ⟨hp, -, hst, hpc, hports, -, -⟩ := ho
  have hne : s.ce.state ≠ .idle := by rw [hd]; decide
  exact {
    params := hp.symm ▸ h.params
    flash := hp.symm ▸ hf
    selfTest := by rw [hp, hst]; exact h.selfTest
    txBuf := hp.symm ▸ hlen
    rxBuf := by rw [hp, hports]; exact h.rxBuf
    enabled := fun _ => by rw [ceEnabled, hst]; exact h.enabled hne
    request := fun _ => by rw [hports]; exact h.request hne
    response := fun _ => by rw [hports]; exact h.response (.inl hd)
    echo := fun _ => by rw [hports]; exact hecho
    txLen := fun _ => hp.symm ▸ htx
    hang := fun hh' => by rw [hh] at hh'; cases hh'
    handoff := by rw [hpc, hst, hp]; exact h.handoff
    timeOut := by rw [hports, hst]; exact h.timeOut }

/-! ### The self-test -/

/-- Before its first step the self-test claims nothing. -/
theorem selfTest_sound_of_reset {P : Params} {t : SelfTest} (hs : t.state = .reset) (hm : t.bootMode = .bootloader)
    (hq : t.passedAlt = false) (hp : t.pullupEn = false) : t.Sound P where
  modeBefore _ := hm
  hybrid h := by rw [hm] at h; cases h
  alt h := by rw [hq] at h; cases h
  pullup := by rw [hp, hs]; rfl
  scanLeft h := by rw [hs] at h; cases h
  scanAddr h := by rw [hs] at h; cases h

theorem startSelfTest_sound {s : State} (h : s.Inv) (hs : s.st.state = .reset) :
    (startSelfTest s).st.Sound s.params where
  modeBefore _ := h.selfTest.modeBefore (by rw [hs]; decide)
  hybrid := h.selfTest.hybrid
  alt hq := by cases hq
  pullup := rfl
  scanLeft _ := by
    obtain ⟨-, -, -, -, ⟨hlt, -⟩, -⟩ := h.params
    rw [startSelfTest_scanLeft_toNat h.params]
    omega
  scanAddr _ := by
    obtain ⟨-, -, -, -, ⟨hlt, -⟩, -⟩ := h.params
    rw [startSelfTest_scanLeft_toNat h.params, Nat.sub_sub_self hlt.le]
    rfl

/-- One word less to scan, while there is one. -/
theorem scanLeft_pred_toNat {n : BitVec 17} (h : 1 ≤ n.toNat) : (n - 1#17).toNat = n.toNat - 1 := by
  bv_omega

/-- The word after the next one, as far from the end of the region. -/
theorem scanAddr_succ {a : Addr} {e n : Nat} (ha : a = BitVec.ofNat 16 (e - n)) (h1 : 1 ≤ n) (hn : n ≤ e) :
    a + 1#16 = BitVec.ofNat 16 (e - (n - 1)) := by
  rw [ha, show 1#16 = BitVec.ofNat 16 1 from rfl, ← BitVec.ofNat_add]
  congr 1
  omega

theorem scanStep_sound {s : State} (h : s.Inv) (hs : s.st.state = .scan) :
    (scanStep s).st.Sound s.params ∧ (scanStep s).flash.Sound s.params := by
  obtain ⟨w, n, p, q, a, c, hw, heq, -, -, hq, -⟩ := scanStep_cases s
  obtain ⟨hleft, hright⟩ := h.selfTest.scanLeft hs
  have haddr := h.selfTest.scanAddr hs
  rw [heq]
  refine ⟨⟨?_, h.selfTest.hybrid, ?_, ?_, ?_, ?_⟩, sound_of_selection h.flash false a n hw⟩
  · exact fun _ => h.selfTest.modeBefore (by rw [hs]; decide)
  · intro hq'
    cases hh : s.params.hybridSupported
    · rw [← hh]
      exact h.selfTest.alt ((hq hh).symm.trans hq')
    · rfl
  · have hpull := h.selfTest.pullup
    rw [hs] at hpull ⊢
    dsimp only
    rw [hpull]
    split <;> rfl
  · intro hscan
    have hne : s.st.scanLeft - 1#17 ≠ 0#17 := fun h0 => by simp [h0] at hscan
    have hpos : (s.st.scanLeft - 1#17).toNat ≠ 0 := fun h0 => hne (BitVec.eq_of_toNat_eq h0)
    have hpred := scanLeft_pred_toNat hleft
    dsimp only
    omega
  · intro _
    dsimp only
    rw [scanLeft_pred_toNat hleft]
    exact scanAddr_succ haddr hleft (by omega)

theorem decideMode_hybrid {P : Params} {pin passed passedAlt nTO : Bool}
    (h : decideMode P pin passed passedAlt nTO = .hybrid) : P.hybridSupported = true := by
  unfold decideMode at h
  split_ifs at h with h1 h2
  simp only [Bool.and_eq_true] at h2
  exact h2.1.1.1

theorem decideMode_timeOut (P : Params) (pin passed passedAlt : Bool) :
    decideMode P pin passed passedAlt false = .bootloader := by
  simp [decideMode]

theorem decideStep_sound {s : State} (h : s.Inv) : (decideStep s).st.Sound s.params := by
  rw [decideStep_eq]
  exact ⟨fun hne => absurd rfl hne, decideMode_hybrid, h.selfTest.alt, rfl,
    (by intro hs; cases hs), (by intro hs; cases hs)⟩

/-- Control is given away in RESIDENT_APPLICATION mode alone. -/
theorem decideStep_handoff {s : State} (hpc : s.mcuPc = none) :
    (decideStep s).mcuPc =
      if (decideStep s).st.bootMode = .residentApplication then some s.params.residentVector else none := by
  rw [decideStep_eq]
  dsimp only
  cases decideMode s.params s.ports.pinIn s.st.passed s.st.passedAlt s.ports.nTO <;> simp [hpc]

theorem decideStep_timeOut {s : State} (hto : s.ports.nTO = false) : (decideStep s).st.bootMode = .bootloader := by
  rw [decideStep_eq, hto]
  exact decideMode_timeOut _ _ _ _

theorem selfTestMove_inv {s t : State} (h : s.Inv) (m : SelfTestMove s t) : t.Inv := by
  have hnd := selfTestMove_not_done m
  have hidle := inv_idle_of_disabled h (ceEnabled_of_not_done hnd)
  have hh := inv_not_hung h (by rw [hidle]; decide)
  cases m with
  | start hs =>
    have hst := startSelfTest_sound h hs
    exact inv_of_idle hidle h.params h.flash hh hst h.txBuf h.rxBuf h.handoff h.timeOut
  | scan hs =>
    obtain ⟨hst, hf⟩ := scanStep_sound h hs
    obtain ⟨w, n, p, q, a, c, -, heq, -⟩ := scanStep_cases s
    rw [heq] at hst hf ⊢
    exact inv_of_idle hidle h.params hf hh hst h.txBuf h.rxBuf h.handoff h.timeOut
  | decide hs =>
    have hpc : s.mcuPc = none := by
      rw [h.handoff, h.selfTest.modeBefore hnd]; rfl
    have hst := decideStep_sound h
    have hgo := decideStep_handoff hpc
    have hto := decideStep_timeOut (s := s)
    rw [decideStep_eq] at hst hgo hto ⊢
    exact inv_of_idle hidle h.params h.flash hh hst h.txBuf h.rxBuf hgo hto

/-! ### The engine -/

theorem idleStep_inv {s : State} (h : s.Inv) (he : ceEnabled s = true) (hi : s.ce.state = .idle) :
    (idleStep s).Inv := by
  unfold idleStep
  split
  · rename_i hr
    obtain ⟨-, hfull, hfree⟩ := requestReady_iff.1 hr
    have hh := inv_not_hung h (by rw [hi]; decide)
    exact { h with
      enabled := fun _ => he
      request := fun _ => hfull
      response := fun _ => hfree
      echo := fun hs => by cases hs
      txLen := fun hs => by rcases hs with hs | hs <;> cases hs
      hang := fun _ => rfl }
  · exact h

theorem respondStep_inv {s : State} (h : s.Inv) (he : ceEnabled s = true) (hr : s.ce.state = .respond) :
    (respondStep s).Inv :=
  { h with
    enabled := fun _ => he
    request := fun _ => h.request (by rw [hr]; decide)
    response := fun hs => by rcases hs with hs | hs <;> cases hs
    echo := fun hs => by cases hs
    txLen := fun _ => h.txLen (.inl hr)
    hang := fun hh => by rw [h.hang hh] at hr; cases hr }

theorem rearmStep_inv {s : State} (h : s.Inv) (hr : s.ce.state = .rearm) : (rearmStep s).Inv :=
  have hh := inv_not_hung h (by rw [hr]; decide)
  inv_of_idle rfl h.params h.flash hh h.selfTest h.txBuf h.rxBuf h.handoff h.timeOut

/-- Either length of a response (30_encoding.md R53). -/
theorem dispatched_txLen {s t : State} (d : Dispatched s t) :
    t.ce.txLen = 3 ∨ t.ce.txLen = 3 + 2 * s.params.xferWords := by
  rw [d.txLen]
  split
  · exact .inr rfl
  · exact .inl rfl

theorem dispatched_inv {s t : State} (h : s.Inv) (hd : s.ce.state = .dispatch) (d : Dispatched s t) : t.Inv :=
  inv_of_dispatch h hd d.outside d.sound d.notHung d.length d.echo (dispatched_txLen d)

theorem blockMove_inv {s t : State} (h : s.Inv) (hh : s.flash.hung = false) (m : BlockMove s t) : t.Inv := by
  cases m with
  | start hs => exact selfTestMove_inv h (.start hs)
  | scan hs => exact selfTestMove_inv h (.scan hs)
  | decide hs => exact selfTestMove_inv h (.decide hs)
  | rest => exact h
  | idle he hi => exact idleStep_inv h he hi
  | command _ hd i t hi ht =>
    exact dispatched_inv h hd (dispatched_of_command h.params h.flash hh h.txBuf hi ht)
  | echo _ hd code hi => exact dispatched_inv h hd (dispatched_of_echo h.params h.flash hh h.txBuf hi)
  | respond he hr => exact respondStep_inv h he hr
  | rearm _ hr => exact rearmStep_inv h hr

/-! ### The outside -/

theorem ports_inv {s : State} {inputs : List Input} {q : Ports} (h : s.Inv) (m : PortMove s.params inputs s.ports q) :
    { s with ports := q }.Inv :=
  { h with
    rxBuf := m.report h.rxBuf
    request := fun hs => (m.window (h.request hs)).1
    response := fun hs => m.free (h.response hs)
    echo := fun hs => by
      have hne : s.ce.state ≠ .idle := fun hi => by rw [hi] at hs; cases hs
      rw [(m.window (h.request hne)).2]
      exact h.echo hs
    timeOut := fun hto => h.timeOut (m.timeOut ▸ hto) }

/-- The row that is caught half-way is canonical too. -/
theorem caughtAt_between {P : Params} {f g : Flash} {ops : List FlashOp} {k : Nat} (hf : f.BetweenOps P)
    (hc : caughtAt P ops k f = some g) : g.BetweenOps P ∧ g.intInhibit = true := by
  obtain ⟨op, -, -, rfl⟩ := caughtAt_some hc
  have henter := betweenOps_enter hf
  obtain ⟨-, -, hinhibit, -, -⟩ := runOps_atRest (P := P) (ops.take k) henter.unlockIdle henter.eraseClear
  exact ⟨betweenOps_scramble (betweenOps_run henter _) op, (setArray_intInhibit _ _ _).trans hinhibit⟩

theorem flashAtReset_between {s : State} (h : s.Inv) (during : Option Nat) :
    (flashAtReset during s).BetweenOps s.params := by
  unfold flashAtReset
  split
  · exact h.flash.toBetweenOps
  · split
    · exact (caughtAt_between h.flash.toBetweenOps ‹_›).1
    · exact h.flash.toBetweenOps

/-- A reset leaves a sound controller when it finds canonical arrays. -/
theorem resetWith_sound {P : Params} {f : Flash} (hf : f.BetweenOps P) (p : Ports) {s : State} (hs : s.params = P) :
    (resetWith f p s).flash.Sound P := by
  subst hs
  exact ⟨⟨rfl, rfl, clip_clip _ _, (latchesFit_ones _).1, (latchesFit_ones _).2,
    arraysWf_congr rfl rfl hf.arrays⟩, rfl, fun _ => rfl⟩

theorem resetEvent_inv {s : State} (h : s.Inv) (kind : ResetKind) (during : Option Nat) {after : Ports}
    (ha : after.rxBuf.length = s.params.reportBytes) : (resetEvent kind during after s).Inv :=
  inv_of_idle rfl h.params (resetWith_sound (flashAtReset_between h during) _ rfl) rfl
    (selfTest_sound_of_reset rfl rfl rfl rfl)
    (resetWith_txBuf_length _ _ _) ha rfl fun _ => rfl

/-- A reset, a hang or a failure within a command comes only before the CE_DISPATCH of it. -/
theorem pending_dispatch {s : State} (h : pendingStrobes s ≠ []) :
    s.flash.hung = false ∧ ceEnabled s = true ∧ s.ce.state = .dispatch ∧
      ∃ i, decode s.params s.ports.rxBuf = .command i ∧ pendingStrobes s = strobesOf s.params i :=
  (pending_cases s).resolve_left h

theorem hangEvent_inv {s : State} (h : s.Inv) (k : Nat) : (hangEvent k s).Inv := by
  unfold hangEvent
  split
  · rename_i f hc
    obtain ⟨op, hop, -⟩ := caughtAt_some hc
    obtain ⟨-, -, hd, -⟩ := pending_dispatch (List.ne_nil_of_mem hop)
    obtain ⟨hbetween, hinhibit⟩ := caughtAt_between h.flash.toBetweenOps hc
    have hne : s.ce.state ≠ .idle := by rw [hd]; decide
    exact { h with
      flash := ⟨⟨hbetween.unlockIdle, hbetween.eraseClear, hbetween.dataFits, hbetween.latchCount,
        hbetween.latchesFit, arraysWf_congr rfl rfl hbetween.arrays⟩, hinhibit, fun hh => by cases hh⟩
      txBuf := (putHeader_length _ _ _ _).trans h.txBuf
      echo := fun hs => by rw [show s.ce.state = .respond from hs] at hd; cases hd
      txLen := fun _ => .inl rfl
      hang := fun _ => hd }
  · exact h

/-- The latches are no part of what a failure leaves unspecified. -/
theorem failedAt_sound {P : Params} (hP : P.WellFormed) {f : Flash} (hf : f.Sound P) (hh : f.hung = false) (i : Instr)
    (k : Nat) : (failedAt P (strobesOf P i) k f).Sound P ∧ (failedAt P (strobesOf P i) k f).hung = false := by
  have henter := betweenOps_enter hf.toBetweenOps
  set ops := strobesOf P i with hops
  set g := runOps P (ops.take (k + 1)) (csEnter f) with hg
  have hbetween : g.BetweenOps P := betweenOps_run henter _
  obtain ⟨-, -, -, hhung, -⟩ := runOps_atRest (P := P) (ops.take (k + 1)) henter.unlockIdle henter.eraseClear
  have key : ∀ g' : Flash, g'.BetweenOps P → g'.latches = g.latches → g'.hung = g.hung →
      (csExit (runOps P (ops.drop (k + 1)) g')).Sound P ∧ (csExit (runOps P (ops.drop (k + 1)) g')).hung = false := by
    intro g' hb hl hh'
    obtain ⟨-, -, -, hhung', -⟩ := runOps_atRest (P := P) (ops.drop (k + 1)) hb.unlockIdle hb.eraseClear
    have hfalse : (runOps P (ops.drop (k + 1)) g').hung = false := by rw [hhung', hh', hg, hhung]; exact hh
    refine ⟨sound_exit (betweenOps_run hb _) hfalse ?_, hfalse⟩
    rw [runOps_latches _ hb.unlockIdle hb.eraseClear, hl, hg,
      runOps_latches _ henter.unlockIdle henter.eraseClear, ← List.foldl_append, List.take_append_drop]
    exact strobes_latchesOnes hP hf hh i
  unfold failedAt
  dsimp only
  split
  · split
    · exact key _ (betweenOps_scramble hbetween _) (setArray_latches _ _ _) (setArray_hung _ _ _)
    · exact key g hbetween rfl rfl
  · exact key g hbetween rfl rfl

theorem failEvent_inv {s : State} (h : s.Inv) (k : Nat) : (failEvent k s).Inv := by
  have hout := failEvent_outside k s
  unfold failEvent at hout ⊢
  split
  · rename_i hk
    rw [if_pos hk] at hout
    obtain ⟨hh, -, hd, i, -, hpend⟩ := pending_dispatch (List.ne_nil_of_length_pos (Nat.zero_lt_of_lt hk))
    obtain ⟨hsound, hhung⟩ := failedAt_sound h.params h.flash hh i k
    rw [← hpend] at hsound hhung
    have hroom : 3 ≤ s.ce.txBuf.length := h.txBuf ▸ wellFormed_header_le h.params
    refine inv_of_dispatch h hd hout.1 hsound hhung ((putHeader_length _ _ _ _).trans h.txBuf) ?_ (.inl rfl)
    rw [take_three s.ports.rxBuf (h.rxBuf ▸ wellFormed_header_le h.params)]
    exact congrArg (List.take 3) (putHeader_eq hroom _ _ _)
  · exact h

/-! ### Every step -/

/-- The events and the inputs are no part of the invariant. -/
theorem prepared_inv {s : State} (h : s.Inv) : (prepared s).Inv := { h with }

/-- Settles O54, by the cases of a step, each of which keeps the invariant. -/
theorem stepKeepsTheInvariant : Obligations.StepKeepsTheInvariant := by
  intro s t h hstep
  obtain ⟨-, m⟩ := step_cases hstep
  cases m with
  | block hh t m _ => exact blockMove_inv (prepared_inv h) hh m
  | ports q m => exact ports_inv (prepared_inv h) m
  | reset kind during after rest _ ha => exact resetEvent_inv (prepared_inv h) kind during ha
  | hang k => exact hangEvent_inv (prepared_inv h) k
  | fail k => exact failEvent_inv (prepared_inv h) k

/-- Settles O53: after reset the engine is idle, and what is left to show are the buffers' lengths and the latches. -/
theorem resetMeetsTheInvariant : Obligations.ResetMeetsTheInvariant :=
  inv_of_idle rfl (by decide)
    ⟨⟨rfl, rfl, by decide, List.length_replicate, (latchesFit_ones Config.pRef).2, fun sp => by cases sp <;> rfl⟩, rfl,
      fun _ => rfl⟩
    rfl (selfTest_sound_of_reset rfl rfl rfl rfl) List.length_replicate List.length_replicate rfl fun _ => rfl

end Sys2Proof.Proofs
end

section
/-! SUPPORT. The engine and the transport: the statements on the engine's steps, the levels of the ports and the service
of one request (43_commands.md R92 to R97, 20_memory.md R45 and R46). -/

namespace Sys2Proof.Proofs
open Sys2Proof.Machine Sys2Proof.Laws

/-! ### CE_DISPATCH -/

theorem dispatchStep_command {s : State} {i : Instr} (hi : decode s.params s.ports.rxBuf = .command i) :
    dispatchStep s = exec i s := by
  rw [dispatchStep, hi]

/-- The block's own step while the engine is enabled and no flash operation hangs. -/
theorem blockStep_enabled {s : State} (hh : s.flash.hung = false) (he : ceEnabled s = true) :
    blockStep s = engineStep s := by
  rw [blockStep, hh, if_neg Bool.false_ne_true, sequencerStep, ceEnabled_done he]
  exact if_pos he

/-- A step that the outside world's schedule gives to the block (log entry 13). -/
theorem step_proceed {s : State} {rest : List Input} (hP : s.params.WellFormed) (hin : s.inputs = .proceed :: rest) :
    step s = blockStep (prepared s) := by
  rw [step_wellFormed hP, worldStep_prepared, hin]
  rfl

/-- Settles O5: in CE_DISPATCH either step is `dispatchStep` at the prepared state, and that is the command's `exec`. -/
theorem stepRunsTheDecodedCommand : Obligations.StepRunsTheDecodedCommand := by
  refine ⟨fun s i hP hb he hd hi => ?_, fun s i rest hP hin hh he hd hi => ?_⟩
  · rw [step_dispatch hP hb he hd, dispatchStep_command (s := prepared s) hi, prepared_of_blockNext hb]
  · rw [step_proceed hP hin, blockStep_enabled (s := prepared s) hh he, engineStep, prepared_ce, hd]
    refine (dispatchStep_command (s := prepared s) hi).trans ?_
    rw [prepared, hin]
    rfl

/-- The block's own step in CE_DISPATCH, from a sound state. -/
theorem step_dispatched {s : State} (h : s.Inv) (hb : s.blockNext) (hd : s.ce.state = .dispatch) :
    ∃ t, step s = .next t ∧ Dispatched (prepared s) t := by
  have he : ceEnabled s = true := h.enabled (by rw [hd]; decide)
  obtain ⟨t, ht⟩ := dispatchStep_next (s := prepared s) h.params h.rxBuf
  exact ⟨t, (step_dispatch h.params hb he hd).trans ht,
    dispatched_of_next (s := prepared s) h.params h.flash hb.2 h.txBuf ht⟩

/-- Settles O6, from what every dispatch leaves behind. -/
theorem everyDispatchDecodesAndEchoesTheHeader : Obligations.EveryDispatchDecodesAndEchoesTheHeader := by
  intro s h hb hd
  obtain ⟨t, hstep, d⟩ := step_dispatched h hb hd
  exact ⟨t, hstep, d.state, d.cmd, d.cfgMode, d.reqAddr, d.echo, d.txLen⟩

/-- Settles O14, by the state of the self-test and then of the engine: only the dispatch could refuse, and it does not
refuse a report of the right length. -/
theorem blockAlwaysHasANextState : Obligations.BlockAlwaysHasANextState := by
  intro s h hb
  by_cases he : ceEnabled s = true
  · cases hc : s.ce.state with
    | idle => exact ⟨_, step_idle h.params hb he hc⟩
    | dispatch =>
      obtain ⟨t, hstep, -⟩ := step_dispatched h hb hc
      exact ⟨t, hstep⟩
    | respond => exact ⟨_, step_respond h.params hb he hc⟩
    | rearm => exact ⟨_, step_rearm h.params hb he hc⟩
  · rw [Bool.not_eq_true] at he
    cases hs : s.st.state with
    | reset => exact ⟨_, step_start h.params hb hs⟩
    | scan => exact ⟨scanStep (prepared s), by rw [step_block h.params hb, sequencerStep, prepared_st, hs]⟩
    | decide => exact ⟨decideStep (prepared s), by rw [step_block h.params hb, sequencerStep, prepared_st, hs]⟩
    | done => exact ⟨_, step_disabled h.params hb hs he⟩

/-! ### A disabled engine -/

theorem hangEvent_of_not_pending {s : State} (h : pendingStrobes s = []) (k : Nat) : hangEvent k s = s := by
  rw [hangEvent, h, caughtAt, List.drop_nil]
  rfl

theorem failEvent_of_not_pending {s : State} (h : pendingStrobes s = []) (k : Nat) : failEvent k s = s := by
  rw [failEvent, h]
  exact if_neg (Nat.not_lt_zero k)

theorem not_pending_of_disabled {s : State} (he : ceEnabled s = false) : pendingStrobes s = [] := by
  by_contra hne
  obtain ⟨-, he', -⟩ := pending_dispatch hne
  rw [he] at he'
  cases he'

/-- While the engine is not enabled a step is one of the self-test, or only the ports move. -/
theorem step_of_disabled {s t : State} (hr : s.noResetNext) (he : ceEnabled s = false) (h : step s = .next t) :
    SelfTestMove (prepared s) t ∨ ∃ q, t = { prepared s with ports := q } := by
  have hpend : pendingStrobes (prepared s) = [] := not_pending_of_disabled he
  have enabled : ceEnabled (prepared s) = true → False := fun he' => by
    rw [prepared_enabled, he] at he'; cases he'
  obtain ⟨-, m⟩ := step_cases h
  cases m with
  | block _ t m _ =>
    cases m with
    | start hs => exact .inl (.start hs)
    | scan hs => exact .inl (.scan hs)
    | decide hs => exact .inl (.decide hs)
    | rest => exact .inr ⟨_, rfl⟩
    | idle he' => exact (enabled he').elim
    | command he' => exact (enabled he').elim
    | echo he' => exact (enabled he').elim
    | respond he' => exact (enabled he').elim
    | rearm he' => exact (enabled he').elim
  | ports q => exact .inr ⟨q, rfl⟩
  | reset kind during after rest hi => exact absurd hi (hr kind during after rest)
  | hang k => exact .inr ⟨s.ports, hangEvent_of_not_pending hpend k⟩
  | fail k => exact .inr ⟨s.ports, failEvent_of_not_pending hpend k⟩

theorem selfTestMove_ce {s t : State} (m : SelfTestMove s t) : t.ce = s.ce := by
  cases m with
  | start => exact startSelfTest_ce s
  | scan => exact scanStep_ce s
  | decide => exact decideStep_ce s

theorem ceEnabled_iff (s : State) :
    ceEnabled s = true ↔ s.st.state = .done ∧ (s.st.bootMode = .bootloader ∨ s.st.bootMode = .hybrid) := by
  simp [ceEnabled]

/-- Settles O8: what can happen then leaves the engine's registers alone, and the invariant has them in CE_IDLE. -/
theorem disabledEngineStaysIdle : Obligations.DisabledEngineStaysIdle := by
  intro s
  refine ⟨ceEnabled_iff s, fun t h hr he hstep => ?_⟩
  have hce : t.ce = s.ce := by
    rcases step_of_disabled hr he hstep with m | ⟨q, rfl⟩
    · exact selfTestMove_ce (s := prepared s) m
    · rfl
  exact ⟨hce, hce ▸ inv_idle_of_disabled h he⟩

/-- Settles O50: the self-test is done, so only the ports can move. -/
theorem blockRestsAfterHandingOver : Obligations.BlockRestsAfterHandingOver := by
  intro s t _ hr hd hmode hstep
  have he : ceEnabled s = false := by simp [ceEnabled, hmode]
  rcases step_of_disabled hr he hstep with m | ⟨q, rfl⟩
  · exact absurd hd (selfTestMove_not_done (s := prepared s) m)
  · exact ⟨rfl, rfl, rfl, rfl, rfl, rfl⟩

/-! ### Events and levels -/

/-- The only event is a hand-off. -/
def OnlyHandoffs (outputs : List Output) : Prop := ∀ o ∈ outputs, ∃ kind, o = .bootGo kind

theorem onlyHandoffs_nil : OnlyHandoffs [] := fun _ h => by cases h

theorem txSubmit_not_mem {l : List Output} (h : OnlyHandoffs l) (report : List Byte) (len : Nat) :
    .txSubmit report len ∉ l := by
  intro hmem
  obtain ⟨kind, hkind⟩ := h _ hmem
  cases hkind

theorem rxRearm_not_mem {l : List Output} (h : OnlyHandoffs l) : .rxRearm ∉ l := by
  intro hmem
  obtain ⟨kind, hkind⟩ := h _ hmem
  cases hkind

theorem portMove_refl (P : Params) (inputs : List Input) (p : Ports) : PortMove P inputs p p :=
  ⟨fun h => ⟨h, rfl⟩, id, id, fun h h' => absurd (h.symm.trans h') (by decide),
    fun h h' => absurd (h.symm.trans h') (by decide), rfl⟩

theorem decideStep_onlyHandoffs {s : State} (h : s.outputs = []) : OnlyHandoffs (decideStep s).outputs := by
  rw [decideStep_eq, h]
  dsimp only
  cases decideMode s.params s.ports.pinIn s.st.passed s.st.passedAlt s.ports.nTO
  · exact onlyHandoffs_nil
  all_goals exact fun o ho => ⟨_, List.mem_singleton.1 ho⟩

/-- What a step can do to the ports and the events between the block and its transport. -/
inductive TransportMove (s t : State) : Prop where
  | reset (kind : ResetKind) (during : Option Nat) (after : Ports) (rest : List Input)
      (hi : s.inputs = .reset kind during after :: rest) (ht : t = resetEvent kind during after (prepared s))
  | submit (hs : s.ce.state = .respond) (ht : t = respondStep (prepared s))
  | rearm (hs : s.ce.state = .rearm) (ht : t = rearmStep (prepared s))
  | quiet (hp : PortMove s.params s.inputs s.ports t.ports) (ho : OnlyHandoffs t.outputs)

theorem quiet_of_same {s t : State} (hp : t.ports = s.ports) (ho : t.outputs = []) : TransportMove s t :=
  .quiet (hp ▸ portMove_refl _ _ _) (ho ▸ onlyHandoffs_nil)

theorem quiet_of_outside {s t : State} (h : SameOutside (prepared s) t) : TransportMove s t := by
  obtain ⟨-, -, -, -, hp, ho, -⟩ := h
  exact quiet_of_same hp ho

theorem idleStep_ports (s : State) : (idleStep s).ports = s.ports := by
  unfold idleStep; split <;> rfl

theorem idleStep_outputs (s : State) : (idleStep s).outputs = s.outputs := by
  unfold idleStep; split <;> rfl

theorem step_transport {s t : State} (h : step s = .next t) : TransportMove s t := by
  obtain ⟨-, m⟩ := step_cases h
  cases m with
  | block _ t m _ =>
    cases m with
    | start => exact quiet_of_same rfl rfl
    | scan =>
      obtain ⟨w, n, p, q, a, c, -, heq, -⟩ := scanStep_cases (prepared s)
      exact quiet_of_same (by rw [heq]; rfl) (by rw [heq]; rfl)
    | decide =>
      have hp : (decideStep (prepared s)).ports = s.ports := by rw [decideStep_eq]; rfl
      exact .quiet (hp ▸ portMove_refl _ _ _) (decideStep_onlyHandoffs rfl)
    | rest => exact quiet_of_same rfl rfl
    | idle => exact quiet_of_same (idleStep_ports _) (idleStep_outputs _)
    | command _ _ i t _ ht => exact quiet_of_outside (exec_outside ht).1
    | echo => exact quiet_of_same rfl rfl
    | respond _ hr => exact .submit hr rfl
    | rearm _ hr => exact .rearm hr rfl
  | ports q m => exact .quiet m onlyHandoffs_nil
  | reset kind during after rest hi => exact .reset kind during after rest hi rfl
  | hang k => exact quiet_of_outside (hangEvent_outside k _).1
  | fail k => exact quiet_of_outside (failEvent_outside k _).1

/-- Settles O9: the two steps as they are, and by the cases of a step no other gives either event. -/
theorem respondSubmitsThenRearmReleases : Obligations.RespondSubmitsThenRearmReleases := by
  refine ⟨fun s hP hb he hr => ?_, fun s hP hb he hr => ?_, fun s t h => ?_⟩
  · exact ⟨_, step_respond hP hb he hr, rfl, rfl, rfl, rfl, rfl, rfl, rfl⟩
  · exact ⟨_, step_rearm hP hb he hr, rfl, rfl, rfl, rfl, rfl, rfl, rfl⟩
  · cases step_transport h with
    | reset kind during after rest hi ht =>
      have ho : OnlyHandoffs t.outputs := ht ▸ onlyHandoffs_nil
      exact ⟨fun report len hmem => absurd hmem (txSubmit_not_mem ho report len),
        fun hmem => absurd hmem (rxRearm_not_mem ho)⟩
    | submit hs ht =>
      subst ht
      exact ⟨fun _ _ _ => ⟨hs, rfl⟩, fun hmem => absurd hmem (by simp)⟩
    | rearm hs ht =>
      subst ht
      exact ⟨fun _ _ hmem => absurd hmem (by simp), fun _ => ⟨hs, rfl⟩⟩
    | quiet hp ho =>
      exact ⟨fun report len hmem => absurd hmem (txSubmit_not_mem ho report len),
        fun hmem => absurd hmem (rxRearm_not_mem ho)⟩

/-- Settles O10, by the same cases: the two events each lower their level, and otherwise the transport keeps its
duties. -/
theorem transportLevelsFollowTheEvents : Obligations.TransportLevelsFollowTheEvents := by
  intro s t hr h
  cases step_transport h with
  | reset kind during after rest hi => exact absurd hi (hr kind during after rest)
  | submit hs ht =>
    subst ht
    exact ⟨fun _ => rfl, fun _ _ => ⟨_, _, List.mem_singleton_self _⟩, fun hmem => absurd hmem (by simp),
      fun h1 h0 => absurd (h0.symm.trans h1) (by decide), fun _ h1 => absurd h1 Bool.false_ne_true,
      fun h0 h1 => absurd (h0.symm.trans h1) (by decide), fun _ => rfl⟩
  | rearm hs ht =>
    subst ht
    exact ⟨fun ⟨_, _, hmem⟩ => absurd hmem (by simp), fun h1 h0 => absurd (h0.symm.trans h1) (by decide),
      fun _ => rfl, fun _ _ => List.mem_singleton_self _, fun h0 h1 => absurd (h0.symm.trans h1) (by decide),
      fun _ h1 => absurd h1 Bool.false_ne_true, fun _ => rfl⟩
  | quiet hp ho =>
    exact ⟨fun ⟨report, len, hmem⟩ => absurd hmem (txSubmit_not_mem ho report len),
      fun h1 h0 => absurd (h0.symm.trans (hp.free h1)) (by decide), fun hmem => absurd hmem (rxRearm_not_mem ho),
      fun h1 h0 => absurd (h0.symm.trans (hp.window h1).1) (by decide), hp.gone, hp.full,
      fun h1 => (hp.window h1).2⟩

/-! ### The service of a request -/

theorem idleStep_dispatch {s : State} (h : (idleStep s).ce.state = .dispatch) (hne : s.ce.state ≠ .dispatch) :
    requestReady s.ports = true := by
  unfold idleStep at h
  split at h
  · assumption
  · exact absurd h hne

/-- Settles O13, by the cases of a step: only CE_IDLE leads to CE_DISPATCH. -/
theorem requestStartsOnlyWithFreeAndFullBuffers : Obligations.RequestStartsOnlyWithFreeAndFullBuffers := by
  intro s t h hne hd
  obtain ⟨-, m⟩ := step_cases h
  cases m with
  | block _ t m _ =>
    cases m with
    | start => exact absurd hd hne
    | scan => exact absurd (scanStep_ce (prepared s) ▸ hd) hne
    | decide => exact absurd (decideStep_ce (prepared s) ▸ hd) hne
    | rest => exact absurd hd hne
    | idle he hi => exact ⟨he, hi, requestReady_iff.1 (idleStep_dispatch (s := prepared s) hd hne)⟩
    | command _ hs => exact absurd hs hne
    | echo _ hs => exact absurd hs hne
    | respond => cases hd
    | rearm => cases hd
  | ports => exact absurd hd hne
  | reset => cases hd
  | hang k => exact absurd ((hangEvent_outside k (prepared s)).2 ▸ hd) hne
  | fail k =>
    rcases (failEvent_outside k (prepared s)).2 with hs | hs
    · exact absurd (hs ▸ hd) hne
    · rw [hs] at hd; cases hd

/-- Settles O11: CE_IDLE, CE_DISPATCH, CE_RESPOND and CE_REARM one after the other; the invariant holds after each, and
the dispatch says what the response carries. -/
theorem everyRequestIsServedOnceAndEngineReturnsToIdle :
    Obligations.EveryRequestIsServedOnceAndEngineReturnsToIdle := by
  intro s h hb he hi hready
  have h1 : step s = .next (idleStep (prepared s)) := step_idle h.params hb he hi
  have hidle : idleStep (prepared s) = { prepared s with ce := { s.ce with state := .dispatch } } := if_pos hready
  have hinv1 := stepKeepsTheInvariant s _ h h1
  rw [hidle] at h1 hinv1
  have hb1 := blockNext_prepared hb
  obtain ⟨t2, h2, d⟩ := step_dispatched hinv1 hb1 rfl
  have htx := dispatched_txLen d
  obtain ⟨hp, hcrc, hst, -, -, hout, hin⟩ := d.outside
  have he2 : ceEnabled t2 = true := by rw [ceEnabled, hst]; exact he
  have hb2 : t2.blockNext := ⟨by rw [hin]; exact (blockNext_prepared (s := prepared s) hb1).1, d.notHung⟩
  have hP2 : t2.params.WellFormed := hp ▸ h.params
  have h3 := step_respond hP2 hb2 he2 d.state
  have hb3 := blockNext_prepared hb2
  have h4 : step (respondStep (prepared t2)) = .next (rearmStep (prepared (respondStep (prepared t2)))) :=
    step_rearm hP2 hb3 he2 rfl
  exact ⟨_, t2, _, _, h1, h2, h3, h4, rfl, hout,
    ⟨_, _, rfl, d.length, d.echo, htx⟩, rfl, rfl, d.sound.inhibit.trans d.notHung, d.sound.unlockIdle,
    d.sound.eraseClear, d.sound.latchesOnes d.notHung, hp, hst, hcrc⟩

/-! ### Requests that carry no payload -/

/-- A command without a payload, and an unrecognised code, are decoded from the header alone. -/
theorem decodeCommand_payload (P : Params) {code : Byte} (addr : Addr) (p q : List Byte) (h82 : code ≠ 0x82#8)
    (h86 : code ≠ 0x86#8) : decodeCommand P code addr p = decodeCommand P code addr q := by
  simp only [decodeCommand, if_neg h82, if_neg h86]

/-- Any buffer of a report begins with a header. -/
theorem eq_header_append {P : Params} (hP : P.WellFormed) {l : List Byte} (h : l.length = P.reportBytes) :
    ∃ b0 b1 b2 p, l = b0 :: b1 :: b2 :: p := by
  have := wellFormed_header_le hP
  match l, h with
  | b0 :: b1 :: b2 :: p, _ => exact ⟨b0, b1, b2, p, rfl⟩
  | [], h => simp at h; omega
  | [_], h => simp at h; omega
  | [_, _], h => simp at h; omega

/-- A Read, an Erase and an echo do the same whatever else `rx_buf` holds. -/
theorem exec_rxBuf {i : Instr} {s t : State} (h : exec i s = .next t) (other : List Byte) :
    exec i { s with ports := { s.ports with rxBuf := other } } =
      .next { t with ports := { t.ports with rxBuf := other } } := by
  cases i <;> (injection h with h; subst h; rfl)

/-- The dispatch of another report that decodes alike and has the same header. -/
theorem dispatchStep_rxBuf {s t : State} {other : List Byte}
    (hdec : decode s.params other = decode s.params s.ports.rxBuf) (h1 : bufByte other 1 = bufByte s.ports.rxBuf 1)
    (h2 : bufByte other 2 = bufByte s.ports.rxBuf 2) (h : dispatchStep s = .next t) :
    dispatchStep { s with ports := { s.ports with rxBuf := other } } =
      .next { t with ports := { t.ports with rxBuf := other } } := by
  rcases dispatchStep_cases h with ⟨i, hi, ht⟩ | ⟨code, hi, rfl⟩
  · unfold dispatchStep
    dsimp only
    rw [hdec, hi]
    exact exec_rxBuf ht other
  · unfold dispatchStep
    dsimp only
    rw [hdec, hi, h1, h2]
    rfl

/-- Settles O16: the two reports have the same header and decode to the same command. -/
theorem onlyHeaderOfReadAndEraseIsRead : Obligations.OnlyHeaderOfReadAndEraseIsRead := by
  intro s t other hP hb hd he hrx hother htake h82 h86 hstep
  rw [step_dispatch hP hb he hd] at hstep
  rw [step_dispatch (s := { s with ports := { s.ports with rxBuf := other } }) hP hb he hd]
  obtain ⟨b0, b1, b2, p, hl⟩ := eq_header_append hP hrx
  obtain ⟨c0, c1, c2, q, rfl⟩ := eq_header_append hP hother
  rw [hl] at htake
  injection htake with e0 htake; injection htake with e1 htake; injection htake with e2 _
  subst e0 e1 e2
  refine dispatchStep_rxBuf (s := prepared s) ?_ (by rw [prepared_ports, hl]; rfl) (by rw [prepared_ports, hl]; rfl)
    hstep
  rw [prepared_params, prepared_ports, hl, decode_of_length hother, decode_of_length (hl ▸ hrx)]
  exact decodeCommand_payload s.params _ q p h82 h86

end Sys2Proof.Proofs
end

section
/-! SUPPORT. The CRC unit: the laws of 40_crc.md R64 to R66. -/

namespace Sys2Proof.Proofs
open Sys2Proof.Machine Sys2Proof.Laws

/-! ### One bit at a time -/

/-- The accumulator after the first `n` bits of a word. -/
def crcBits (poly : Word) (n : Nat) (c w : Word) : Word :=
  (List.range n).foldl (fun c i => crcBit poly c (w.getLsbD i)) c

theorem crcFold_eq (P : Params) (c w : Word) : crcFold P c w = crcBits P.crcPoly P.wordBits c w := rfl

@[simp] theorem crcBits_zero (poly c w : Word) : crcBits poly 0 c w = c := rfl

theorem crcBits_succ (poly : Word) (n : Nat) (c w : Word) :
    crcBits poly (n + 1) c w = crcBit poly (crcBits poly n c w) (w.getLsbD n) := by
  rw [crcBits, List.range_succ, List.foldl_append]
  rfl

/-- Equal bits: no feedback. -/
theorem crcBit_of_eq {poly c : Word} {b : Bool} (h : c.getLsbD 0 = b) : crcBit poly c b = c >>> 1 := by
  simp only [crcBit, h, Bool.xor_self, Bool.false_eq_true, if_false, BitVec.xor_zero]

/-- Different bits: the constant is fed back. -/
theorem crcBit_of_ne {poly c : Word} {b : Bool} (h : c.getLsbD 0 ≠ b) : crcBit poly c b = (c >>> 1) ^^^ poly := by
  have hfb : (c.getLsbD 0 ^^ b) = true := bne_iff_ne.2 h
  simp only [crcBit, hfb, if_true]

theorem crcBit_xor (poly c d : Word) (a b : Bool) :
    crcBit poly (c ^^^ d) (a ^^ b) = crcBit poly c a ^^^ crcBit poly d b := by
  have hshift : (c ^^^ d) >>> 1 = (c >>> 1) ^^^ (d >>> 1) := BitVec.ushiftRight_xor_distrib c d 1
  have hpoly : ∀ p q : Bool, (if (p ^^ q) = true then poly else 0#16) =
      (if p = true then poly else 0#16) ^^^ (if q = true then poly else 0#16) := by
    intro p q
    cases p <;> cases q <;> simp
  have hbits : ((c ^^^ d).getLsbD 0 ^^ (a ^^ b)) = ((c.getLsbD 0 ^^ a) ^^ (d.getLsbD 0 ^^ b)) := by
    rw [BitVec.getLsbD_xor, Bool.xor_assoc, Bool.xor_assoc, Bool.xor_left_comm a]
  simp only [crcBit, hshift, hbits, hpoly]
  ac_rfl

theorem crcBit_toNat_lt {poly c : Word} {k : Nat} (hp : poly.toNat < 2 ^ k) (hc : c.toNat < 2 ^ k) (b : Bool) :
    (crcBit poly c b).toNat < 2 ^ k := by
  have hshift : (c >>> 1).toNat < 2 ^ k := by
    rw [BitVec.toNat_ushiftRight, Nat.shiftRight_one]
    omega
  by_cases h : c.getLsbD 0 = b
  · rw [crcBit_of_eq h]
    exact hshift
  · rw [crcBit_of_ne h, BitVec.toNat_xor]
    exact Nat.xor_lt_two_pow hshift hp

/-! ### Whole words -/

theorem crcBits_congr (poly c : Word) {n : Nat} {v w : Word} (h : ∀ i < n, v.getLsbD i = w.getLsbD i) :
    crcBits poly n c v = crcBits poly n c w := by
  induction n with
  | zero => rfl
  | succ n ih => rw [crcBits_succ, crcBits_succ, ih fun i hi => h i (by omega), h n (by omega)]

theorem crcBits_xor (poly : Word) (n : Nat) (c d v w : Word) :
    crcBits poly n (c ^^^ d) (v ^^^ w) = crcBits poly n c v ^^^ crcBits poly n d w := by
  induction n with
  | zero => rfl
  | succ n ih => rw [crcBits_succ, crcBits_succ, crcBits_succ, ih, BitVec.getLsbD_xor, crcBit_xor]

/-- While the accumulator's bits are those of the word it is shifted out alone. -/
theorem crcBits_of_eq (poly : Word) {n : Nat} {c w : Word} (h : ∀ i < n, c.getLsbD i = w.getLsbD i) :
    crcBits poly n c w = c >>> n := by
  induction n with
  | zero => simp
  | succ n ih =>
    have hbit : (c >>> n).getLsbD 0 = w.getLsbD n := by
      rw [BitVec.getLsbD_ushiftRight]
      exact h n (by omega)
    rw [crcBits_succ, ih fun i hi => h i (by omega), crcBit_of_eq hbit, BitVec.shiftRight_add]

theorem crcBits_toNat_lt {poly c : Word} {k : Nat} (hp : poly.toNat < 2 ^ k) (hc : c.toNat < 2 ^ k) (n : Nat)
    (w : Word) : (crcBits poly n c w).toNat < 2 ^ k := by
  induction n with
  | zero => exact hc
  | succ n ih =>
    rw [crcBits_succ]
    exact crcBit_toNat_lt hp ih _

/-- The mask keeps the bits that the update looks at. -/
theorem and_wordMask_getLsbD {P : Params} (h : P.wordBits ≤ 16) (w : Word) {i : Nat} (hi : i < P.wordBits) :
    (w &&& wordMask P).getLsbD i = w.getLsbD i := by
  rw [BitVec.getLsbD_and, wordMask_getLsbD h, decide_eq_true hi, Bool.and_true]

/-- A word of `WORD_BITS` bits is shifted out whole. -/
theorem and_wordMask_ushiftRight {P : Params} (h : P.wordBits ≤ 16) (w : Word) :
    (w &&& wordMask P) >>> P.wordBits = 0#16 := by
  apply BitVec.eq_of_toNat_eq
  rw [BitVec.toNat_ushiftRight, Nat.shiftRight_eq_div_pow]
  exact Nat.div_eq_of_lt (clip_toNat_lt w h)

/-! ### The statements -/

/-- Settles O33: the two words agree on the bits that the update takes. -/
theorem crcIgnoresTopContainerBits : Obligations.CrcIgnoresTopContainerBits := by
  intro P c w h
  exact crcBits_congr _ _ fun i hi => (and_wordMask_getLsbD h w hi).symm

/-- Settles O35, by induction on the bits: one bit is linear. -/
theorem crcIsLinearOverXor : Obligations.CrcIsLinearOverXor :=
  fun P c1 c2 w1 w2 => crcBits_xor P.crcPoly P.wordBits c1 c2 w1 w2

/-- Settles O34: by linearity the two differ by the update of the word from itself, which leaves nothing. -/
theorem crcFoldsWordIntoLowBits : Obligations.CrcFoldsWordIntoLowBits := by
  intro P c w h
  have hself : crcFold P (w &&& wordMask P) (w &&& wordMask P) = 0#16 :=
    (crcBits_of_eq _ fun _ _ => rfl).trans (and_wordMask_ushiftRight h w)
  calc crcFold P c w = crcFold P c (w &&& wordMask P) := crcIgnoresTopContainerBits P c w h
    _ = crcFold P c (w &&& wordMask P) ^^^ crcFold P (w &&& wordMask P) (w &&& wordMask P) := by
        rw [hself, BitVec.xor_zero]
    _ = crcFold P (c ^^^ (w &&& wordMask P)) ((w &&& wordMask P) ^^^ (w &&& wordMask P)) :=
        (crcIsLinearOverXor P _ _ _ _).symm
    _ = crcFold P (c ^^^ (w &&& wordMask P)) 0#16 := by rw [BitVec.xor_self]

/-- The last bit alone meets an accumulator that is still 0. -/
theorem crcBits_last (poly : Word) {n : Nat} (h : n < 16) :
    crcBits poly (n + 1) 0#16 (BitVec.ofNat 16 (2 ^ n)) = poly := by
  have hbit : ∀ i ≤ n, (BitVec.ofNat 16 (2 ^ n)).getLsbD i = decide (n = i) := by
    intro i hi
    rw [BitVec.getLsbD_ofNat, Nat.testBit_two_pow, decide_eq_true (by omega : i < 16), Bool.true_and]
  have hlow : crcBits poly n 0#16 (BitVec.ofNat 16 (2 ^ n)) = 0#16 := by
    rw [crcBits_of_eq, BitVec.zero_ushiftRight]
    intro i hi
    rw [hbit i hi.le, decide_eq_false (by omega), BitVec.getLsbD_zero]
  rw [crcBits_succ, hlow, hbit n le_rfl, decide_eq_true rfl, crcBit_of_ne (by simp), BitVec.zero_ushiftRight,
    BitVec.zero_xor]

/-- Settles O36: the recursion of the update is its definition, and the two corner cases are those in which no bit, or
only the last one, differs. -/
theorem crcFeedsBackItsConstantBitByBit : Obligations.CrcFeedsBackItsConstantBitByBit := by
  intro P c w
  refine ⟨rfl, fun n => ?_, fun h1 h2 => ?_, fun h heq => ?_⟩
  · have hstep := crcBits_succ P.crcPoly n c w
    by_cases hbit : (crcBits P.crcPoly n c w).getLsbD 0 = w.getLsbD n
    · rw [crcBit_of_eq hbit] at hstep
      exact hstep.trans (by rw [crcFold_eq, if_pos hbit, BitVec.xor_zero])
    · rw [crcBit_of_ne hbit] at hstep
      exact hstep.trans (by rw [crcFold_eq, if_neg hbit])
  · have hlast := crcBits_last P.crcPoly (n := P.wordBits - 1) (by omega)
    rw [Nat.sub_add_cancel h1] at hlast
    exact hlast
  · refine crcBits_of_eq _ fun i hi => ?_
    rw [← and_wordMask_getLsbD h c hi, heq, and_wordMask_getLsbD h w hi]

/-- Settles O37, by induction on the bits: a shift and the constant both stay below the power. -/
theorem crcStaysBelowThePowerOfTwoOfItsConstant : Obligations.CrcStaysBelowThePowerOfTwoOfItsConstant :=
  fun P _ w _ _ _ hp hc => crcBits_toNat_lt hp hc P.wordBits w

end Sys2Proof.Proofs
end

section
/-! SUPPORT. The flash controller: the statements on its micro-operations, its unlock sequence and its critical section
(41_flash_primitives.md R70 to R77). -/

namespace Sys2Proof.Proofs
open Sys2Proof.Machine Sys2Proof.Laws

/-! ### Read and unlock -/

/-- Settles O26: a read moves the selection, `FDATA` and, only where nothing exists, the count of free values. -/
theorem flReadReturnsOneWordAndKeepsFlash : Obligations.FlReadReturnsOneWordAndKeepsFlash := by
  intro P cfg a f
  refine ⟨fun himp => ?_, ?_⟩
  · rw [flRead_implemented f himp]
    cases cfg <;> rfl
  · obtain ⟨w, n, hw, hread, -⟩ := flRead_cases P cfg a f
    exact ⟨w, n, hread, hw⟩

theorem unlockWrite_got1 (P : Params) (v : Byte) (u : UnlockState) :
    unlockWrite P v u = .got1 ↔ u = .idle ∧ v = P.unlock1 := by
  cases u
  case idle => by_cases h : v = P.unlock1 <;> simp [unlockWrite, h]
  case got1 => by_cases h : v = P.unlock2 <;> simp [unlockWrite, h]
  case armed => simp [unlockWrite]

theorem unlockWrite_armed (P : Params) (v : Byte) (u : UnlockState) :
    unlockWrite P v u = .armed ↔ u = .got1 ∧ v = P.unlock2 := by
  cases u
  case idle => by_cases h : v = P.unlock1 <;> simp [unlockWrite, h]
  case got1 => by_cases h : v = P.unlock2 <;> simp [unlockWrite, h]
  case armed => simp [unlockWrite]

theorem writeStrobe_of_not_armed (P : Params) {f : Flash} (h : f.unlock ≠ .armed) :
    writeStrobe P f = { f with unlock := .idle } := by
  cases hu : f.unlock with
  | armed => exact absurd hu h
  | got1 => simp only [writeStrobe, hu]
  | idle => simp only [writeStrobe, hu]

theorem writeStrobe_of_armed (P : Params) {f : Flash} (h : f.unlock = .armed) :
    writeStrobe P f = { selectedOperation P f with unlock := .idle } := by
  simp only [writeStrobe, h]

/-- Settles O27: the unlock machine by its states, and the strobe by whether it is armed and what `FCON` selects. -/
theorem onlyTheUnlockSequenceArmsTheStrobe : Obligations.OnlyTheUnlockSequenceArmsTheStrobe := by
  intro P f u v
  refine ⟨unlockWrite_got1 P v u, unlockWrite_armed P v u, fun hu => ?_, writeStrobe_of_not_armed P,
    fun hu he => ?_, fun hu he hc => ?_, fun hu he hc => ?_⟩
  · rw [unlockSequence, hu, unlock_from_idle]
  · rw [writeStrobe_of_armed P hu, selectedOperation, if_pos he]
  · rw [writeStrobe_of_armed P hu, selectedOperation, if_neg (by simp [he]), if_neg (by simp [hc])]
  · rw [writeStrobe_of_armed P hu, selectedOperation, if_neg (by simp [he]), if_pos hc]

/-! ### Rows -/

/-- Two addresses have one row base exactly when they are in one row. -/
theorem rowBase_eq_iff {P : Params} (hP : P.WellFormed) (x a : Addr) :
    rowBase P x = rowBase P a ↔ x.toNat / P.rowWords = a.toNat / P.rowWords := by
  rw [← BitVec.toNat_inj, rowBase_toNat hP, rowBase_toNat hP]
  exact Nat.mul_left_inj (wellFormed_row_pos hP).ne'

/-- An address is its row and its place in it. -/
theorem eq_of_rowBase_rowIndex {P : Params} (hP : P.WellFormed) {x a : Addr} (hb : rowBase P x = rowBase P a)
    (hi : rowIndex P x = rowIndex P a) : x = a := by
  rw [← rowBase_add_rowIndex hP x, ← rowBase_add_rowIndex hP a, hb, hi]

/-! ### Erase, load, commit -/

/-- Settles O28: the words by the loop over the row, the registers by the erase as one record. -/
theorem flEraseErasesExactlyOneRow : Obligations.FlEraseErasesExactlyOneRow := by
  intro P cfg a f hP hf
  have hu := hf.unlockIdle
  refine ⟨fun sp x => ?_, ?_⟩
  · simp only [← rowBase_eq_iff hP]
    exact eraseRow_read hP cfg a hu hf.arrays sp x
  · rw [flErase_eq hu]
    exact ⟨rfl, rfl, rfl, rfl, setArray_fdata _ _ _, setArray_latches _ _ _, setArray_fconCommit _ _ _,
      setArray_intInhibit _ _ _⟩

/-- Settles O29, from the load as one record. -/
theorem flLoadWritesOneLatch : Obligations.FlLoadWritesOneLatch := by
  intro P cfg a w f hP hf
  rw [flLoad_eq hf.unlockIdle hf.eraseClear]
  refine ⟨rfl, rfl, fun i hi => ?_, rfl, rfl, rfl, rfl, hf.eraseClear, rfl, rfl⟩
  have hlt : a.toNat % P.rowWords < f.latches.length := by
    rw [hf.latchCount]
    exact Nat.mod_lt _ (wellFormed_row_pos hP)
  show (f.latches.set (a.toNat % P.rowWords) (clip P w))[i]? = _
  rw [List.getElem?_set]
  by_cases h : a.toNat % P.rowWords = i
  · rw [if_pos h, if_pos hlt, if_pos h.symm]
    rfl
  · rw [if_neg h, if_neg fun h' => h h'.symm]

/-- A word of the array has no bits above the mask. -/
theorem clip_memRead_and_clip (P : Params) (m : Memory) (x : Addr) (w : Word) :
    clip P (memRead P m x &&& clip P w) = memRead P m x &&& w := by
  have hm : memRead P m x &&& wordMask P = memRead P m x := clip_memRead P m x
  calc clip P (memRead P m x &&& clip P w)
      = ((memRead P m x &&& wordMask P) &&& wordMask P) &&& w := by
        simp only [clip]
        ac_rfl
    _ = memRead P m x &&& w := by rw [hm, hm]

/-- What a commit ANDs into a word of its row. -/
theorem clip_memRead_and_latch {P : Params} (hP : P.WellFormed) {f : Flash} (hf : f.BetweenOps P) {a x : Addr}
    (w : Word) (m : Memory) (hb : rowBase P x = rowBase P a) :
    clip P (memRead P m x &&& latchWord P (f.latches.set (rowIndex P a) (clip P w)) (rowIndex P x)) =
      memRead P m x &&& (if x = a then w else f.latches.getD (rowIndex P x) 0#16) := by
  have hlen : ∀ y, rowIndex P y < f.latches.length := fun y => hf.latchCount ▸ rowIndex_lt hP y
  rw [latchWord_set (hlen a)]
  by_cases hx : x = a
  · rw [if_pos (hx ▸ rfl), if_pos hx, clip_memRead_and_clip]
  · rw [if_neg fun hi => hx (eq_of_rowBase_rowIndex hP hb hi), if_neg hx]
    have hlt := hlen x
    have hfit : clip P f.latches[rowIndex P x] = f.latches[rowIndex P x] := hf.latchesFit _ (List.getElem_mem hlt)
    have hword : ∀ d, f.latches.getD (rowIndex P x) d = f.latches[rowIndex P x] :=
      fun d => List.getD_eq_getElem _ _ hlt
    rw [latchWord, hword, hword, ← hfit, clip_memRead_and_clip, hfit]

/-- Settles O30: the words by the loop over the row, the registers by the commit as one record. -/
theorem flWriteAndsTheLatchesIntoTheRow : Obligations.FlWriteAndsTheLatchesIntoTheRow := by
  intro P cfg a w f hP hf
  have hu := hf.unlockIdle
  have he := hf.eraseClear
  refine ⟨fun sp x => ?_, ?_⟩
  · simp only [← rowBase_eq_iff hP, flWrite_array hu he]
    by_cases hsp : sp = spaceOf cfg
    · rw [if_pos hsp, memRead_updateRow hP (hf.arrays _), hsp]
      by_cases hc : rowBase P x = rowBase P a ∧ implemented P (spaceOf cfg) x = true
      · rw [if_pos hc, if_pos ⟨rfl, hc⟩, clip_memRead_and_latch hP hf w _ hc.1]
        rfl
      · rw [if_neg hc, if_neg fun h => hc h.2]
    · rw [if_neg hsp, if_neg fun h => hsp h.1]
  · rw [flWrite_eq hu he]
    exact ⟨rfl, rfl, rfl, rfl, rfl, (setArray_fconErase _ _ _).trans he, rfl, setArray_intInhibit _ _ _⟩

/-! ### Critical sections and their strobes -/

/-- `cfg_mode` of the commands of a space (30_encoding.md R54). -/
def cfgOf (sp : Space) : Bool := decide (sp = .cm)

@[simp] theorem spaceOf_cfgOf (sp : Space) : spaceOf (cfgOf sp) = sp := by cases sp <;> rfl

theorem exec_readIn (sp : Space) (a : Addr) (s : State) :
    exec (readIn sp a) s = .next (readCommand (opcode (readIn sp a)) a s) := by cases sp <;> rfl

theorem exec_eraseIn (sp : Space) (a : Addr) (s : State) :
    exec (eraseIn sp a) s = .next (eraseCommand (opcode (eraseIn sp a)) a s) := by cases sp <;> rfl

theorem exec_programIn (sp : Space) (a : Addr) (ws : List Word) (s : State) :
    exec (programIn sp a ws) s = .next (programCommand (opcode (programIn sp a ws)) a ws s) := by cases sp <;> rfl

theorem readIn_cfg (sp : Space) (a : Addr) : (opcode (readIn sp a)).getLsbD 2 = cfgOf sp := by
  cases sp <;> simp [opcode, readIn, cfgOf]

theorem eraseIn_cfg (sp : Space) (a : Addr) : (opcode (eraseIn sp a)).getLsbD 2 = cfgOf sp := by
  cases sp <;> simp [opcode, eraseIn, cfgOf]

theorem programIn_cfg (sp : Space) (a : Addr) (ws : List Word) :
    (opcode (programIn sp a ws)).getLsbD 2 = cfgOf sp := by
  cases sp <;> simp [opcode, programIn, cfgOf]

theorem strobesOf_eraseIn (P : Params) (sp : Space) (a : Addr) :
    strobesOf P (eraseIn sp a) = eraseRowOps (cfgOf sp) a := by cases sp <;> rfl

theorem strobesOf_programIn (P : Params) (sp : Space) (a : Addr) (ws : List Word) :
    strobesOf P (programIn sp a ws) = programRowOps P (cfgOf sp) a ws := by cases sp <;> rfl

theorem eraseIn_flash {s t : State} {sp : Space} {a : Addr} (h : exec (eraseIn sp a) s = .next t) :
    t.flash = criticalSection s.params (eraseRowOps (cfgOf sp) a) s.flash := by
  rw [exec_eraseIn] at h
  injection h with h
  rw [← h, eraseCommand_flash, eraseIn_cfg]

theorem programIn_flash {s t : State} {sp : Space} {a : Addr} {ws : List Word}
    (h : exec (programIn sp a ws) s = .next t) :
    t.flash = criticalSection s.params (programRowOps s.params (cfgOf sp) a ws) s.flash := by
  rw [exec_programIn] at h
  injection h with h
  rw [← h, programCommand_flash, programIn_cfg]

/-- A Read command moves the selection, `FDATA` and the count of free values only. -/
theorem readIn_flash {s t : State} {sp : Space} {a : Addr} (h : exec (readIn sp a) s = .next t) :
    ∃ c b d m, t.flash = { s.flash with fconCfg := c, faddr := b, fdata := d, freeCount := m } := by
  rw [exec_readIn] at h
  injection h with h
  obtain ⟨c, b, d, m, hf, -⟩ := readWords_flash s.params (cfgOf sp) a
    (s.flash, putHeader s.ce.txBuf (opcode (readIn sp a)) (hiByte a) (loByte a)) s.params.xferWords
  exact ⟨c, b, d, m, by rw [← h, readCommand_flash, readIn_cfg, hf]⟩

theorem runOps_intInhibit {P : Params} (ops : List FlashOp) {f : Flash} (hu : f.unlock = .idle)
    (he : f.fconErase = false) : (runOps P ops (csEnter f)).intInhibit = true := by
  obtain ⟨-, -, hinhibit, -, -⟩ := runOps_atRest (P := P) (f := csEnter f) ops hu he
  exact hinhibit

/-- Settles O31: no micro-operation moves `int_inhibit`, and each Erase and Program is one section by its definition. -/
theorem everyMicroOperationRunsInTheCriticalSection : Obligations.EveryMicroOperationRunsInTheCriticalSection := by
  refine ⟨fun P ops k f hu he => ⟨runOps_intInhibit _ hu he, rfl⟩, fun s t sp a h => ?_,
    fun s t sp a ws h => ?_, fun s t sp a h => ?_⟩
  · rw [eraseIn_flash h, strobesOf_eraseIn]
  · rw [programIn_flash h, strobesOf_programIn]
  · obtain ⟨c, b, d, m, hf⟩ := readIn_flash h
    rw [hf]

/-- Settles O32: of the words of a PROGRAM_MEM all but the last are latch loads, and every word of a PROGRAM_CFG is a
commit. -/
theorem programCommitCounts : Obligations.ProgramCommitCounts := by
  intro P a ws hP
  refine ⟨?_, List.map_congr_left fun k _ => programOp_cfg P a ws k⟩
  refine (programRowOps_snoc hP false a ws).trans (congrArg (· ++ _) (List.map_congr_left fun k hk => ?_))
  exact programOp_load a ws (List.mem_range.1 hk).ne

end Sys2Proof.Proofs
end

section
/-! SUPPORT. The six commands: the statements on what each does to the response, the arrays and the controller
(43_commands.md R98 to R103). -/

namespace Sys2Proof.Proofs
open Sys2Proof.Machine Sys2Proof.Laws

/-! ### Read -/

/-- The flash and the response of a Read command are those of its row of reads. -/
theorem readCommand_pair (code : Byte) (a : Addr) (s : State) :
    ((readCommand code a s).flash, (readCommand code a s).ce.txBuf) =
      (List.range s.params.xferWords).foldl (readWordInto s.params (code.getLsbD 2) a)
        (s.flash, putHeader s.ce.txBuf code (hiByte a) (loByte a)) := by
  refine Prod.ext (readCommand_flash code a s) ?_
  simp only [readCommand, beginCommand, endDispatch_txBuf, beginDispatch_params, beginDispatch_cfgMode,
    beginDispatch_reqAddr, beginDispatch_flash, beginDispatch_txBuf, addrOfBytes_hi_lo]
  rfl

/-- After the last of `n` reads `FDATA` holds the word there, where it exists. -/
theorem readWords_fdata {P : Params} {cfg : Bool} {a : Addr} {n : Nat} (ft : Flash × List Byte) (hn : 0 < n)
    (h : implemented P (spaceOf cfg) (wordAddr a (n - 1)) = true) :
    ((List.range n).foldl (readWordInto P cfg a) ft).1.fdata =
      memRead P (ft.1.array (spaceOf cfg)) (wordAddr a (n - 1)) := by
  obtain ⟨m, rfl⟩ := Nat.exists_eq_add_of_lt hn
  rw [Nat.zero_add, Nat.add_sub_cancel] at h ⊢
  obtain ⟨c, b, d, k, hf, -⟩ := readWords_flash P cfg a ft m
  rw [List.range_succ, List.foldl_append, List.foldl_cons, List.foldl_nil, readWordInto, flRead_implemented _ h, hf]
  show memRead P (Flash.array _ _) _ = _
  rw [array_congr rfl rfl]
  rfl

/-- Settles O17, from the loop over the words of the transfer. -/
theorem readCommandsReturnTheFlashWords : Obligations.ReadCommandsReturnTheFlashWords := by
  intro s sp a hP hlen
  have hexec := exec_readIn sp a s
  have hpair := readCommand_pair (opcode (readIn sp a)) a s
  set t := readCommand (opcode (readIn sp a)) a s with ht
  obtain ⟨hout, -, -⟩ := exec_outside hexec
  obtain ⟨hheader, hlength⟩ := readCommand_headerServed hP hlen (opcode (readIn sp a)) a
  have hcfg : t.ce.cfgMode = cfgOf sp := hheader.2.1.trans (readIn_cfg sp a)
  rw [readIn_cfg] at hpair
  set tx := putHeader s.ce.txBuf (opcode (readIn sp a)) (hiByte a) (loByte a)
  have hpos := (wellFormed_xfer hP).1
  have hroom : 3 + 2 * s.params.xferWords ≤ tx.length := by
    obtain ⟨-, -, -, hbytes, -⟩ := hP
    rw [putHeader_length, hlen]; exact hbytes
  have hrow := readRow_cases (P := s.params) (cfgOf sp) a s.flash tx s.params.xferWords hroom
  have hlast := readWords_fdata (P := s.params) (cfg := cfgOf sp) (a := a) (s.flash, tx) hpos
  rw [← hpair, spaceOf_cfgOf] at hlast
  simp only [← hpair, spaceOf_cfgOf] at hrow
  obtain ⟨-, ⟨c, b, d, m, hflash, hregs, -⟩, hwords, hrest⟩ := hrow
  obtain ⟨rfl, rfl, hd⟩ := hregs hpos
  refine ⟨t, hexec, hout, hheader, hcfg, rfl, hlength, hwords, fun i hi => ?_, ?_⟩
  · rw [hrest i (.inr hi)]
    exact bufByte_putHeader_rest _ _ _ _ (by omega)
  · rw [hflash] at hlast
    rw [SameArrays, hflash]
    exact ⟨⟨rfl, rfl⟩, rfl, rfl, rfl, rfl, rfl, rfl, rfl, rfl, hd, hlast⟩

/-! ### Erase -/

/-- `erase_row` as one record. -/
theorem criticalSection_erase {P : Params} {cfg : Bool} {a : Addr} {f : Flash} (hu : f.unlock = .idle) :
    criticalSection P (eraseRowOps cfg a) f =
      { f.setArray (spaceOf cfg)
          (updateRow P (spaceOf cfg) (rowBase P a) (fun _ _ => P.erasedWord) (f.array (spaceOf cfg)))
        with fconCfg := cfg, faddr := a, fconErase := false, unlock := .idle, intInhibit := false } := by
  have h : criticalSection P (eraseRowOps cfg a) f = csExit (flErase P cfg a (csEnter f)) := rfl
  rw [h, flErase_eq (f := csEnter f) hu]
  cases cfg <;> rfl

theorem inhibitedThroughout_of_flash {s t : State} {ops : List FlashOp} (hf : s.flash.BetweenOps s.params)
    (h : t.flash = criticalSection s.params ops s.flash) : InhibitedThroughout s t ops :=
  ⟨h, fun _ => runOps_intInhibit _ hf.unlockIdle hf.eraseClear⟩

/-- The words after `erase_row`. -/
theorem criticalSection_erase_read {P : Params} (hP : P.WellFormed) (cfg : Bool) (a : Addr) {f : Flash}
    (hf : f.BetweenOps P) (sp : Space) (x : Addr) :
    memRead P ((criticalSection P (eraseRowOps cfg a) f).array sp) x =
      if sp = spaceOf cfg ∧ rowBase P x = rowBase P a ∧ implemented P sp x = true then P.erasedWord
      else memRead P (f.array sp) x := by
  rw [criticalSection, csExit_array, eraseRow_read hP cfg a (f := csEnter f) hf.unlockIdle (betweenOps_enter hf).arrays,
    csEnter_array]

/-- Settles O18: the words by the loop over the row, the registers by the erase as one record. -/
theorem eraseCommandsEraseTheRowOfTheAddress : Obligations.EraseCommandsEraseTheRowOfTheAddress := by
  intro s sp a hP hf hlen
  have hexec := exec_eraseIn sp a s
  set t := eraseCommand (opcode (eraseIn sp a)) a s
  obtain ⟨hout, -, -⟩ := exec_outside hexec
  obtain ⟨hheader, hlength⟩ := eraseCommand_headerServed hP hlen (opcode (eraseIn sp a)) a
  have hflash := eraseIn_flash hexec
  have hread := criticalSection_erase_read hP (cfgOf sp) a hf.toBetweenOps
  rw [← hflash, spaceOf_cfgOf] at hread
  refine ⟨t, hexec, hout, hheader, hheader.2.1.trans (eraseIn_cfg sp a), rfl, hlength,
    fun i hi => bufByte_putHeader_rest _ _ _ _ hi, fun x hx himp => ?_, fun sp' x hx => ?_, ?_⟩
  · rw [hread, if_pos ⟨rfl, hx, himp⟩]
  · rw [hread, if_neg]
    rintro ⟨rfl, hb, himp⟩
    rcases hx with hx | hx | hx
    · exact hx rfl
    · exact hx hb
    · rw [himp] at hx; cases hx
  · have hthrough := inhibitedThroughout_of_flash hf.toBetweenOps hflash
    rw [criticalSection_erase hf.unlockIdle] at hflash
    rw [hflash]
    exact ⟨setArray_fdata _ _ _, setArray_latches _ _ _, rfl, rfl, setArray_fconCommit _ _ _, rfl,
      setArray_hung _ _ _, setArray_freeCount _ _ _, rfl, rfl, hthrough⟩

/-! ### Program -/

/-- `program_row` ends with the strobe of its last word. -/
theorem criticalSection_program_registers {P : Params} (hP : P.WellFormed) (cfg : Bool) (a : Addr) (ws : List Word)
    {f : Flash} (hu : f.unlock = .idle) (he : f.fconErase = false) :
    (criticalSection P (programRowOps P cfg a ws) f).fconCommit = true ∧
      (criticalSection P (programRowOps P cfg a ws) f).fconCfg = cfg ∧
      (criticalSection P (programRowOps P cfg a ws) f).faddr = wordAddr a (P.xferWords - 1) ∧
      (criticalSection P (programRowOps P cfg a ws) f).fdata = clip P (payloadWord ws (P.xferWords - 1)) := by
  rw [criticalSection, programRowOps_snoc hP, runOps_append]
  obtain ⟨hunlock, herase, -⟩ := runOps_atRest (P := P) (f := csEnter f)
    ((List.range (P.xferWords - 1)).map (programOp P cfg a ws)) hu he
  show (csExit (flWrite P cfg _ _ _)).fconCommit = true ∧ (csExit (flWrite P cfg _ _ _)).fconCfg = cfg ∧
    (csExit (flWrite P cfg _ _ _)).faddr = _ ∧ (csExit (flWrite P cfg _ _ _)).fdata = _
  rw [flWrite_eq hunlock herase]
  exact ⟨rfl, rfl, rfl, rfl⟩

section
variable {s : State} (hP : s.params.WellFormed) (hf : s.flash.Sound s.params) (hh : s.flash.hung = false)
include hP hf hh

/-- What a Program command leaves of the latches and the controller. -/
theorem programCommand_controller {sp : Space} {a : Addr} {ws : List Word} {t : State}
    (h : exec (programIn sp a ws) s = .next t) :
    t.flash.latches = List.replicate s.params.rowWords (wordMask s.params) ∧ t.flash.unlock = .idle ∧
      t.flash.fconErase = false ∧ t.flash.fconCommit = true ∧ t.flash.intInhibit = false ∧ t.flash.hung = false ∧
      t.flash.freeCount = s.flash.freeCount ∧ t.flash.fconCfg = cfgOf sp ∧
      t.flash.faddr = wordAddr a (s.params.xferWords - 1) ∧
      t.flash.fdata = clip s.params (ws.getD (s.params.xferWords - 1) 0#16) ∧
      InhibitedThroughout s t (strobesOf s.params (programIn sp a ws)) := by
  have hflash := programIn_flash h
  obtain ⟨hsound, hhung⟩ := exec_sound hP hf hh h
  obtain ⟨hunlock, herase, hinhibit, -, hcount⟩ := criticalSection_atRest (P := s.params)
    (programRowOps s.params (cfgOf sp) a ws) hf.unlockIdle hf.eraseClear
  obtain ⟨hcommit, hcfg, haddr, hdata⟩ := criticalSection_program_registers hP (cfgOf sp) a ws hf.unlockIdle
    hf.eraseClear
  have hthrough := inhibitedThroughout_of_flash hf.toBetweenOps hflash
  rw [← strobesOf_programIn] at hthrough
  have hlatches := hsound.latchesOnes hhung
  rw [hflash] at hlatches hhung ⊢
  exact ⟨hlatches, hunlock, herase, hcommit, hinhibit, hhung, hcount, hcfg, haddr, hdata, hthrough⟩

/-- The words after PROGRAM_MEM. -/
theorem programMem_read {a : Addr} {ws : List Word} {t : State} (h : exec (.programMem a ws) s = .next t) :
    t.flash.cm = s.flash.cm ∧
      (∀ k < s.params.xferWords, ∀ x, rowBase s.params x = commitRow s.params a →
        rowIndex s.params x = rowIndex s.params (wordAddr a k) → implemented s.params .pm x = true →
        memRead s.params t.flash.pm x = memRead s.params s.flash.pm x &&& payloadWord ws k) ∧
      (∀ x, rowBase s.params x ≠ commitRow s.params a ∨
        (∀ k < s.params.xferWords, rowIndex s.params x ≠ rowIndex s.params (wordAddr a k)) ∨
        implemented s.params .pm x = false → memRead s.params t.flash.pm x = memRead s.params s.flash.pm x) := by
  have hflash := programIn_flash (sp := .pm) h
  obtain ⟨hcm, -, hwords, hrest⟩ := programRow_pm hP a ws (f := csEnter s.flash) hf.unlockIdle hf.eraseClear
    (hf.latchesOnes hh) (hf.arrays .pm)
  rw [hflash]
  exact ⟨hcm, hwords, hrest⟩

/-- The words after PROGRAM_CFG. -/
theorem programCfg_read {a : Addr} {ws : List Word} {t : State} (h : exec (.programCfg a ws) s = .next t) :
    t.flash.pm = s.flash.pm ∧
      (∀ k < s.params.xferWords, implemented s.params .cm (wordAddr a k) = true →
        memRead s.params t.flash.cm (wordAddr a k) =
          memRead s.params s.flash.cm (wordAddr a k) &&& payloadWord ws k) ∧
      (∀ x, (∀ k < s.params.xferWords, x ≠ wordAddr a k) ∨ implemented s.params .cm x = false →
        memRead s.params t.flash.cm x = memRead s.params s.flash.cm x) := by
  have hflash := programIn_flash (sp := .cm) h
  obtain ⟨hpm, -, hwords, hrest⟩ := programRow_cm hP a ws (f := csEnter s.flash) hf.unlockIdle hf.eraseClear
    (hf.latchesOnes hh) (hf.arrays .cm)
  rw [hflash]
  exact ⟨hpm, hwords, hrest⟩

end

/-- Settles O19, from `program_row` in program memory. -/
theorem programMemAndsTheLatchesIntoTheLastWordsRow : Obligations.ProgramMemAndsTheLatchesIntoTheLastWordsRow := by
  intro s a ws hP hf hh hlen _
  have hexec : exec (.programMem a ws) s = .next (programCommand 0x82#8 a ws s) := rfl
  obtain ⟨hheader, hlength⟩ := programCommand_headerServed hP hlen 0x82#8 a ws
  obtain ⟨hcm, hwords, hrest⟩ := programMem_read hP hf hh hexec
  exact ⟨_, hexec, (exec_outside hexec).1, hheader, rfl, hlength, fun i hi => bufByte_putHeader_rest _ _ _ _ hi,
    hwords, hrest, hcm, programCommand_controller (sp := .pm) hP hf hh hexec⟩

/-- Settles O21, from `program_row` in configuration memory. -/
theorem programCfgAndsWordByWord : Obligations.ProgramCfgAndsWordByWord := by
  intro s a ws hP hf hh hlen _
  have hexec : exec (.programCfg a ws) s = .next (programCommand 0x86#8 a ws s) := rfl
  obtain ⟨hheader, hlength⟩ := programCommand_headerServed hP hlen 0x86#8 a ws
  obtain ⟨hpm, hwords, hrest⟩ := programCfg_read hP hf hh hexec
  exact ⟨_, hexec, (exec_outside hexec).1, hheader, rfl, hlength, fun i hi => bufByte_putHeader_rest _ _ _ _ hi,
    hwords, hrest, hpm, programCommand_controller (sp := .cm) hP hf hh hexec⟩

/-! ### Aligned transfers -/

/-- A row is a whole number of transfers. -/
theorem xferWords_dvd_rowWords {P : Params} (hP : P.WellFormed) : P.xferWords ∣ P.rowWords := by
  obtain ⟨-, -, hx, -⟩ := hP
  rcases hx with hx | hx
  · exact hx ▸ dvd_rfl
  · exact ⟨2, by omega⟩

/-- The words of an aligned transfer do not wrap. -/
theorem aligned_toNat {P : Params} (hP : P.WellFormed) {a : Addr} (ha : a.toNat % P.xferWords = 0) {k : Nat}
    (hk : k < P.xferWords) : (wordAddr a k).toNat = a.toNat + k := by
  obtain ⟨c, hc⟩ := (xferWords_dvd_rowWords hP).trans (wellFormed_row_dvd hP)
  obtain ⟨q, hq⟩ := Nat.dvd_of_mod_eq_zero ha
  have hlt : q < c := Nat.lt_of_mul_lt_mul_left (a := P.xferWords) (by rw [← hq, ← hc]; exact a.isLt)
  have hle : P.xferWords * (q + 1) ≤ P.xferWords * c := Nat.mul_le_mul_left _ hlt
  rw [Nat.mul_add, ← hq, ← hc] at hle
  rw [wordAddr_toNat, Nat.mod_eq_of_lt (by omega)]

/-- An aligned transfer lies in one row. -/
theorem aligned_rowBase {P : Params} (hP : P.WellFormed) {a : Addr} (ha : a.toNat % P.xferWords = 0) {k : Nat}
    (hk : k < P.xferWords) : rowBase P (wordAddr a k) = commitRow P a := by
  have hunit : ∀ j < P.xferWords, (wordAddr a j).toNat / P.rowWords = a.toNat / P.rowWords := by
    intro j hj
    obtain ⟨q, hq⟩ := Nat.dvd_of_mod_eq_zero ha
    obtain ⟨c, hc⟩ := xferWords_dvd_rowWords hP
    rw [aligned_toNat hP ha hj, hc, ← Nat.div_div_eq_div_mul, ← Nat.div_div_eq_div_mul, hq,
      Nat.mul_add_div (by omega), Nat.div_eq_of_lt hj, Nat.add_zero, Nat.mul_div_cancel_left _ (by omega)]
  rw [commitRow, rowBase_eq_iff hP, hunit k hk, hunit _ (by omega)]

/-- An aligned PROGRAM_MEM writes the words of its transfer: the row that is written is the row of each. -/
theorem programMem_aligned_read {s t : State} (hP : s.params.WellFormed) (hf : s.flash.Sound s.params)
    (hh : s.flash.hung = false) {a : Addr} {ws : List Word} (ha : a.toNat % s.params.xferWords = 0)
    (h : exec (.programMem a ws) s = .next t) :
    (∀ k < s.params.xferWords, implemented s.params .pm (wordAddr a k) = true →
      memRead s.params t.flash.pm (wordAddr a k) =
        memRead s.params s.flash.pm (wordAddr a k) &&& payloadWord ws k) ∧
    (∀ x, (∀ k < s.params.xferWords, x ≠ wordAddr a k) →
      memRead s.params t.flash.pm x = memRead s.params s.flash.pm x) := by
  obtain ⟨-, hwords, hrest⟩ := programMem_read hP hf hh h
  refine ⟨fun k hk himp => hwords k hk _ (aligned_rowBase hP ha hk) rfl himp, fun x hx => hrest x ?_⟩
  by_cases hb : rowBase s.params x = commitRow s.params a
  · exact .inr (.inl fun k hk hi =>
      hx k hk (eq_of_rowBase_rowIndex hP (hb.trans (aligned_rowBase hP ha hk).symm) hi))
  · exact .inl hb

/-- Settles O20, from the rows of an aligned transfer. -/
theorem alignedProgramMemWritesItsTransferUnit : Obligations.AlignedProgramMemWritesItsTransferUnit := by
  intro s a ws hP hf hh _ ha
  exact ⟨_, rfl, programMem_aligned_read hP hf hh ha rfl⟩

end Sys2Proof.Proofs
end

section
/-! SUPPORT. Commands one after the other: what repeating one does, and what is read back after an Erase and Programs
(20_memory.md R40, 41_flash_primitives.md R79, 70_reset_and_hazards.md R125). -/

namespace Sys2Proof.Proofs
open Sys2Proof.Machine Sys2Proof.Laws

/-! ### Arrays that read alike -/

/-- A byte of a canonical array has no bits above the mask. -/
theorem readByte_maskByte {P : Params} (hP : P.WellFormed) {m : Memory} (hm : Memory.wf P m = true) (n : Nat) :
    readByte P m n &&& maskByte P n = readByte P m n := by
  induction m with
  | nil =>
    have hblank : P.erasedWord &&& wordMask P = P.erasedWord := clip_erasedWord hP
    simp only [readByte, blankByte, maskByte]
    split
    · rw [← loByte_and, hblank]
    · rw [← hiByte_and, hblank]
  | cons c rest ih =>
    obtain ⟨b, v⟩ := c
    obtain ⟨-, hok, hrest⟩ := wf_cons.1 hm
    simp only [Memory.entryOk, Bool.and_eq_true, beq_iff_eq] at hok
    simp only [readByte]
    split
    · rename_i hb
      exact hb ▸ hok.2
    · exact ih hrest

/-- The two bytes of a word are the halves of what the word reads as. -/
theorem readByte_eq_of_memRead {P : Params} (hP : P.WellFormed) {m : Memory} (hm : Memory.wf P m = true) (a : Addr) :
    readByte P m (2 * a.toNat) = loByte (memRead P m a) ∧
      readByte P m (2 * a.toNat + 1) = hiByte (memRead P m a) := by
  have hlo := readByte_maskByte hP hm (2 * a.toNat)
  have hhi := readByte_maskByte hP hm (2 * a.toNat + 1)
  rw [maskByte, if_pos (by omega)] at hlo
  rw [maskByte, if_neg (by omega)] at hhi
  rw [memRead, clip, loByte_and, hiByte_and, loByte_wordOfBytes, hiByte_wordOfBytes, hlo, hhi]
  exact ⟨rfl, rfl⟩

/-- Nothing is listed beyond the array. -/
theorem readByte_beyond {P : Params} {m : Memory} (hm : Memory.wf P m = true) {n : Nat} (hn : 2 * 2 ^ 16 ≤ n) :
    readByte P m n = blankByte P n := by
  induction m with
  | nil => rfl
  | cons c rest ih =>
    obtain ⟨b, v⟩ := c
    obtain ⟨-, hok, hrest⟩ := wf_cons.1 hm
    simp only [Memory.entryOk, Bool.and_eq_true, decide_eq_true_eq] at hok
    rw [readByte, if_neg (by omega), ih hrest]

/-- Canonical arrays whose words read alike are the same list. -/
theorem eq_of_memRead {P : Params} (hP : P.WellFormed) {m m' : Memory} (hm : Memory.wf P m = true)
    (hm' : Memory.wf P m' = true) (h : ∀ a, memRead P m a = memRead P m' a) : m = m' := by
  refine eq_of_readByte hm hm' fun n => ?_
  by_cases hn : 2 * 2 ^ 16 ≤ n
  · rw [readByte_beyond hm hn, readByte_beyond hm' hn]
  · have ha : (BitVec.ofNat 16 (n / 2)).toNat = n / 2 := by
      rw [BitVec.toNat_ofNat, Nat.mod_eq_of_lt (by omega)]
    obtain ⟨hlo, hhi⟩ := readByte_eq_of_memRead hP hm (BitVec.ofNat 16 (n / 2))
    obtain ⟨hlo', hhi'⟩ := readByte_eq_of_memRead hP hm' (BitVec.ofNat 16 (n / 2))
    rw [ha] at hlo hhi hlo' hhi'
    rcases Nat.mod_two_eq_zero_or_one n with hmod | hmod
    · rw [show n = 2 * (n / 2) by omega, hlo, hlo', h]
    · rw [show n = 2 * (n / 2) + 1 by omega, hhi, hhi', h]

theorem sameArrays_of_memRead {s t : State} {P : Params} (hP : P.WellFormed) (hs : s.flash.Sound P)
    (ht : t.flash.Sound P) (h : ∀ sp x, memRead P (t.flash.array sp) x = memRead P (s.flash.array sp) x) :
    SameArrays s t :=
  ⟨eq_of_memRead hP (ht.arrays .pm) (hs.arrays .pm) (h .pm), eq_of_memRead hP (ht.arrays .cm) (hs.arrays .cm) (h .cm)⟩

/-! ### States in which a command can be executed -/

/-- What a command needs and leaves. -/
structure Ready (P : Params) (s : State) : Prop where
  params  : s.params = P
  sound   : s.flash.Sound P
  notHung : s.flash.hung = false

theorem ready_exec {P : Params} (hP : P.WellFormed) {i : Instr} {s t : State} (h : Ready P s)
    (ht : exec i s = .next t) : Ready P t := by
  obtain ⟨rfl, hs, hh⟩ := h
  obtain ⟨⟨hp, -⟩, -⟩ := exec_outside ht
  obtain ⟨hs', hh'⟩ := exec_sound hP hs hh ht
  exact ⟨hp, hs', hh'⟩

theorem execAll_cons {i : Instr} {s t : State} (h : exec i s = .next t) (is : List Instr) :
    execAll (i :: is) s = execAll is t := by
  rw [execAll, h]

theorem execAll_append {is : List Instr} {s t : State} (h : execAll is s = .next t) (js : List Instr) :
    execAll (is ++ js) s = execAll js t := by
  induction is generalizing s with
  | nil => injection h with h; subst h; rfl
  | cons i is ih =>
    rw [execAll] at h
    cases hi : exec i s with
    | next u =>
      rw [hi] at h
      rw [List.cons_append, execAll_cons hi]
      exact ih h
    | fault r => rw [hi] at h; cases h
    | refused r => rw [hi] at h; cases h

/-- Two commands one after the other. -/
theorem execAll_twice {i : Instr} {s t u : State} (ht : execAll [i] s = .next t) (hu : execAll [i, i] s = .next u) :
    exec i s = .next t ∧ exec i t = .next u := by
  cases hi : exec i s with
  | next v =>
    rw [execAll_cons hi] at ht hu
    injection ht with ht
    subst ht
    refine ⟨rfl, ?_⟩
    cases hv : exec i v with
    | next w => rw [execAll_cons hv] at hu; injection hu with hu; rw [hu]
    | fault r => rw [execAll, hv] at hu; cases hu
    | refused r => rw [execAll, hv] at hu; cases hu
  | fault r => rw [execAll, hi] at ht; cases ht
  | refused r => rw [execAll, hi] at ht; cases ht

/-! ### Programs clear bits -/

/-- The command ANDs `v` into word `x` of `sp`, from whatever state it is executed. -/
def AndsAt (P : Params) (i : Instr) (sp : Space) (x : Addr) (v : Word) : Prop :=
  ∀ s t, Ready P s → exec i s = .next t →
    memRead P (t.flash.array sp) x = memRead P (s.flash.array sp) x &&& v

theorem andsAt_allOnes {P : Params} {i : Instr} {sp : Space} {x : Addr}
    (h : ∀ s t, Ready P s → exec i s = .next t → memRead P (t.flash.array sp) x = memRead P (s.flash.array sp) x) :
    AndsAt P i sp x (BitVec.allOnes 16) :=
  fun s t hs ht => (h s t hs ht).trans BitVec.and_allOnes.symm

theorem programMem_ands {P : Params} (hP : P.WellFormed) (a : Addr) (ws : List Word) (sp : Space) (x : Addr) :
    ∃ v, AndsAt P (.programMem a ws) sp x v := by
  cases sp with
  | cm =>
    refine ⟨_, andsAt_allOnes fun s t hs ht => ?_⟩
    obtain ⟨rfl, hf, hh⟩ := hs
    obtain ⟨hcm, -, -⟩ := programMem_read hP hf hh ht
    exact congrArg (memRead s.params · x) hcm
  | pm =>
    by_cases hx : rowBase P x = commitRow P a ∧ implemented P .pm x = true ∧
        ∃ k < P.xferWords, rowIndex P x = rowIndex P (wordAddr a k)
    · obtain ⟨hb, himp, k, hk, hi⟩ := hx
      refine ⟨payloadWord ws k, fun s t hs ht => ?_⟩
      obtain ⟨rfl, hf, hh⟩ := hs
      obtain ⟨-, hwords, -⟩ := programMem_read hP hf hh ht
      exact hwords k hk x hb hi himp
    · refine ⟨_, andsAt_allOnes fun s t hs ht => ?_⟩
      obtain ⟨rfl, hf, hh⟩ := hs
      obtain ⟨-, -, hrest⟩ := programMem_read hP hf hh ht
      refine hrest x ?_
      by_contra hn
      push Not at hn
      exact hx ⟨hn.1, by simpa using hn.2.2, hn.2.1⟩

theorem programCfg_ands {P : Params} (hP : P.WellFormed) (a : Addr) (ws : List Word) (sp : Space) (x : Addr) :
    ∃ v, AndsAt P (.programCfg a ws) sp x v := by
  cases sp with
  | pm =>
    refine ⟨_, andsAt_allOnes fun s t hs ht => ?_⟩
    obtain ⟨rfl, hf, hh⟩ := hs
    obtain ⟨hpm, -, -⟩ := programCfg_read hP hf hh ht
    exact congrArg (memRead s.params · x) hpm
  | cm =>
    by_cases hx : implemented P .cm x = true ∧ ∃ k < P.xferWords, x = wordAddr a k
    · obtain ⟨himp, k, hk, rfl⟩ := hx
      refine ⟨payloadWord ws k, fun s t hs ht => ?_⟩
      obtain ⟨rfl, hf, hh⟩ := hs
      obtain ⟨-, hwords, -⟩ := programCfg_read hP hf hh ht
      exact hwords k hk himp
    · refine ⟨_, andsAt_allOnes fun s t hs ht => ?_⟩
      obtain ⟨rfl, hf, hh⟩ := hs
      obtain ⟨-, -, hrest⟩ := programCfg_read hP hf hh ht
      refine hrest x ?_
      by_contra hn
      push Not at hn
      exact hx ⟨by simpa using hn.2, hn.1⟩

/-- A Program command ANDs into every word a value that depends on the command alone. -/
theorem programIn_ands {P : Params} (hP : P.WellFormed) (sp : Space) (a : Addr) (ws : List Word) (sp' : Space)
    (x : Addr) : ∃ v, AndsAt P (programIn sp a ws) sp' x v := by
  cases sp with
  | pm => exact programMem_ands hP a ws sp' x
  | cm => exact programCfg_ands hP a ws sp' x

/-- Settles O22: every word is ANDed with something. -/
theorem programmingOnlyClearsBits : Obligations.ProgrammingOnlyClearsBits := by
  intro s t sp a ws hP hf hh h sp' x
  obtain ⟨v, hv⟩ := programIn_ands hP sp a ws sp' x
  rw [hv s t ⟨rfl, hf, hh⟩ h, BitVec.and_comm, ← BitVec.and_assoc, BitVec.and_self]

/-- The words after an Erase command. -/
theorem eraseIn_read {P : Params} (hP : P.WellFormed) {sp : Space} {a : Addr} {s t : State} (hs : Ready P s)
    (h : exec (eraseIn sp a) s = .next t) (sp' : Space) (x : Addr) :
    memRead P (t.flash.array sp') x =
      if sp' = sp ∧ rowBase P x = rowBase P a ∧ implemented P sp' x = true then P.erasedWord
      else memRead P (s.flash.array sp') x := by
  obtain ⟨rfl, hf, -⟩ := hs
  have hread := criticalSection_erase_read hP (cfgOf sp) a hf.toBetweenOps sp' x
  rw [spaceOf_cfgOf] at hread
  rw [eraseIn_flash h, hread]

/-- Settles O23: the second command finds every word as it would leave it. -/
theorem repeatedEraseOrProgramChangesNothing : Obligations.RepeatedEraseOrProgramChangesNothing := by
  intro s t u sp a ws hP hf hh
  have hs : Ready s.params s := ⟨rfl, hf, hh⟩
  refine ⟨fun ht hu => ?_, fun ht hu => ?_⟩
  · obtain ⟨h1, h2⟩ := execAll_twice ht hu
    have hrt := ready_exec hP hs h1
    refine sameArrays_of_memRead hP hrt.sound (ready_exec hP hrt h2).sound fun sp' x => ?_
    rw [eraseIn_read hP hrt h2, eraseIn_read hP hs h1]
    split <;> rfl
  · obtain ⟨h1, h2⟩ := execAll_twice ht hu
    have hrt := ready_exec hP hs h1
    refine sameArrays_of_memRead hP hrt.sound (ready_exec hP hrt h2).sound fun sp' x => ?_
    obtain ⟨v, hv⟩ := programIn_ands hP sp a ws sp' x
    rw [hv t u hrt h2, hv s t hs h1, BitVec.and_assoc, BitVec.and_self]

/-! ### Reading back -/

/-- The addresses of a transfer within a row. -/
theorem wordAddr_wordAddr (a : Addr) (j k : Nat) : wordAddr (wordAddr a j) k = wordAddr a (j + k) := by
  rw [wordAddr, wordAddr, wordAddr, BitVec.ofNat_add, BitVec.add_assoc]

/-- The words that a Read command puts into the response. -/
theorem readIn_words {P : Params} (hP : P.WellFormed) {sp : Space} (a : Addr) {s : State} (hp : s.params = P)
    (hlen : s.ce.txBuf.length = P.reportBytes)
    (himp : ∀ k < P.xferWords, implemented P sp (wordAddr a k) = true) :
    ∃ t, exec (readIn sp a) s = .next t ∧ ∀ k < P.xferWords,
      wordOfBytes (bufByte t.ce.txBuf (3 + 2 * k)) (bufByte t.ce.txBuf (4 + 2 * k)) =
        memRead P (s.flash.array sp) (wordAddr a k) := by
  subst hp
  obtain ⟨t, hexec, -, -, -, -, -, hwords, -⟩ := readCommandsReturnTheFlashWords s sp a hP hlen
  refine ⟨t, hexec, fun k hk => ?_⟩
  obtain ⟨w, -, hlo, hhi, hw⟩ := hwords k hk
  rw [hlo, hhi, wordOfBytes_lo_hi, hw (himp k hk)]

/-- A word of a row from its base. -/
theorem rowBase_wordAddr {P : Params} (hP : P.WellFormed) {r : Addr} (hr : rowBase P r = r) {i : Nat}
    (hi : i < P.rowWords) : rowBase P (wordAddr r i) = rowBase P r := by
  have h := (rowBase_rowBase_add hP r hi).1
  rw [hr] at h
  exact h.trans hr.symm

/-- Settles O24: the Read finds the row that the Erase left. -/
theorem eraseThenReadReturnsErasedWords : Obligations.EraseThenReadReturnsErasedWords := by
  intro s sp r j hP hf hlen hr himp hj
  have hunit : ∀ k < s.params.xferWords, j * s.params.xferWords + k < s.params.rowWords := by
    intro k hk
    rw [Nat.add_mul] at hj
    omega
  have herase := exec_eraseIn sp r s
  set t := eraseCommand (opcode (eraseIn sp r)) r s
  have hread := criticalSection_erase_read hP (cfgOf sp) r hf.toBetweenOps
  rw [← eraseIn_flash herase, spaceOf_cfgOf] at hread
  obtain ⟨u, hu, hwords⟩ := readIn_words hP (sp := sp) (wordAddr r (j * s.params.xferWords)) (s := t) rfl
    ((putHeader_length _ _ _ _).trans hlen)
    fun k hk => by rw [wordAddr_wordAddr]; exact himp _ (hunit k hk)
  refine ⟨u, by rw [execAll_cons herase, execAll_cons hu]; rfl, fun k hk => ?_⟩
  rw [hwords k hk, wordAddr_wordAddr, hread,
    if_pos ⟨rfl, rowBase_wordAddr hP hr (hunit k hk), himp _ (hunit k hk)⟩]

/-! ### Writing a row unit by unit -/

/-- The first address of a transfer unit of a row. -/
def unitAddr (P : Params) (r : Addr) (n : Nat) : Addr := wordAddr r (n * P.xferWords)

/-- The words of `W` that go to a transfer unit. -/
def unitWords (P : Params) (W : List Word) (n : Nat) : List Word := (W.drop (n * P.xferWords)).take P.xferWords

theorem unitWords_getD (P : Params) (W : List Word) (n : Nat) {k : Nat} (hk : k < P.xferWords) :
    payloadWord (unitWords P W n) k = W.getD (n * P.xferWords + k) 0#16 := by
  simp [payloadWord, unitWords, List.getD_eq_getElem?_getD, hk]

theorem unitAddr_aligned {P : Params} (hP : P.WellFormed) {r : Addr} (hr : rowBase P r = r) (n : Nat) :
    (unitAddr P r n).toNat % P.xferWords = 0 := by
  have hdvd := xferWords_dvd_rowWords hP
  have hbase : P.xferWords ∣ r.toNat := by
    rw [← hr, rowBase_toNat hP]
    exact hdvd.mul_left _
  rw [unitAddr, wordAddr_toNat, Nat.mod_mod_of_dvd _ (hdvd.trans (wellFormed_row_dvd hP))]
  exact Nat.mod_eq_zero_of_dvd (hbase.add (dvd_mul_left _ _))

/-- An aligned Program command writes the words of its transfer, in either space. -/
theorem programIn_aligned_read {P : Params} (hP : P.WellFormed) {sp : Space} {a : Addr} {ws : List Word} {s t : State}
    (hs : Ready P s) (ha : a.toNat % P.xferWords = 0) (h : exec (programIn sp a ws) s = .next t) :
    (∀ k < P.xferWords, implemented P sp (wordAddr a k) = true →
      memRead P (t.flash.array sp) (wordAddr a k) =
        memRead P (s.flash.array sp) (wordAddr a k) &&& payloadWord ws k) ∧
    (∀ x, (∀ k < P.xferWords, x ≠ wordAddr a k) →
      memRead P (t.flash.array sp) x = memRead P (s.flash.array sp) x) := by
  obtain ⟨rfl, hf, hh⟩ := hs
  cases sp with
  | pm => exact programMem_aligned_read hP hf hh ha h
  | cm =>
    obtain ⟨-, hwords, hrest⟩ := programCfg_read hP hf hh h
    exact ⟨hwords, fun x hx => hrest x (.inl hx)⟩

section
variable {P : Params} (hP : P.WellFormed) {sp : Space} {r : Addr} (hr : rowBase P r = r)
  (himp : ∀ i < P.rowWords, implemented P sp (wordAddr r i) = true)
include hP hr himp

/-- Programming one unit of a row ANDs its words in, and leaves the other words of the row alone. -/
theorem programUnit_read {W : List Word} {n : Nat} (hn : (n + 1) * P.xferWords ≤ P.rowWords) {s t : State}
    (hs : Ready P s) (h : exec (programIn sp (unitAddr P r n) (unitWords P W n)) s = .next t) {i : Nat}
    (hi : i < P.rowWords) :
    memRead P (t.flash.array sp) (wordAddr r i) =
      if i / P.xferWords = n then memRead P (s.flash.array sp) (wordAddr r i) &&& W.getD i 0#16
      else memRead P (s.flash.array sp) (wordAddr r i) := by
  have hpos := (wellFormed_xfer hP).1
  have hrow := wellFormed_row_le hP
  obtain ⟨hwords, hrest⟩ := programIn_aligned_read hP hs (unitAddr_aligned hP hr n) h
  by_cases hin : i / P.xferWords = n
  · have hk : i % P.xferWords < P.xferWords := Nat.mod_lt _ hpos
    have hsum : n * P.xferWords + i % P.xferWords = i := hin ▸ Nat.div_add_mod' i P.xferWords
    have hword := hwords _ hk
    rw [unitAddr, wordAddr_wordAddr, hsum, unitWords_getD P W n hk, hsum] at hword
    rw [if_pos hin, hword (himp i hi)]
  · rw [if_neg hin]
    refine hrest _ fun k hk heq => hin ?_
    rw [Nat.add_mul] at hn
    rw [unitAddr, wordAddr_wordAddr] at heq
    rw [wordAddr_inj (by omega) (by omega) heq, Nat.add_comm, Nat.add_mul_div_right _ _ hpos, Nat.div_eq_of_lt hk,
      Nat.zero_add]

/-- Programming some units of an erased row, each once and in any order, writes their words and no others. -/
theorem programUnits_read {W : List Word} (hW : ∀ i < P.rowWords, W.getD i 0#16 &&& wordMask P = W.getD i 0#16)
    {order : List Nat} (hnodup : order.Nodup) (horder : ∀ n ∈ order, (n + 1) * P.xferWords ≤ P.rowWords) {s : State}
    (hs : Ready P s) (hlen : s.ce.txBuf.length = P.reportBytes)
    (hblank : ∀ i < P.rowWords, i / P.xferWords ∈ order →
      memRead P (s.flash.array sp) (wordAddr r i) = wordMask P) :
    ∃ t, execAll (order.map fun n => programIn sp (unitAddr P r n) (unitWords P W n)) s = .next t ∧ Ready P t ∧
      t.ce.txBuf.length = P.reportBytes ∧
      ∀ i < P.rowWords, memRead P (t.flash.array sp) (wordAddr r i) =
        if i / P.xferWords ∈ order then W.getD i 0#16 else memRead P (s.flash.array sp) (wordAddr r i) := by
  induction order generalizing s with
  | nil => exact ⟨s, rfl, hs, hlen, fun i _ => (if_neg List.not_mem_nil).symm⟩
  | cons n rest ih =>
    obtain ⟨hnew, hnodup'⟩ := List.nodup_cons.1 hnodup
    obtain ⟨hn, hrest⟩ := List.forall_mem_cons.1 horder
    have hexec := exec_programIn sp (unitAddr P r n) (unitWords P W n) s
    set u := programCommand (opcode (programIn sp (unitAddr P r n) (unitWords P W n))) (unitAddr P r n)
      (unitWords P W n) s
    have hu := ready_exec hP hs hexec
    have hread := fun i => programUnit_read hP hr himp (W := W) hn hs hexec (i := i)
    obtain ⟨t, hall, ht, htlen, hwords⟩ := ih hnodup' hrest hu ((putHeader_length _ _ _ _).trans hlen)
      fun i hi hmem => by
        have hne : i / P.xferWords ≠ n := fun h => hnew (h ▸ hmem)
        rw [hread i hi, if_neg hne]
        exact hblank i hi (List.mem_cons_of_mem _ hmem)
    refine ⟨t, (execAll_cons hexec _).trans hall, ht, htlen, fun i hi => ?_⟩
    rw [hwords i hi, hread i hi]
    by_cases hmem : i / P.xferWords ∈ rest
    · rw [if_pos hmem, if_pos (List.mem_cons_of_mem _ hmem)]
    · rw [if_neg hmem]
      by_cases hin : i / P.xferWords = n
      · rw [if_pos hin, if_pos (hin ▸ List.mem_cons_self), hblank i hi (hin ▸ List.mem_cons_self), BitVec.and_comm,
          hW i hi]
      · rw [if_neg hin, if_neg fun h => (List.mem_cons.1 h).elim hin hmem]

end

/-- Settles O25: the Erase leaves all ones, the Programs write every unit of the row, and the Read finds them. -/
theorem eraseProgramReadRoundTrip : Obligations.EraseProgramReadRoundTrip := by
  intro s sp r W order j hP hf hh hlen hones hr himp hW hfit hperm hj
  have hpos := (wellFormed_xfer hP).1
  have hdvd := xferWords_dvd_rowWords hP
  have hmem : ∀ n, n ∈ order ↔ n < s.params.rowWords / s.params.xferWords :=
    fun n => hperm.mem_iff.trans List.mem_range
  have hunits : ∀ n ∈ order, (n + 1) * s.params.xferWords ≤ s.params.rowWords :=
    fun n hn => (Nat.le_div_iff_mul_le hpos).1 ((hmem n).1 hn)
  have hall : ∀ i < s.params.rowWords, i / s.params.xferWords ∈ order :=
    fun i hi => (hmem _).2 (Nat.div_lt_div_of_lt_of_dvd hdvd hi)
  have hword : ∀ i < s.params.rowWords, W.getD i 0#16 &&& wordMask s.params = W.getD i 0#16 := by
    intro i hi
    rw [List.getD_eq_getElem _ _ (hW ▸ hi)]
    exact hfit _ (List.getElem_mem _)
  have hs : Ready s.params s := ⟨rfl, hf, hh⟩
  have herase := exec_eraseIn sp r s
  set t := eraseCommand (opcode (eraseIn sp r)) r s
  obtain ⟨u, hprogs, hu, hulen, hread⟩ := programUnits_read hP hr himp hword (hperm.nodup_iff.2 List.nodup_range) hunits
    (ready_exec hP hs herase) ((putHeader_length _ _ _ _).trans hlen) fun i hi _ => by
      rw [eraseIn_read hP hs herase, if_pos ⟨rfl, rowBase_wordAddr hP hr hi, himp i hi⟩, hones]
  have hrow : ∀ i < s.params.rowWords, memRead s.params (u.flash.array sp) (wordAddr r i) = W.getD i 0#16 :=
    fun i hi => (hread i hi).trans (if_pos (hall i hi))
  have hunit : ∀ k < s.params.xferWords, j * s.params.xferWords + k < s.params.rowWords := by
    intro k hk
    have := hunits j hj
    rw [Nat.add_mul] at this
    omega
  obtain ⟨v, hv, hwords⟩ := readIn_words hP (unitAddr s.params r j) hu.params hulen
    fun k hk => by rw [unitAddr, wordAddr_wordAddr]; exact himp _ (hunit k hk)
  obtain ⟨c, b, d, m, hflash⟩ := readIn_flash hv
  refine ⟨v, ?_, fun i hi => ?_, fun k hk => ?_⟩
  · exact (execAll_append ((execAll_cons herase _).trans hprogs) _).trans (execAll_cons hv [])
  · rw [hflash, ← hrow i hi]
    exact congrArg (memRead s.params · _) (array_congr rfl rfl sp)
  · rw [hwords k hk, unitAddr, wordAddr_wordAddr, hrow _ (hunit k hk)]

end Sys2Proof.Proofs
end

section
/-! SUPPORT. The self-test step by step: the statements on one scan step, on the decision and on what no other step
touches (42_selftest.md R82 to R89, 40_crc.md R66 and R68, 10_state.md R11 and R21). -/

namespace Sys2Proof.Proofs
open Sys2Proof.Machine Sys2Proof.Laws

/-! ### What other steps leave alone -/

/-- A step is a reset, a step of the self-test, or it leaves the self-test, the checksum and the parameters alone. -/
theorem step_selfTest_or_kept {s t : State} (h : step s = .next t) :
    (∃ kind during after rest, s.inputs = .reset kind during after :: rest ∧
      t = resetEvent kind during after (prepared s)) ∨
    SelfTestMove (prepared s) t ∨ (t.params = s.params ∧ t.crc = s.crc ∧ t.st = s.st) := by
  have kept : ∀ {u : State}, SameOutside (prepared s) u → u.params = s.params ∧ u.crc = s.crc ∧ u.st = s.st :=
    fun ⟨hp, hc, hst, _⟩ => ⟨hp, hc, hst⟩
  obtain ⟨-, m⟩ := step_cases h
  cases m with
  | block _ t m _ =>
    cases m with
    | start hs => exact .inr (.inl (.start hs))
    | scan hs => exact .inr (.inl (.scan hs))
    | decide hs => exact .inr (.inl (.decide hs))
    | rest => exact .inr (.inr ⟨rfl, rfl, rfl⟩)
    | idle =>
      refine .inr (.inr ?_)
      unfold idleStep
      split <;> exact ⟨rfl, rfl, rfl⟩
    | command _ _ i t _ ht => exact .inr (.inr (kept (exec_outside ht).1))
    | echo => exact .inr (.inr ⟨rfl, rfl, rfl⟩)
    | respond => exact .inr (.inr ⟨rfl, rfl, rfl⟩)
    | rearm => exact .inr (.inr ⟨rfl, rfl, rfl⟩)
  | ports => exact .inr (.inr ⟨rfl, rfl, rfl⟩)
  | reset kind during after rest hi => exact .inl ⟨kind, during, after, rest, hi, rfl⟩
  | hang k => exact .inr (.inr (kept (hangEvent_outside k _).1))
  | fail k => exact .inr (.inr (kept (failEvent_outside k _).1))

theorem selfTestMove_params {s t : State} (m : SelfTestMove s t) : t.params = s.params := by
  cases m with
  | start => rfl
  | scan =>
    obtain ⟨_, _, _, _, _, _, -, heq, -⟩ := scanStep_cases s
    rw [heq]
  | decide => rw [decideStep_eq]

/-- Settles O57, by the cases of a step. -/
theorem parametersNeverChange : Obligations.ParametersNeverChange := by
  intro s t h
  rcases step_selfTest_or_kept h with ⟨kind, during, after, rest, -, rfl⟩ | m | ⟨hp, -, -⟩
  · rfl
  · exact selfTestMove_params (s := prepared s) m
  · exact hp

/-- Settles O39: the self-test takes no step once it is done. -/
theorem onlyTheSelfTestTouchesTheChecksum : Obligations.OnlyTheSelfTestTouchesTheChecksum := by
  intro s t hr hd h
  rcases step_selfTest_or_kept h with ⟨kind, during, after, rest, hi, -⟩ | m | ⟨-, hc, -⟩
  · exact absurd hi (hr kind during after rest)
  · exact absurd hd (selfTestMove_not_done (s := prepared s) m)
  · exact hc

/-- A step of the self-test starts the checksum at 0, folds a word into it or leaves it. -/
theorem selfTestMove_crcFits {s t : State} (h : s.CrcFits) (m : SelfTestMove s t) : t.CrcFits := by
  intro hpoly _
  rw [selfTestMove_params m] at hpoly ⊢
  cases m with
  | start => exact Nat.two_pow_pos _
  | scan hs =>
    have hfits := h hpoly (by rw [hs]; decide)
    obtain ⟨_, _, _, _, _, _, -, heq, -, -, -, hc⟩ := scanStep_cases s
    rw [heq]
    rcases hc with rfl | ⟨w, rfl⟩
    · exact hfits
    · exact crcBits_toNat_lt hpoly hfits _ w
  | decide hs =>
    rw [decideStep_eq]
    exact h hpoly (by rw [hs]; decide)

/-- Settles O38, by the cases of a step. -/
theorem stepKeepsCrcWithinTheWord : Obligations.StepKeepsCrcWithinTheWord := by
  intro s t hfits h
  rcases step_selfTest_or_kept h with ⟨kind, during, after, rest, -, rfl⟩ | m | ⟨hp, hc, hst⟩
  · exact fun _ hne => absurd rfl hne
  · exact selfTestMove_crcFits (s := prepared s) hfits m
  · rw [State.CrcFits, hp, hc, hst]
    exact hfits

/-! ### The order of the self-test's states -/

theorem scanStep_state (s : State) :
    (scanStep s).st.state = if s.st.scanLeft - 1#17 = 0#17 then .decide else s.st.state := by
  obtain ⟨_, _, _, _, _, _, -, heq, -⟩ := scanStep_cases s
  rw [heq]

/-- Settles O47: a scan step only raises the flags, and the decision keeps them. -/
theorem passedFlagsAreSticky : Obligations.PassedFlagsAreSticky := by
  intro s t hr hne h
  rcases step_selfTest hr h with m | hst
  · cases m with
    | start hs => exact absurd hs hne
    | scan =>
      obtain ⟨_, _, _, _, _, _, -, heq, hp, hq, -⟩ := scanStep_cases (prepared s)
      rw [heq]
      exact ⟨hp, hq⟩
    | decide =>
      rw [decideStep_eq]
      exact ⟨id, id⟩
  · rw [hst]
    exact ⟨id, id⟩

/-- Settles O49, by the steps of the self-test. -/
theorem selfTestStateNeverGoesBack : Obligations.SelfTestStateNeverGoesBack := by
  intro s t hr h
  rcases step_selfTest hr h with m | hst
  · cases m with
    | start hs => exact .inr (.inl ⟨hs, rfl⟩)
    | scan hs =>
      rw [scanStep_state]
      split
      · exact .inr (.inr (.inl ⟨hs, rfl⟩))
      · exact .inl rfl
    | decide hs => exact .inr (.inr (.inr ⟨hs, rfl⟩))
  · exact .inl (congrArg SelfTest.state hst)

/-! ### One scan step -/

/-- What a read of program memory can give: the word there, or some word where nothing exists (20_memory.md R43). -/
def ReadsAs (P : Params) (pm : Memory) (a : Addr) (w : Word) : Prop :=
  clip P w = w ∧ (implemented P .pm a = true → w = memRead P pm a)

theorem flRead_readsAs (P : Params) (a : Addr) (f : Flash) :
    ∃ w n, ReadsAs P f.pm a w ∧
      flRead P false a f = { f with fconCfg := false, faddr := a, fdata := w, freeCount := n } := by
  obtain ⟨w, n, hw, hread, himp⟩ := flRead_cases P false a f
  exact ⟨w, n, ⟨hw, fun h => (himp h).1⟩, hread⟩

/-- The word of a scan step (42_selftest.md R82, R83). -/
theorem scanWord_readsAs (s : State) :
    ∃ w n, ReadsAs s.params s.flash.pm s.st.scanAddr w ∧
      scanWord s = { s with
        crc := if isSlot s.params s.st.scanAddr then s.crc else crcFold s.params s.crc w
        flash := { s.flash with fconCfg := false, faddr := s.st.scanAddr, fdata := w, freeCount := n } } := by
  obtain ⟨w, n, hw, hread⟩ := flRead_readsAs s.params s.st.scanAddr s.flash
  refine ⟨w, n, hw, ?_⟩
  rw [scanWord, hread]
  by_cases hslot : isSlot s.params s.st.scanAddr = true
  · simp only [hslot, if_true]
  · simp only [hslot]
    rfl

/-- What the last comparison of a boundary leaves in `FADDR` and `FDATA`. -/
def slotRead (P : Params) (w1 w2 : Word) : Addr × Word :=
  if P.hybridSupported then (P.csumAltAddr, w2) else (P.csumAddr, w1)

/-- The two comparisons of a boundary (42_selftest.md R85). -/
theorem boundaryCheck_readsAs (s : State) :
    ∃ w1 w2 n, ReadsAs s.params s.flash.pm s.params.csumAddr w1 ∧
      ReadsAs s.params s.flash.pm s.params.csumAltAddr w2 ∧
      boundaryCheck s = { s with
        flash := { s.flash with
          fconCfg := false
          faddr := (slotRead s.params w1 w2).1
          fdata := (slotRead s.params w1 w2).2
          freeCount := n }
        st := { s.st with
          passed := s.st.passed || s.crc == w1
          passedAlt := s.st.passedAlt || (s.params.hybridSupported && (s.crc ^^^ s.params.hybridXor) == w2) } } := by
  obtain ⟨w1, n1, h1, hread1⟩ := flRead_readsAs s.params s.params.csumAddr s.flash
  obtain ⟨w2, n2, h2, hread2⟩ := flRead_readsAs s.params s.params.csumAltAddr
    { s.flash with fconCfg := false, faddr := s.params.csumAddr, fdata := w1, freeCount := n1 }
  refine ⟨w1, w2, if s.params.hybridSupported then n2 else n1, h1, h2, ?_⟩
  rw [boundaryCheck, hread1]
  by_cases hh : s.params.hybridSupported = true
  · simp only [slotRead, hh, if_true, Bool.true_and]
    rw [hread2]
    rfl
  · rw [Bool.not_eq_true] at hh
    simp only [slotRead, hh, Bool.false_eq_true, if_false, Bool.false_and, Bool.or_false]
    rfl

/-- What the last read of a scan step leaves in `FADDR` and `FDATA`. -/
def lastRead (P : Params) (boundary : Bool) (a : Addr) (w w1 w2 : Word) : Addr × Word :=
  if boundary then slotRead P w1 w2 else (a, w)

/-- A scan step as one record (42_selftest.md R82). -/
theorem scanStep_readsAs (s : State) :
    ∃ w w1 w2 n, ReadsAs s.params s.flash.pm s.st.scanAddr w ∧
      ReadsAs s.params s.flash.pm s.params.csumAddr w1 ∧ ReadsAs s.params s.flash.pm s.params.csumAltAddr w2 ∧
      let c := if isSlot s.params s.st.scanAddr then s.crc else crcFold s.params s.crc w
      let b := atBoundary s.params (s.st.scanAddr + 1#16)
      scanStep s = { s with
        crc := c
        flash := { s.flash with
          fconCfg := false
          faddr := (lastRead s.params b s.st.scanAddr w w1 w2).1
          fdata := (lastRead s.params b s.st.scanAddr w w1 w2).2
          freeCount := n }
        st := { s.st with
          passed := s.st.passed || (b && c == w1)
          passedAlt := s.st.passedAlt || (b && (s.params.hybridSupported && (c ^^^ s.params.hybridXor) == w2))
          scanAddr := s.st.scanAddr + 1#16
          scanLeft := s.st.scanLeft - 1#17
          state := if s.st.scanLeft - 1#17 = 0#17 then .decide else s.st.state } } := by
  obtain ⟨w, n, hw, hword⟩ := scanWord_readsAs s
  obtain ⟨w1, w2, n', h1, h2, hcheck⟩ := boundaryCheck_readsAs (scanAdvance (scanWord s))
  rw [hword] at h1 h2 hcheck
  cases hb : atBoundary s.params (s.st.scanAddr + 1#16)
  · refine ⟨w, w1, w2, n, hw, h1, h2, ?_⟩
    rw [scanStep, hword]
    simp only [scanAdvance, hb, lastRead, Bool.false_eq_true, if_false, Bool.false_and, Bool.or_false]
    split <;> rfl
  · refine ⟨w, w1, w2, n', hw, h1, h2, ?_⟩
    rw [scanStep, hword]
    simp only [scanAdvance] at hcheck ⊢
    simp only [hb, lastRead, if_true, Bool.true_and]
    rw [hcheck]
    dsimp only
    split <;> rfl

theorem step_scan {s : State} (hP : s.params.WellFormed) (hb : s.blockNext) (h : s.st.state = .scan) :
    step s = .next (scanStep (prepared s)) := by
  rw [step_block hP hb, sequencerStep, prepared_st, h]

theorem isSlot_iff (P : Params) (a : Addr) :
    isSlot P a = true ↔ a = P.csumAddr ∨ (P.hybridSupported = true ∧ a = P.csumAltAddr) := by
  simp [isSlot]

theorem atBoundary_iff (P : Params) (a : Addr) : atBoundary P a = true ↔ a.toNat % P.checkStride = 0 := by
  simp [atBoundary]

/-- Settles O41, from the scan step as one record. -/
theorem scanStepFoldsOneWordAndChecksBoundaries : Obligations.ScanStepFoldsOneWordAndChecksBoundaries := by
  intro s hP hb hs
  obtain ⟨w, w1, w2, n, hw, h1, h2, heq⟩ := scanStep_readsAs (prepared s)
  refine ⟨_, w, w1, w2, step_scan hP hb hs, hw, h1, h2, ?_⟩
  simp only [← isSlot_iff, ← atBoundary_iff]
  rw [heq]
  refine ⟨rfl, rfl, rfl, ?_, ?_, by rw [← hs]; rfl, ?_, ⟨rfl, rfl⟩, rfl, rfl, rfl, rfl, rfl, rfl, rfl, rfl, rfl, rfl,
    rfl, rfl, rfl⟩
  · simp only [Bool.or_eq_true, Bool.and_eq_true, beq_iff_eq]
    rfl
  · simp only [Bool.or_eq_true, Bool.and_eq_true, beq_iff_eq]
    rw [and_left_comm]
    rfl
  · rfl

/-! ### The decision -/

theorem step_decide {s : State} (hP : s.params.WellFormed) (hb : s.blockNext) (h : s.st.state = .decide) :
    step s = .next (decideStep (prepared s)) := by
  rw [step_block hP hb, sequencerStep, prepared_st, h]

theorem decideStep_bootMode (s : State) :
    (decideStep s).st.bootMode = decideMode s.params s.ports.pinIn s.st.passed s.st.passedAlt s.ports.nTO := by
  rw [decideStep_eq]

/-- Settles O44: the step as one record, and the hand-off by the mode. -/
theorem decisionSelectsTheModeAndHandsOver : Obligations.DecisionSelectsTheModeAndHandsOver := by
  intro s hP hb hs
  refine ⟨_, step_decide hP hb hs, ?_⟩
  have hmode := decideStep_bootMode (prepared s)
  have henabled := ceEnabled_iff (decideStep (prepared s))
  rw [decideStep_eq] at hmode henabled ⊢
  refine ⟨rfl, rfl, ?_, fun h => ?_, fun h => ?_, fun h => ?_, ?_, rfl, rfl, rfl, rfl, rfl, rfl⟩
  · simp [decideMode, and_assoc]
  · dsimp only at h ⊢
    rw [h]
    exact ⟨rfl, rfl, rfl⟩
  · dsimp only at h ⊢
    rw [h]
    exact ⟨rfl, rfl, rfl⟩
  · dsimp only at h ⊢
    rw [h]
    exact ⟨rfl, rfl⟩
  · exact henabled.trans (and_iff_right rfl)

/-- Settles O45: the mode is a function of these values and of `HYBRID_SUPPORTED`. -/
theorem decisionDependsOnlyOnFlagsPinAndTimeOut : Obligations.DecisionDependsOnlyOnFlagsPinAndTimeOut := by
  intro s s' t t' hb hb' hs hs' hhybrid hpassed halt hpin hnTO h h'
  rw [step_decide (step_cases h).1 hb hs] at h
  rw [step_decide (step_cases h').1 hb' hs'] at h'
  injection h with h
  injection h' with h'
  rw [← h, ← h', decideStep_bootMode, decideStep_bootMode]
  simp only [prepared_params, prepared_ports, prepared_st, hpassed, halt, hpin, hnTO]
  unfold decideMode
  rw [hhybrid]

end Sys2Proof.Proofs
end

section
/-! SUPPORT. The self-test whole: the statements on the run of the scan and on the boot decision that follows it
(42_selftest.md R81 to R91). -/

namespace Sys2Proof.Proofs
open Sys2Proof.Machine Sys2Proof.Laws

/-! ### The scan runs to its end -/

theorem run_inv {s t : State} {n : Nat} (h : s.Inv) (hrun : core.run n s = .next t) : t.Inv := by
  induction n generalizing s with
  | zero => injection hrun with hrun; exact hrun ▸ h
  | succ n ih =>
    obtain ⟨u, hu⟩ := run_first hrun
    rw [run_next hu] at hrun
    exact ih (stepKeepsTheInvariant s u h hu) hrun

/-- After a scan step the block's own step is next again. -/
theorem scanStep_blockNext {s : State} (h : s.blockNext) : (scanStep (prepared s)).blockNext := by
  obtain ⟨_, _, _, _, _, _, -, heq, -⟩ := scanStep_cases (prepared s)
  rw [heq]
  exact blockNext_prepared h

theorem scanStep_scanLeft (s : State) : (scanStep s).st.scanLeft = s.st.scanLeft - 1#17 := by
  obtain ⟨_, _, _, _, _, _, -, heq, -⟩ := scanStep_cases s
  rw [heq]

/-- The words that are left are scanned one by one. -/
theorem scan_run {n : Nat} {s : State} (h : s.Inv) (hb : s.blockNext) (hs : s.st.state = .scan)
    (hn : s.st.scanLeft.toNat = n + 1) :
    (∀ j ≤ n, ∃ t : State, core.run j s = .next t ∧ t.st.state = .scan) ∧
      ∃ t : State, core.run (n + 1) s = .next t ∧ t.st.state = .decide := by
  induction n generalizing s with
  | zero =>
    have hzero : s.st.scanLeft - 1#17 = 0#17 := by bv_omega
    refine ⟨fun j hj => ⟨s, by rw [Nat.le_zero.1 hj]; rfl, hs⟩, _, run_next (step_scan h.params hb hs) 0, ?_⟩
    rw [scanStep_state]
    exact if_pos hzero
  | succ n ih =>
    have hne : s.st.scanLeft - 1#17 ≠ 0#17 := by bv_omega
    have hstep := step_scan h.params hb hs
    have hstate : (scanStep (prepared s)).st.state = .scan := by
      rw [scanStep_state]
      exact (if_neg hne).trans hs
    have hleft : (scanStep (prepared s)).st.scanLeft.toNat = n + 1 := by
      rw [scanStep_scanLeft, prepared_st, scanLeft_pred_toNat (by omega), hn, Nat.add_sub_cancel]
    obtain ⟨hbefore, t, hrun, ht⟩ := ih (stepKeepsTheInvariant s _ h hstep) (scanStep_blockNext hb) hstate hleft
    refine ⟨fun j hj => ?_, t, (run_next hstep _).trans hrun, ht⟩
    cases j with
    | zero => exact ⟨s, rfl, hs⟩
    | succ j =>
      obtain ⟨u, hu, hus⟩ := hbefore j (by omega)
      exact ⟨u, (run_next hstep _).trans hu, hus⟩

/-- Settles O42, by induction on the words that are left. -/
theorem scanAlwaysRunsToTheEndOfTheRegion : Obligations.ScanAlwaysRunsToTheEndOfTheRegion := by
  intro s h hb hs
  obtain ⟨hpos, -⟩ := h.selfTest.scanLeft hs
  have hn : s.st.scanLeft.toNat = s.st.scanLeft.toNat - 1 + 1 := by omega
  obtain ⟨hbefore, hafter⟩ := scan_run h hb hs hn
  rw [← hn] at hafter
  exact ⟨fun j hj => hbefore j (by omega), hafter⟩

/-! ### What the scan computes -/

theorem regionAddr_succ (P : Params) (i : Nat) : regionAddr P i + 1#16 = regionAddr P (i + 1) :=
  (BitVec.ofNat_add (P.scanStart + i) 1).symm

/-- A region that ends with the address space ends at a boundary as if the address did not wrap. -/
theorem atBoundary_regionAddr {P : Params} (hP : P.WellFormed) (i : Nat) :
    atBoundary P (regionAddr P i) = ((P.scanStart + i) % P.checkStride == 0) := by
  obtain ⟨-, -, -, -, -, hstride, -⟩ := hP
  obtain ⟨k, -, hk, hpow⟩ := mem_powersOfTwo.1 hstride
  have hdvd : P.checkStride ∣ 2 ^ 16 := hpow ▸ Nat.pow_dvd_pow 2 hk
  rw [atBoundary, regionAddr, BitVec.toNat_ofNat, Nat.mod_mod_of_dvd _ hdvd]

theorem regionChecksum_succ (P : Params) (pm : Memory) (n : Nat) :
    regionChecksum P pm (n + 1) =
      if isSlot P (regionAddr P n) then regionChecksum P pm n
      else crcFold P (regionChecksum P pm n) (memRead P pm (regionAddr P n)) := by
  rw [regionChecksum, List.range_succ, List.map_append, List.filter_append, List.map_append, checksum,
    List.foldl_append]
  by_cases hslot : isSlot P (regionAddr P n) = true
  · simp [hslot, regionChecksum, checksum]
  · simp [hslot, regionChecksum, checksum]

/-- Some boundary among the first `n` words of the region has the checksum `target`. -/
def matchedWithin (P : Params) (pm : Memory) (target : Word → Bool) (n : Nat) : Bool :=
  (List.range n).any fun i => (P.scanStart + i + 1) % P.checkStride == 0 && target (regionChecksum P pm (i + 1))

theorem matchedWithin_region (P : Params) (pm : Memory) (target : Word → Bool) :
    matchedWithin P pm target (P.scanEnd - P.scanStart) = boundaryMatch P pm target := rfl

theorem matchedWithin_succ (P : Params) (pm : Memory) (target : Word → Bool) (n : Nat) :
    matchedWithin P pm target (n + 1) =
      (matchedWithin P pm target n ||
        ((P.scanStart + n + 1) % P.checkStride == 0 && target (regionChecksum P pm (n + 1)))) := by
  simp [matchedWithin, List.range_succ]

/-- The first comparison (42_selftest.md R85). -/
def storedMatches (P : Params) (pm : Memory) (c : Word) : Bool := c == memRead P pm P.csumAddr

/-- The second comparison, of the transformed checksum (42_selftest.md R85). -/
def altMatches (P : Params) (pm : Memory) (c : Word) : Bool := (c ^^^ P.hybridXor) == memRead P pm P.csumAltAddr

/-- The block in `t`, `i` words into the scan of the region that began in `s`. -/
structure ScannedTo (s : State) (i : Nat) (t : State) : Prop where
  next      : t.blockNext
  params    : t.params = s.params
  ports     : t.ports = s.ports
  pm        : t.flash.pm = s.flash.pm
  cm        : t.flash.cm = s.flash.cm
  crc       : t.crc = regionChecksum s.params s.flash.pm i
  passed    : t.st.passed = matchedWithin s.params s.flash.pm (storedMatches s.params s.flash.pm) i
  passedAlt : t.st.passedAlt = (s.params.hybridSupported &&
    matchedWithin s.params s.flash.pm (altMatches s.params s.flash.pm) i)
  scanAddr  : t.st.scanAddr = regionAddr s.params i
  scanLeft  : t.st.scanLeft.toNat = s.params.scanEnd - s.params.scanStart - i
  state     : t.st.state = if i = s.params.scanEnd - s.params.scanStart then .decide else .scan

section
variable {s : State} (hP : s.params.WellFormed)
include hP

theorem scannedTo_start (hb : s.blockNext) : ScannedTo s 0 (startSelfTest (prepared s)) where
  next := blockNext_prepared hb
  params := rfl
  ports := rfl
  pm := rfl
  cm := rfl
  crc := rfl
  passed := rfl
  passedAlt := (Bool.and_false _).symm
  scanAddr := rfl
  scanLeft := startSelfTest_scanLeft_toNat (s := prepared s) hP
  state := by
    obtain ⟨-, -, -, -, ⟨hlt, -⟩, -⟩ := hP
    exact (if_neg (by omega)).symm

/-- One more word of the region. -/
theorem scannedTo_succ (himp : selfTestImplemented s.params) {i : Nat} (hi : i < s.params.scanEnd - s.params.scanStart)
    {t : State} (h : ScannedTo s i t) :
    step t = .next (scanStep (prepared t)) ∧ ScannedTo s (i + 1) (scanStep (prepared t)) := by
  have hscan : t.st.state = .scan := h.state.trans (if_neg (by omega))
  have hleft := h.scanLeft
  have hpred : (t.st.scanLeft - 1#17).toNat = s.params.scanEnd - s.params.scanStart - (i + 1) := by
    rw [scanLeft_pred_toNat (by omega)]
    omega
  have hlast : t.st.scanLeft - 1#17 = 0#17 ↔ i + 1 = s.params.scanEnd - s.params.scanStart := by
    rw [← BitVec.toNat_inj, hpred, BitVec.toNat_ofNat]
    omega
  obtain ⟨hregion, hcsum, halt⟩ := himp
  obtain ⟨a, w, heq⟩ := scanStep_implemented (s := prepared t)
    (by rw [prepared_params, prepared_st, h.params, h.scanAddr]; exact hregion i hi)
    (by rw [prepared_params, h.params]; exact hcsum)
    (by rw [prepared_params, h.params]; exact halt)
  simp only [prepared_params, prepared_flash, prepared_crc, prepared_st, h.params, h.pm, h.crc, h.scanAddr,
    ← regionChecksum_succ, regionAddr_succ, atBoundary_regionAddr hP] at heq
  refine ⟨step_scan (h.params.symm ▸ hP) h.next hscan, ?_⟩
  have hnext := scanStep_blockNext h.next
  rw [heq] at hnext ⊢
  exact {
    next := hnext
    params := rfl
    ports := h.ports
    pm := rfl
    cm := h.cm
    crc := rfl
    passed := by rw [matchedWithin_succ, ← h.passed]; rfl
    passedAlt := by
      rw [matchedWithin_succ, Bool.and_or_distrib_left, ← h.passedAlt, ← Bool.and_assoc]; rfl
    scanAddr := rfl
    scanLeft := hpred
    state := by simp only [hlast, hscan] }

/-- From ST_RESET one step and one for every word of the region. -/
theorem scannedTo_run (hb : s.blockNext) (hs : s.st.state = .reset) (himp : selfTestImplemented s.params) {i : Nat}
    (hi : i ≤ s.params.scanEnd - s.params.scanStart) :
    ∃ t : State, core.run (i + 1) s = .next t ∧ ScannedTo s i t := by
  induction i with
  | zero => exact ⟨_, run_next (step_start hP hb hs) 0, scannedTo_start hP hb⟩
  | succ i ih =>
    obtain ⟨t, hrun, ht⟩ := ih (by omega)
    obtain ⟨hstep, hnext⟩ := scannedTo_succ hP himp (by omega) ht
    exact ⟨_, run_succ hrun hstep, hnext⟩

end

/-- Settles O43, by induction on the words of the region. -/
theorem selfTestComputesTheRegionChecksum : Obligations.SelfTestComputesTheRegionChecksum := by
  intro s h hb hs himp
  obtain ⟨t, hrun, ht⟩ := scannedTo_run h.params hb hs himp le_rfl
  exact ⟨t, hrun, ht.state.trans (if_pos rfl), ht.crc, ht.passed, ht.passedAlt, ⟨ht.pm, ht.cm⟩, ht.ports⟩

/-! ### The decision -/

/-- The three modes, when `passed_alt` is set only where HYBRID is supported (42_selftest.md R87). -/
theorem decideMode_modes (P : Params) (pin passed alt nTO : Bool) :
    (decideMode P pin passed (P.hybridSupported && alt) nTO = .residentApplication ↔
      (pin = true ∧ nTO = true) ∧ passed = true) ∧
    (decideMode P pin passed (P.hybridSupported && alt) nTO = .hybrid ↔
      (pin = true ∧ nTO = true) ∧ ¬ passed = true ∧ P.hybridSupported = true ∧ alt = true) ∧
    (decideMode P pin passed (P.hybridSupported && alt) nTO = .bootloader ↔
      ¬ (pin = true ∧ nTO = true) ∨ (¬ passed = true ∧ ¬ (P.hybridSupported = true ∧ alt = true))) := by
  unfold decideMode
  generalize P.hybridSupported = hybrid
  revert pin passed alt nTO hybrid
  decide

/-- Control is given away exactly in RESIDENT_APPLICATION mode. -/
theorem inv_mcuPc_iff {s : State} (h : s.Inv) :
    s.mcuPc = some s.params.residentVector ↔ s.st.bootMode = .residentApplication := by
  rw [h.handoff]
  by_cases hm : s.st.bootMode = .residentApplication
  · simp [hm]
  · simp [hm]

/-- Settles O46: the scan's flags say whether a boundary matched, and the decision follows from them. -/
theorem bootDecisionFollowsFromFlashPinAndTimeOut : Obligations.BootDecisionFollowsFromFlashPinAndTimeOut := by
  intro s h hb hs himp
  obtain ⟨t, hrun, ht⟩ := scannedTo_run h.params hb hs himp le_rfl
  have hP : t.params.WellFormed := ht.params.symm ▸ h.params
  have hstep := step_decide hP ht.next (ht.state.trans (if_pos rfl))
  have hrun' := run_succ hrun hstep
  have hmode := decideStep_bootMode (prepared t)
  simp only [prepared_params, prepared_ports, prepared_st, ht.params, ht.ports, ht.passed, ht.passedAlt,
    matchedWithin_region] at hmode
  have hparams : (decideStep (prepared t)).params = s.params := by rw [decideStep_eq]; exact ht.params
  have hpc := inv_mcuPc_iff (run_inv h hrun')
  rw [hparams] at hpc
  obtain ⟨hresident, hhybrid, hboot⟩ := decideMode_modes s.params s.ports.pinIn
    (boundaryMatch s.params s.flash.pm (storedMatches s.params s.flash.pm))
    (boundaryMatch s.params s.flash.pm (altMatches s.params s.flash.pm)) s.ports.nTO
  rw [← hmode] at hresident hhybrid hboot
  exact ⟨_, hrun', rfl, hresident, hhybrid, hboot, hpc⟩

end Sys2Proof.Proofs
end

section
/-! SUPPORT. What a step can do to the flash arrays, and the statements on a reset, a hang and a refusal (10_state.md
R19, R29 and R31, 20_memory.md R32 and R46, 93_implementation_defined.md U5, U6 and U12). -/

namespace Sys2Proof.Proofs
open Sys2Proof.Machine Sys2Proof.Laws

/-! ### Words and arrays out of reach of a strobe -/

/-- The strobe writes the row of `x` in `sp`. -/
def Reaches (P : Params) (op : FlashOp) (sp : Space) (x : Addr) : Prop :=
  op.writesRow = true ∧ op.space = sp ∧ rowBase P x = rowBase P op.addr

theorem runOp_read_other {P : Params} (hP : P.WellFormed) {f : Flash} (hf : f.BetweenOps P) {op : FlashOp} {sp : Space}
    {x : Addr} (h : ¬ Reaches P op sp x) : memRead P ((runOp P op f).array sp) x = memRead P (f.array sp) x := by
  have hu := hf.unlockIdle
  have he := hf.eraseClear
  cases op with
  | erase cfg a =>
    have hread := eraseRow_read hP cfg a hu hf.arrays sp x
    exact hread.trans (if_neg fun hc => h ⟨rfl, hc.1.symm, hc.2.1⟩)
  | load cfg a w =>
    rw [runOp, flLoad_eq hu he]
    exact congrArg (memRead P · x) (array_congr rfl rfl sp)
  | write cfg a w =>
    rw [runOp, flWrite_array hu he]
    by_cases hsp : sp = spaceOf cfg
    · rw [if_pos hsp, memRead_updateRow hP (hf.arrays _), hsp]
      exact if_neg fun hc => h ⟨rfl, hsp.symm, hc.1⟩
    · rw [if_neg hsp]

theorem runOps_read_other {P : Params} (hP : P.WellFormed) {ops : List FlashOp} {f : Flash} (hf : f.BetweenOps P)
    {sp : Space} {x : Addr} (h : ∀ op ∈ ops, ¬ Reaches P op sp x) :
    memRead P ((runOps P ops f).array sp) x = memRead P (f.array sp) x := by
  induction ops generalizing f with
  | nil => rfl
  | cons op ops ih =>
    obtain ⟨hop, hops⟩ := List.forall_mem_cons.1 h
    exact (ih (betweenOps_run hf [op]) hops).trans (runOp_read_other hP hf hop)

/-- A row caught half-way is a row of the command's own. -/
theorem caughtAt_read_other {P : Params} (hP : P.WellFormed) {ops : List FlashOp} {f g : Flash} (hf : f.BetweenOps P)
    {k : Nat} (hc : caughtAt P ops k f = some g) {sp : Space} {x : Addr} (h : ∀ op ∈ ops, ¬ Reaches P op sp x) :
    memRead P (g.array sp) x = memRead P (f.array sp) x := by
  obtain ⟨op, hmem, hwrites, rfl⟩ := caughtAt_some hc
  have hbetween := betweenOps_run (betweenOps_enter hf) (ops.take k)
  have hrun := runOps_read_other hP (ops := ops.take k) (betweenOps_enter hf) (sp := sp) (x := x)
    fun o ho => h o (List.mem_of_mem_take ho)
  rw [csEnter_array] at hrun
  rw [scrambleRow_array]
  by_cases hsp : sp = op.space
  · rw [if_pos hsp, memRead_updateRow hP (hbetween.arrays _), ← hsp,
      if_neg fun hx => h op hmem ⟨hwrites, hsp.symm, hx.1⟩, hrun]
  · rw [if_neg hsp, hrun]

theorem runOp_array_other {P : Params} {f : Flash} (hu : f.unlock = .idle) (he : f.fconErase = false) {op : FlashOp}
    {sp : Space} (h : op.space ≠ sp) : (runOp P op f).array sp = f.array sp := by
  cases op with
  | erase cfg a =>
    rw [runOp, flErase_eq hu]
    exact (array_congr rfl rfl sp).trans ((setArray_array _ _ _ sp).trans (if_neg fun hs => h hs.symm))
  | load cfg a w =>
    rw [runOp, flLoad_eq hu he]
    exact array_congr rfl rfl sp
  | write cfg a w =>
    rw [runOp, flWrite_array hu he]
    exact if_neg fun hs => h hs.symm

theorem runOps_array_other {P : Params} {ops : List FlashOp} {f : Flash} (hu : f.unlock = .idle)
    (he : f.fconErase = false) {sp : Space} (h : ∀ op ∈ ops, op.space ≠ sp) :
    (runOps P ops f).array sp = f.array sp := by
  induction ops generalizing f with
  | nil => rfl
  | cons op ops ih =>
    obtain ⟨hop, hops⟩ := List.forall_mem_cons.1 h
    obtain ⟨hu', he', -⟩ := runOp_atRest (P := P) op hu he
    exact (ih hu' he' hops).trans (runOp_array_other hu he hop)

theorem scrambleRow_array_other {P : Params} {op : FlashOp} (f : Flash) {sp : Space} (h : op.space ≠ sp) :
    (scrambleRow P op f).array sp = f.array sp :=
  (scrambleRow_array P op f sp).trans (if_neg fun hs => h hs.symm)

/-! ### What the strobes of a command make of the flash -/

/-- The flash after the strobes of a command, all of them done, cut short or with one that failed. -/
inductive Strobed (P : Params) (ops : List FlashOp) (f : Flash) : Flash → Prop where
  | whole : Strobed P ops f (criticalSection P ops f)
  | caught (k : Nat) (g : Flash) (h : caughtAt P ops k f = some g) : Strobed P ops f g
  | failed (k : Nat) : Strobed P ops f (failedAt P ops k f)

/-- The strobes of one space keep the array of the other, whatever becomes of them. -/
theorem strobed_array_other {P : Params} {ops : List FlashOp} {f g : Flash} (hu : f.unlock = .idle)
    (he : f.fconErase = false) {sp : Space} (h : ∀ op ∈ ops, op.space ≠ sp) (hg : Strobed P ops f g) :
    g.array sp = f.array sp := by
  have enter : ∀ os, (∀ op ∈ os, op ∈ ops) → (runOps P os (csEnter f)).array sp = f.array sp := fun os hos =>
    (runOps_array_other (f := csEnter f) hu he fun op hop => h op (hos op hop)).trans (csEnter_array f sp)
  cases hg with
  | whole => exact (csExit_array _ sp).trans (enter ops fun _ => id)
  | caught k g hc =>
    obtain ⟨op, hmem, -, rfl⟩ := caughtAt_some hc
    exact (scrambleRow_array_other _ (h op hmem)).trans (enter _ fun _ => List.mem_of_mem_take)
  | failed k =>
    have htake := enter (ops.take (k + 1)) fun _ => List.mem_of_mem_take
    obtain ⟨hu', he', -⟩ := runOps_atRest (P := P) (f := csEnter f) (ops.take (k + 1)) hu he
    have leave : ∀ g' : Flash, g'.unlock = .idle → g'.fconErase = false →
        (csExit (runOps P (ops.drop (k + 1)) g')).array sp = g'.array sp := fun g' hu' he' =>
      (csExit_array _ sp).trans (runOps_array_other hu' he' fun op hop => h op (List.mem_of_mem_drop hop))
    unfold failedAt
    dsimp only
    split
    · rename_i op hop
      split
      · refine (leave (scrambleRow P op _) ((setArray_unlock _ _ _).trans hu')
          ((setArray_fconErase _ _ _).trans he')).trans ?_
        exact (scrambleRow_array_other _ (h op (List.mem_of_getElem? hop))).trans htake
      · exact (leave _ hu' he').trans htake
    · exact (leave _ hu' he').trans htake

theorem pending_of_command {s : State} {i : Instr} (hh : s.flash.hung = false) (he : ceEnabled s = true)
    (hd : s.ce.state = .dispatch) (hi : decode s.params s.ports.rxBuf = .command i) :
    pendingStrobes s = strobesOf s.params i := by
  simp only [pendingStrobes, hh, he, hd, hi]
  rfl

/-- The pending strobes go to the space of bit 2 of the command byte (30_encoding.md R54). -/
theorem pending_space (s : State) :
    ∀ op ∈ pendingStrobes s, op.space = spaceOf ((bufByte s.ports.rxBuf 0).getLsbD 2) := by
  intro op hop
  obtain ⟨-, -, -, i, hi, hpend⟩ := pending_dispatch (List.ne_nil_of_mem hop)
  obtain ⟨code, b1, b2, payload, hrx, hcode, -⟩ := decode_command hi
  rw [hpend] at hop
  rw [strobes_space _ i op hop, hrx, hcode]
  rfl

/-- From `s` to `t` the strobes pending in `s` are issued: the block dispatches them, or an input cuts them short. -/
def StrobesIssued (s t : State) : Prop :=
  pendingStrobes s ≠ [] ∧ s.reachesFlash = true ∧
    ∃ g, Strobed s.params (pendingStrobes s) s.flash g ∧ t.flash.pm = g.pm ∧ t.flash.cm = g.cm

/-- The dispatch of a command. -/
theorem command_arrays {s t : State} {i : Instr} (hpend : pendingStrobes s = strobesOf s.params i)
    (hreach : s.reachesFlash = true) (h : exec i (prepared s) = .next t) : SameArrays s t ∨ StrobesIssued s t := by
  rcases exec_flash h with ⟨cfg, tx, hflash, -⟩ | hflash
  · obtain ⟨c, b, d, m, hread, -⟩ := readWords_flash s.params cfg (operandAddr i) (s.flash, tx) s.params.xferWords
    rw [prepared_params, prepared_flash, hread] at hflash
    exact .inl (by rw [SameArrays, hflash]; exact ⟨rfl, rfl⟩)
  · rw [prepared_params, prepared_flash, ← hpend] at hflash
    by_cases hnil : pendingStrobes s = []
    · rw [hnil] at hflash
      exact .inl (by rw [SameArrays, hflash]; exact ⟨rfl, rfl⟩)
    · exact .inr ⟨hnil, hreach, _, .whole, congrArg Flash.pm hflash, congrArg Flash.cm hflash⟩

/-- A reset keeps the arrays as it finds them. -/
theorem resetEvent_arrays (kind : ResetKind) (during : Option Nat) (after : Ports) (s : State) :
    (resetEvent kind during after s).flash.pm = (flashAtReset during s).pm ∧
      (resetEvent kind during after s).flash.cm = (flashAtReset during s).cm := ⟨rfl, rfl⟩

/-- A reset between two steps keeps the arrays, one during a command catches a row. -/
theorem reset_arrays {s : State} {kind : ResetKind} {during : Option Nat} {after : Ports} {rest : List Input}
    (hi : s.inputs = .reset kind during after :: rest) :
    SameArrays s (resetEvent kind during after (prepared s)) ∨
      StrobesIssued s (resetEvent kind during after (prepared s)) := by
  obtain ⟨hpm, hcm⟩ := resetEvent_arrays kind during after (prepared s)
  cases during with
  | none => exact .inl ⟨hpm, hcm⟩
  | some k =>
    cases hc : caughtAt s.params (pendingStrobes s) k s.flash with
    | none =>
      have hf : flashAtReset (some k) (prepared s) = s.flash := by
        simp only [flashAtReset, prepared_params, prepared_pending, prepared_flash, hc]
      rw [hf] at hpm hcm
      exact .inl ⟨hpm, hcm⟩
    | some g =>
      have hf : flashAtReset (some k) (prepared s) = g := by
        simp only [flashAtReset, prepared_params, prepared_pending, prepared_flash, hc]
      rw [hf] at hpm hcm
      obtain ⟨op, hop, -⟩ := caughtAt_some hc
      exact .inr ⟨List.ne_nil_of_mem hop, by rw [State.reachesFlash, hi]; rfl, g, .caught k g hc, hpm, hcm⟩

theorem hang_arrays {s : State} {k : Nat} {rest : List Input} (hi : s.inputs = .flashHangs k :: rest) :
    SameArrays s (hangEvent k (prepared s)) ∨ StrobesIssued s (hangEvent k (prepared s)) := by
  unfold hangEvent
  split
  · rename_i g hc
    obtain ⟨op, hop, -⟩ := caughtAt_some hc
    exact .inr ⟨List.ne_nil_of_mem hop, by rw [State.reachesFlash, hi], g, .caught k g hc, rfl, rfl⟩
  · exact .inl ⟨rfl, rfl⟩

theorem fail_arrays {s : State} {k : Nat} {rest : List Input} (hi : s.inputs = .flashFails k :: rest) :
    SameArrays s (failEvent k (prepared s)) ∨ StrobesIssued s (failEvent k (prepared s)) := by
  unfold failEvent
  split
  · rename_i hk
    exact .inr ⟨List.ne_nil_of_length_pos (Nat.zero_lt_of_lt hk), by rw [State.reachesFlash, hi], _, .failed k, rfl,
      rfl⟩
  · exact .inl ⟨rfl, rfl⟩

/-- A step keeps both arrays, or it issues the pending strobes. -/
theorem step_arrays {s t : State} (h : step s = .next t) : SameArrays s t ∨ StrobesIssued s t := by
  obtain ⟨-, m⟩ := step_cases h
  cases m with
  | block hh t m hi =>
    have hreach : s.reachesFlash = true := by
      rcases hi with hi | ⟨rest, hi⟩ <;> rw [State.reachesFlash, hi]
    cases m with
    | start => exact .inl ⟨rfl, rfl⟩
    | scan =>
      obtain ⟨_, _, _, _, _, _, -, heq, -⟩ := scanStep_cases (prepared s)
      exact .inl (by rw [SameArrays, heq]; exact ⟨rfl, rfl⟩)
    | decide => exact .inl (by rw [SameArrays, decideStep_eq]; exact ⟨rfl, rfl⟩)
    | rest => exact .inl ⟨rfl, rfl⟩
    | idle => exact .inl (by unfold idleStep; split <;> exact ⟨rfl, rfl⟩)
    | command he hd i t hdec ht => exact command_arrays (pending_of_command hh he hd hdec) hreach ht
    | echo => exact .inl ⟨rfl, rfl⟩
    | respond => exact .inl ⟨rfl, rfl⟩
    | rearm => exact .inl ⟨rfl, rfl⟩
  | ports => exact .inl ⟨rfl, rfl⟩
  | reset kind during after rest hi => exact reset_arrays hi
  | hang k rest hi => exact hang_arrays hi
  | fail k rest hi => exact fail_arrays hi

/-- Settles O55: a step that changes an array issues the pending strobes. -/
theorem flashIsWrittenOnlyByCommands : Obligations.FlashIsWrittenOnlyByCommands := by
  intro s t hn h
  rcases step_arrays h with hsame | ⟨hpend, hreach, -⟩
  · exact hsame
  · exact absurd ⟨hpend, hreach⟩ hn

/-- Settles O56: the strobes that are issued go to the space of that bit. -/
theorem commandsReachOnlyTheirOwnSpace : Obligations.CommandsReachOnlyTheirOwnSpace := by
  intro s t hinv h
  rcases step_arrays h with ⟨hpm, hcm⟩ | ⟨-, -, g, hg, hpm, hcm⟩
  · exact ⟨fun _ => hcm, fun _ => hpm⟩
  · have other : ∀ sp, spaceOf ((bufByte s.ports.rxBuf 0).getLsbD 2) ≠ sp → g.array sp = s.flash.array sp :=
      fun sp hsp => strobed_array_other hinv.flash.unlockIdle hinv.flash.eraseClear
        (fun op hop => by rw [pending_space s op hop]; exact hsp) hg
    exact ⟨fun hbit => hcm.trans (other .cm (by rw [hbit]; decide)),
      fun hbit => hpm.trans (other .pm (by rw [hbit]; decide))⟩

/-! ### Reset -/

theorem step_reset {s : State} {kind : ResetKind} {during : Option Nat} {after : Ports} {rest : List Input}
    (hP : s.params.WellFormed) (hi : s.inputs = .reset kind during after :: rest)
    (ha : after.rxBuf.length = s.params.reportBytes) :
    step s = .next (resetEvent kind during after (prepared s)) := by
  rw [step_wellFormed hP, worldStep_prepared, hi]
  exact if_pos (beq_iff_eq.2 ha)

theorem nTOAfter_eq_false_iff (kind : ResetKind) : nTOAfter kind = false ↔ kind = .watchdog := by
  cases kind <;> decide

/-- Settles O51: the values are those of `resetWith`, and `nTO` is a level that no other step moves. -/
theorem resetGivesTheTableAndKeepsFlash : Obligations.ResetGivesTheTableAndKeepsFlash := by
  refine ⟨fun s kind during after rest hP hi ha => ?_, fun s t hr h => ?_⟩
  · refine ⟨_, step_reset hP hi ha, rfl, rfl, rfl, rfl, rfl, rfl, rfl, rfl, rfl, rfl, rfl, rfl, ?_, rfl,
      nTOAfter_eq_false_iff kind⟩
    rintro rfl
    exact ⟨rfl, rfl⟩
  · cases step_transport h with
    | reset kind during after rest hi => exact absurd hi (hr kind during after rest)
    | submit _ ht => subst ht; rfl
    | rearm _ ht => subst ht; rfl
    | quiet hp => exact hp.timeOut

/-- Settles O52: the reset finds the flash as it stood, or with a row of the pending command caught half-way. -/
theorem resetDuringACommandTouchesOnlyItsRows : Obligations.ResetDuringACommandTouchesOnlyItsRows := by
  intro s kind during after rest hinv hi ha
  refine ⟨_, step_reset hinv.params hi ha, rfl, rfl, rfl, fun sp x hx => ?_⟩
  have hother : ∀ op ∈ pendingStrobes s, ¬ Reaches s.params op sp x :=
    fun op hop hreach => hx op hop hreach.1 hreach.2.1 hreach.2.2
  have hread : memRead s.params ((flashAtReset during (prepared s)).array sp) x =
      memRead s.params (s.flash.array sp) x := by
    unfold flashAtReset
    split
    · rfl
    · split
      · exact caughtAt_read_other hinv.params hinv.flash.toBetweenOps ‹_› hother
      · rfl
  obtain ⟨hpm, hcm⟩ := resetEvent_arrays kind during after (prepared s)
  rw [← hread, array_congr hpm hcm]

/-! ### Hangs and refusals -/

/-- Settles O59: while an operation hangs the block takes no step and no strobes are pending. -/
theorem hungFlashIsLeftOnlyByReset : Obligations.HungFlashIsLeftOnlyByReset := by
  intro s hinv hh
  have hpend : pendingStrobes (prepared s) = [] := by
    by_contra hne
    obtain ⟨hh', -⟩ := pending_dispatch hne
    exact absurd (hh'.symm.trans hh) Bool.false_ne_true
  refine ⟨hinv.flash.inhibit.trans hh, fun hi => ?_, fun t hr h => ?_, fun kind during after rest hi ha => ?_⟩
  · rw [step_wellFormed hinv.params, worldStep_prepared, hi]
    exact if_pos hh
  · obtain ⟨-, m⟩ := step_cases h
    cases m with
    | block hh' => exact absurd (hh'.symm.trans hh) Bool.false_ne_true
    | ports => exact ⟨rfl, rfl⟩
    | reset kind during after rest hi => exact absurd hi (hr kind during after rest)
    | hang k =>
      rw [hangEvent_of_not_pending hpend]
      exact ⟨rfl, rfl⟩
    | fail k =>
      rw [failEvent_of_not_pending hpend]
      exact ⟨rfl, rfl⟩
  · exact ⟨_, step_reset hinv.params hi ha, rfl⟩

/-- Settles O58, by the first test of a step. -/
theorem illFormedParametersAreRefused : Obligations.IllFormedParametersAreRefused := fun _ h => if_neg h

/-- Settles O60: both inputs ask that `rx_full` is 0. -/
theorem transportMayNotTouchARequestBeingServed : Obligations.TransportMayNotTouchARequestBeingServed := by
  intro s bytes rest hP hfull hi
  rw [step_wellFormed hP, worldStep_prepared]
  rcases hi with hi | hi
  · rw [hi]
    simp [inputStep, transportStep, hfull]
  · rw [hi]
    simp [inputStep, transportStep, hfull]

end Sys2Proof.Proofs
end
